-- ==== Sys2Proof/Word.lean ====
section
/-! DEFINITION. The word types of the block: bytes, halves, the 32-bit words commands and accessor answers are made of
(20_memory.md R110, 30_encoding.md R140), and the 64-bit command word. -/

namespace Sys2Proof

/-- A byte of TMEM or of the accessor space (R100, R111). -/
abbrev Byte := BitVec 8

/-- A 16-bit word: the view `TMEM16` (R101). -/
abbrev Half := BitVec 16

/-- A 32-bit word: one word of a command (R140), one answer of the memory accessor (R110). -/
abbrev Word := BitVec 32

/-- A 64-bit word: a command read as one (R140), the view `TMEM64` (R101). -/
abbrev Dword := BitVec 64

end Sys2Proof
end

