-- ==== Sys2Proof/Syntax.lean ====
section
/-! DEFINITION. The syntax of everything the host can hand to the block: the sixteen commands of the command surface
(30_encoding.md R144), one constructor of `Instr` per row of spec/opcode_table.json, and the other host entries of
60_exceptions.md R468 (INIT, configuration writes, primitives, ReadCrashed). -/

namespace Sys2Proof

/-! ### Operand records of the commands -/

/-- The 37 fields of PipelineConfig `cfg` ("other modes", R31); also the operand of SET_OTHER_MODES (R150, R180).
One-bit fields are Booleans, 1 being `true`; code fields keep their two bits (R32 to R37). -/
structure OtherModes where
  /-- Stored, of no effect in this block (R39). -/
  atomicPrim : Bool
  /-- R32: 0 = 1-cycle, 1 = 2-cycle, 2 = copy, 3 = fill. -/
  cycleType : BitVec 2
  perspTexEn : Bool
  detailTexEn : Bool
  sharpenTexEn : Bool
  texLodEn : Bool
  enTlut : Bool
  /-- false = TLUT entries are 16-bit RGBA, true = 16-bit IA. -/
  tlutType : Bool
  /-- false = point sample, true = 2×2 filtered sample. -/
  sampleType : Bool
  midTexel : Bool
  biLerp0 : Bool
  biLerp1 : Bool
  convertOne : Bool
  keyEn : Bool
  /-- R33: 0 = magic square, 1 = Bayer, 2 = noise, 3 = none. -/
  rgbDitherSel : BitVec 2
  /-- R34: 0 = pattern, 1 = inverted pattern, 2 = noise, 3 = none. -/
  alphaDitherSel : BitVec 2
  bM1a0 : BitVec 2
  bM1a1 : BitVec 2
  bM1b0 : BitVec 2
  bM1b1 : BitVec 2
  bM2a0 : BitVec 2
  bM2a1 : BitVec 2
  bM2b0 : BitVec 2
  bM2b1 : BitVec 2
  forceBlend : Bool
  alphaCvgSelect : Bool
  cvgTimesAlpha : Bool
  /-- R36: 0 = opaque, 1 = interpenetrating, 2 = transparent, 3 = decal. -/
  zMode : BitVec 2
  /-- R37: 0 = clamp, 1 = wrap, 2 = zap, 3 = save. -/
  cvgDest : BitVec 2
  colorOnCvg : Bool
  imageReadEn : Bool
  zUpdateEn : Bool
  zCompareEn : Bool
  antialiasEn : Bool
  zSourceSel : Bool
  ditherAlphaEn : Bool
  alphaCompareEn : Bool
deriving DecidableEq, Repr

/-- The thirteen fields of a tile descriptor that SET_TILE writes (R50, R151, R181). -/
structure TileShape where
  /-- R51: 0 RGBA, 1 YUV, 2 CI, 3 IA, 4 I; 5 to 7 stored, fetched by `FetchOther`. -/
  format : BitVec 3
  /-- R52: 0 = 4, 1 = 8, 2 = 16, 3 = 32 bits per texel. -/
  size : BitVec 2
  line : BitVec 9
  tmem : BitVec 9
  palette : BitVec 4
  ct : Bool
  mt : Bool
  maskT : BitVec 4
  shiftT : BitVec 4
  cs : Bool
  ms : Bool
  maskS : BitVec 4
  shiftS : BitVec 4
deriving DecidableEq, Repr

/-- The coordinate bounds of a tile, 10.2 fixed point (R50); the operands of SET_TILE_SIZE, LOAD_TILE and LOAD_TLUT
(R152, R153). -/
structure TileBounds where
  sl : BitVec 12
  tl : BitVec 12
  sh : BitVec 12
  th : BitVec 12
deriving DecidableEq, Repr

/-- The convert constants K0 to K5 (R46, R159), nine bits each. -/
structure ConvertConsts where
  k0 : BitVec 9
  k1 : BitVec 9
  k2 : BitVec 9
  k3 : BitVec 9
  k4 : BitVec 9
  k5 : BitVec 9
deriving DecidableEq, Repr

/-- The sixteen commands of the command surface, one constructor per row of spec/opcode_table.json (R144). -/
inductive Instr where
  /-- NOP, opcode 0x00 (R160, R197). -/
  | nop
  /-- SYNC_LOAD, opcode 0x26 (R160, R195). -/
  | syncLoad
  /-- SYNC_PIPE, opcode 0x27 (R160, R193). -/
  | syncPipe
  /-- SYNC_TILE, opcode 0x28 (R160, R194). -/
  | syncTile
  /-- SYNC_FULL, opcode 0x29 (R160, R196). -/
  | syncFull
  /-- SET_CONVERT, opcode 0x2C (R159, R191). -/
  | setConvert (k : ConvertConsts)
  /-- SET_PRIM_DEPTH, opcode 0x2E (R158, R190). -/
  | setPrimDepth (z : BitVec 15) (dz : BitVec 16)
  /-- SET_OTHER_MODES, opcode 0x2F (R150, R180). -/
  | setOtherModes (m : OtherModes)
  /-- LOAD_TLUT, opcode 0x30 (R153, R186). -/
  | loadTlut (tile : BitVec 3) (b : TileBounds)
  /-- SET_TILE_SIZE, opcode 0x32 (R152, R182). -/
  | setTileSize (tile : BitVec 3) (b : TileBounds)
  /-- LOAD_BLOCK, opcode 0x33 (R154, R185). -/
  | loadBlock (tile : BitVec 3) (sl tl sh dxt : BitVec 12)
  /-- LOAD_TILE, opcode 0x34 (R153, R184). -/
  | loadTile (tile : BitVec 3) (b : TileBounds)
  /-- SET_TILE, opcode 0x35 (R151, R181). -/
  | setTile (tile : BitVec 3) (d : TileShape)
  /-- FILL_RECTANGLE, opcode 0x36 (R155, R187): (xh, yh) is the upper-left corner, (xl, yl) the lower-right. -/
  | fillRectangle (xl yl xh yh : BitVec 12)
  /-- SET_FILL_COLOR, opcode 0x37 (R156, R189). -/
  | setFillColor (value : Word)
  /-- SET_TEXTURE_IMAGE, opcode 0x3D (R157, R192); `width` is the texel width, the command field plus one (R142). -/
  | setTextureImage (format : BitVec 3) (size : BitVec 2) (width : BitVec 11) (address : BitVec 24)
deriving DecidableEq, Repr

/-! ### The other host entries (R468) -/

/-- Four 8-bit lanes: the constant color registers (R41). -/
structure Rgba8 where
  r : BitVec 8
  g : BitVec 8
  b : BitVec 8
  a : BitVec 8
deriving DecidableEq, Repr, Inhabited

/-- Three 8-bit components: `key_center` and `key_scale` (R44). -/
structure Rgb8 where
  r : BitVec 8
  g : BitVec 8
  b : BitVec 8
deriving DecidableEq, Repr, Inhabited

/-- Three 12-bit components: `key_width` (R44). -/
structure Rgb12 where
  r : BitVec 12
  g : BitVec 12
  b : BitVec 12
deriving DecidableEq, Repr, Inhabited

/-- The operand names of the combiner (R380). -/
inductive Operand where
  | combined | texel0 | texel1 | prim | shade | env | one | noise | zero
  | keyCenter | k4 | keyScale
  | combinedAlpha | texel0Alpha | texel1Alpha | primAlpha | shadeAlpha | envAlpha
  | lodFrac | primLodFrac | k5
deriving DecidableEq, Repr

/-- The eight slots of one cycle's selector set (R40). -/
inductive Slot where
  | rgbA | rgbB | rgbC | rgbD | alphaA | alphaB | alphaC | alphaD
deriving DecidableEq, Repr

/-- One cycle's selector set: an operand per slot (R40). -/
structure CycleSel where
  rgbA : Operand
  rgbB : Operand
  rgbC : Operand
  rgbD : Operand
  alphaA : Operand
  alphaB : Operand
  alphaC : Operand
  alphaD : Operand
deriving DecidableEq, Repr

/-- The combiner selection `cc`: the selector sets of cycle 0 and cycle 1 (R40). -/
structure CombinerSel where
  cycle0 : CycleSel
  cycle1 : CycleSel
deriving DecidableEq, Repr

/-- The clip rectangle, 12-bit 10.2 values (R47, R243). -/
structure Clip where
  xh : BitVec 12
  yh : BitVec 12
  xl : BitVec 12
  yl : BitVec 12
deriving DecidableEq, Repr

/-- The configuration writes of the host (R470): one register, or one slot or all slots of `cc`. In `ccSlot`, `cycle1`
says which selector set. -/
inductive CfgWrite where
  | ccSlot (cycle1 : Bool) (slot : Slot) (op : Operand)
  | ccAll (cc : CombinerSel)
  | primColor (v : Rgba8)
  | envColor (v : Rgba8)
  | fogColor (v : Rgba8)
  | blendColor (v : Rgba8)
  | primLodFrac (v : BitVec 8)
  | minLevel (v : BitVec 5)
  | keyCenter (v : Rgb8)
  | keyScale (v : Rgb8)
  | keyWidth (v : Rgb12)
  | clip (v : Clip)
deriving DecidableEq, Repr

/-- A value for each of the eight interpolated attributes (R230): s15.16, and a 32-bit depth. -/
structure Attrs where
  r : Word
  g : Word
  b : Word
  a : Word
  s : Word
  t : Word
  w : Word
  z : Word
deriving DecidableEq, Repr, Inhabited

/-- The kind of a primitive (R230). -/
inductive PrimKind where
  | triangle
  | rectangle
deriving DecidableEq, Repr

/-- The operand record of a primitive (R230): y values s11.2, x values and slopes s15.16, attribute values and
increments s15.16. -/
structure Prim where
  kind : PrimKind
  /-- The major-edge side. -/
  lft : Bool
  /-- The base tile, `prim_tile`. -/
  tile : BitVec 3
  /-- The maximum LOD level, `max_level`. -/
  level : BitVec 3
  shadeEn : Bool
  texEn : Bool
  zEn : Bool
  yh : BitVec 14
  ym : BitVec 14
  yl : BitVec 14
  xh : Word
  dxhdy : Word
  xm : Word
  dxmdy : Word
  xl : Word
  dxldy : Word
  /-- The attribute values `E`. -/
  val : Attrs
  /-- The per-x increments `dEdx`. -/
  dx : Attrs
  /-- The along-edge increments `dEde`. -/
  de : Attrs
  /-- The per-y increments `dEdy`. -/
  dy : Attrs
deriving DecidableEq, Repr

/-- The entries by which the host drives the block, each one step (R468). -/
inductive HostEntry where
  /-- `Exec(w0, w1)`: execute one command of the command surface. -/
  | exec (w0 w1 : Word)
  /-- `INIT`, the init entry (R480). -/
  | init
  /-- `CFG register=value`, a configuration write (R470). -/
  | cfg (c : CfgWrite)
  /-- `PRIM record`: draw a primitive from an operand record (R188). -/
  | prim (p : Prim)
  /-- `ReadCrashed` (R469). -/
  | readCrashed
deriving DecidableEq, Repr

end Sys2Proof
end

