-- ==== Sys2Proof/WellFormed.lean ====
section
/-! DEFINITION. What the types of `Syntax` do not already enforce. Every operand has the width of its field (30_encoding.md
R150 to R160) by its type; one thing remains: a texture image width lies in 1..1024 (10_state.md R47). What a combiner
slot accepts (R380) is not a command's matter: it stands in Machine/Operands.lean. -/

namespace Sys2Proof

/-- R47: `ti_width` is 1..1024, the command field plus one (R157). -/
def widthOk (width : BitVec 11) : Bool :=
  decide (1 ≤ width.toNat) && decide (width.toNat ≤ 1024)

/-- A command whose operands some encoding gives. Only the texture image width is not settled by its type. -/
def Instr.wellFormed : Instr → Bool
  | .setTextureImage _ _ width _ => widthOk width
  | .nop | .syncLoad | .syncPipe | .syncTile | .syncFull => true
  | .setConvert _ | .setPrimDepth _ _ | .setOtherModes _ => true
  | .loadTlut _ _ | .setTileSize _ _ | .loadBlock _ _ _ _ _ | .loadTile _ _ => true
  | .setTile _ _ | .fillRectangle _ _ _ _ | .setFillColor _ => true

end Sys2Proof
end

