-- ==== Sys2Proof/Decode.lean ====
section
/-! DEFINITION. The command decoder of 30_encoding.md (R140 to R160), total on any words, rejecting by name, and the encoder
written from the same layout rules. -/

namespace Sys2Proof

/-- Why words are not a command of the block. -/
inductive DecodeError where
  /-- The opcode is outside the table of R144 (R145). -/
  | unknownOpcode (op : BitVec 6)
  /-- Fewer than the two words every command has (R141). -/
  | truncated
deriving DecidableEq, Repr

/-! ### Layouts, read -/

/-- The opcode, `cmd[61:56]` (R140). -/
def opcodeOf (cmd : Dword) : BitVec 6 := cmd.extractLsb' 56 6

/-- R153, R152: sl, tl, sh, th. -/
def boundsOf (cmd : Dword) : TileBounds where
  sl := cmd.extractLsb' 44 12
  tl := cmd.extractLsb' 32 12
  sh := cmd.extractLsb' 12 12
  th := cmd.extractLsb' 0 12

/-- The tile index, `cmd[26:24]` (R151 to R154). -/
def tileOf (cmd : Dword) : BitVec 3 := cmd.extractLsb' 24 3

/-- R159: K0 to K5. -/
def convertOf (cmd : Dword) : ConvertConsts where
  k0 := cmd.extractLsb' 45 9
  k1 := cmd.extractLsb' 36 9
  k2 := cmd.extractLsb' 27 9
  k3 := cmd.extractLsb' 18 9
  k4 := cmd.extractLsb' 9 9
  k5 := cmd.extractLsb' 0 9

/-- R150: the fields of SET_OTHER_MODES. -/
def modesOf (cmd : Dword) : OtherModes where
  atomicPrim := cmd.getLsbD 55
  cycleType := cmd.extractLsb' 52 2
  perspTexEn := cmd.getLsbD 51
  detailTexEn := cmd.getLsbD 50
  sharpenTexEn := cmd.getLsbD 49
  texLodEn := cmd.getLsbD 48
  enTlut := cmd.getLsbD 47
  tlutType := cmd.getLsbD 46
  sampleType := cmd.getLsbD 45
  midTexel := cmd.getLsbD 44
  biLerp0 := cmd.getLsbD 43
  biLerp1 := cmd.getLsbD 42
  convertOne := cmd.getLsbD 41
  keyEn := cmd.getLsbD 40
  rgbDitherSel := cmd.extractLsb' 38 2
  alphaDitherSel := cmd.extractLsb' 36 2
  bM1a0 := cmd.extractLsb' 30 2
  bM1a1 := cmd.extractLsb' 28 2
  bM1b0 := cmd.extractLsb' 26 2
  bM1b1 := cmd.extractLsb' 24 2
  bM2a0 := cmd.extractLsb' 22 2
  bM2a1 := cmd.extractLsb' 20 2
  bM2b0 := cmd.extractLsb' 18 2
  bM2b1 := cmd.extractLsb' 16 2
  forceBlend := cmd.getLsbD 14
  alphaCvgSelect := cmd.getLsbD 13
  cvgTimesAlpha := cmd.getLsbD 12
  zMode := cmd.extractLsb' 10 2
  cvgDest := cmd.extractLsb' 8 2
  colorOnCvg := cmd.getLsbD 7
  imageReadEn := cmd.getLsbD 6
  zUpdateEn := cmd.getLsbD 5
  zCompareEn := cmd.getLsbD 4
  antialiasEn := cmd.getLsbD 3
  zSourceSel := cmd.getLsbD 2
  ditherAlphaEn := cmd.getLsbD 1
  alphaCompareEn := cmd.getLsbD 0

/-- R151: the fields of SET_TILE but the tile index. -/
def shapeOf (cmd : Dword) : TileShape where
  format := cmd.extractLsb' 53 3
  size := cmd.extractLsb' 51 2
  line := cmd.extractLsb' 41 9
  tmem := cmd.extractLsb' 32 9
  palette := cmd.extractLsb' 20 4
  ct := cmd.getLsbD 19
  mt := cmd.getLsbD 18
  maskT := cmd.extractLsb' 14 4
  shiftT := cmd.extractLsb' 10 4
  cs := cmd.getLsbD 9
  ms := cmd.getLsbD 8
  maskS := cmd.extractLsb' 4 4
  shiftS := cmd.extractLsb' 0 4

/-- R157, R142: `ti_width = cmd[41:32] + 1`. -/
def widthOf (cmd : Dword) : BitVec 11 := (cmd.extractLsb' 32 10).zeroExtend 11 + 1

/-! ### The decoder -/

/-- The command a 64-bit command word is (R140, R144). Bits of no field are ignored (R143); an opcode outside the table
is refused by name (R145). -/
def decodeCmd (cmd : Dword) : Except DecodeError Instr :=
  let op := opcodeOf cmd
  if op = 0x00 then .ok .nop
  else if op = 0x26 then .ok .syncLoad
  else if op = 0x27 then .ok .syncPipe
  else if op = 0x28 then .ok .syncTile
  else if op = 0x29 then .ok .syncFull
  else if op = 0x2C then .ok (.setConvert (convertOf cmd))
  else if op = 0x2E then .ok (.setPrimDepth (cmd.extractLsb' 16 15) (cmd.extractLsb' 0 16))
  else if op = 0x2F then .ok (.setOtherModes (modesOf cmd))
  else if op = 0x30 then .ok (.loadTlut (tileOf cmd) (boundsOf cmd))
  else if op = 0x32 then .ok (.setTileSize (tileOf cmd) (boundsOf cmd))
  else if op = 0x33 then
    .ok (.loadBlock (tileOf cmd) (cmd.extractLsb' 44 12) (cmd.extractLsb' 32 12) (cmd.extractLsb' 12 12)
      (cmd.extractLsb' 0 12))
  else if op = 0x34 then .ok (.loadTile (tileOf cmd) (boundsOf cmd))
  else if op = 0x35 then .ok (.setTile (tileOf cmd) (shapeOf cmd))
  else if op = 0x36 then
    .ok (.fillRectangle (cmd.extractLsb' 44 12) (cmd.extractLsb' 32 12) (cmd.extractLsb' 12 12)
      (cmd.extractLsb' 0 12))
  else if op = 0x37 then .ok (.setFillColor (cmd.extractLsb' 0 32))
  else if op = 0x3D then
    .ok (.setTextureImage (cmd.extractLsb' 53 3) (cmd.extractLsb' 51 2) (widthOf cmd) (cmd.extractLsb' 0 24))
  else .error (.unknownOpcode op)

/-- The command of two 32-bit words, `cmd = w0 then w1` (R140). -/
def decode (w0 w1 : Word) : Except DecodeError Instr := decodeCmd (w0 ++ w1)

/-- The first command of a list of words, with the words after it: every command has two words (R141). -/
def decodeWords : List Word → Except DecodeError (Instr × List Word)
  | w0 :: w1 :: rest => (decode w0 w1).map (fun i => (i, rest))
  | _ => .error .truncated

/-! ### The encoder -/

/-- The opcode of a command (R144). -/
def Instr.opcode : Instr → BitVec 6
  | .nop => 0x00
  | .syncLoad => 0x26
  | .syncPipe => 0x27
  | .syncTile => 0x28
  | .syncFull => 0x29
  | .setConvert _ => 0x2C
  | .setPrimDepth _ _ => 0x2E
  | .setOtherModes _ => 0x2F
  | .loadTlut _ _ => 0x30
  | .setTileSize _ _ => 0x32
  | .loadBlock _ _ _ _ _ => 0x33
  | .loadTile _ _ => 0x34
  | .setTile _ _ => 0x35
  | .fillRectangle _ _ _ _ => 0x36
  | .setFillColor _ => 0x37
  | .setTextureImage _ _ _ _ => 0x3D

/-- A field of a command word: `x` with its bit 0 at bit `lo`, every other bit 0. -/
def put {n : Nat} (lo : Nat) (x : BitVec n) : Dword := x.setWidth 64 <<< lo

/-- A one-bit field of a command word. -/
def putFlag (lo : Nat) (b : Bool) : Dword := put lo (BitVec.ofBool b)

/-- The fields of LOAD_TILE, LOAD_TLUT, SET_TILE_SIZE and LOAD_BLOCK (R152 to R154). -/
def tileBody (tile : BitVec 3) (sl tl sh lo : BitVec 12) : Dword :=
  put 44 sl ||| put 32 tl ||| put 24 tile ||| put 12 sh ||| put 0 lo

/-- The fields of SET_OTHER_MODES in its first word (R150). -/
def modesHigh (m : OtherModes) : Dword :=
  putFlag 55 m.atomicPrim ||| put 52 m.cycleType ||| putFlag 51 m.perspTexEn ||| putFlag 50 m.detailTexEn |||
  putFlag 49 m.sharpenTexEn ||| putFlag 48 m.texLodEn ||| putFlag 47 m.enTlut ||| putFlag 46 m.tlutType |||
  putFlag 45 m.sampleType ||| putFlag 44 m.midTexel ||| putFlag 43 m.biLerp0 ||| putFlag 42 m.biLerp1 |||
  putFlag 41 m.convertOne ||| putFlag 40 m.keyEn ||| put 38 m.rgbDitherSel ||| put 36 m.alphaDitherSel

/-- The fields of SET_OTHER_MODES in its second word (R150). -/
def modesLow (m : OtherModes) : Dword :=
  put 30 m.bM1a0 ||| put 28 m.bM1a1 ||| put 26 m.bM1b0 ||| put 24 m.bM1b1 ||| put 22 m.bM2a0 ||| put 20 m.bM2a1 |||
  put 18 m.bM2b0 ||| put 16 m.bM2b1 ||| putFlag 14 m.forceBlend ||| putFlag 13 m.alphaCvgSelect |||
  putFlag 12 m.cvgTimesAlpha ||| put 10 m.zMode ||| put 8 m.cvgDest ||| putFlag 7 m.colorOnCvg |||
  putFlag 6 m.imageReadEn ||| putFlag 5 m.zUpdateEn ||| putFlag 4 m.zCompareEn ||| putFlag 3 m.antialiasEn |||
  putFlag 2 m.zSourceSel ||| putFlag 1 m.ditherAlphaEn ||| putFlag 0 m.alphaCompareEn

/-- The fields of SET_TILE (R151). -/
def shapeBody (tile : BitVec 3) (d : TileShape) : Dword :=
  put 53 d.format ||| put 51 d.size ||| put 41 d.line ||| put 32 d.tmem ||| put 24 tile ||| put 20 d.palette |||
  putFlag 19 d.ct ||| putFlag 18 d.mt ||| put 14 d.maskT ||| put 10 d.shiftT ||| putFlag 9 d.cs ||| putFlag 8 d.ms |||
  put 4 d.maskS ||| put 0 d.shiftS

/-- The operand fields of a command at their places, 0 in every bit of no field (R150 to R160). -/
def Instr.body : Instr → Dword
  | .nop | .syncLoad | .syncPipe | .syncTile | .syncFull => 0
  | .setConvert k => put 45 k.k0 ||| put 36 k.k1 ||| put 27 k.k2 ||| put 18 k.k3 ||| put 9 k.k4 ||| put 0 k.k5
  | .setPrimDepth z dz => put 16 z ||| put 0 dz
  | .setOtherModes m => modesHigh m ||| modesLow m
  | .loadTlut t b | .setTileSize t b | .loadTile t b => tileBody t b.sl b.tl b.sh b.th
  | .loadBlock t sl tl sh dxt => tileBody t sl tl sh dxt
  | .setTile t d => shapeBody t d
  | .fillRectangle xl yl xh yh => put 44 xl ||| put 32 yl ||| put 12 xh ||| put 0 yh
  | .setFillColor v => put 0 v
  | .setTextureImage f z w a => put 53 f ||| put 51 z ||| put 32 ((w - 1).setWidth 10) ||| put 0 a

/-- The 64-bit command word of a command, its ignored bits 0. -/
def encodeCmd (i : Instr) : Dword := put 56 i.opcode ||| i.body

/-- The two words of a command, `w0` then `w1` (R140). -/
def encode (i : Instr) : Word × Word := ((encodeCmd i).extractLsb' 32 32, (encodeCmd i).extractLsb' 0 32)

/-! ### The opcode table's numbering -/

/-- The instruction the decoder reads from a word numbered as spec/opcode_table.json numbers it: its rows are 64-bit
command words (`cmd64`), so `w` is `cmd`, bit 0 being bit 0 of `w1` (R140); bits from `nbits` up are 0. -/
def tableWords (nbits w : Nat) : Word × Word :=
  let cmd : Dword := BitVec.ofNat 64 (w % 2 ^ nbits)
  (cmd.extractLsb' 32 32, cmd.extractLsb' 0 32)

/-- What the decoder answers for a table word; `none` where it refuses. -/
def decodeTableWord (nbits w : Nat) : Option Instr :=
  match decode (tableWords nbits w).1 (tableWords nbits w).2 with
  | .ok i => some i
  | .error _ => none

end Sys2Proof
end

