-- ==== Sys2Proof/Machine/Types.lean ====
section
/-! DEFINITION. The records the machine is made of: tile descriptors, Color registers, spans, the port values and the output
events (10_state.md R50, R62, R66; 20_memory.md R110 to R117; 60_exceptions.md R468). -/

namespace Sys2Proof.Machine

/-- A tile descriptor (R50): the fields SET_TILE writes and the coordinate bounds. -/
structure Tile where
  shape : TileShape
  bounds : TileBounds
deriving DecidableEq, Repr

/-- A Color register (R62): four 32-bit two's-complement lanes. -/
structure Color where
  r : Word
  g : Word
  b : Word
  a : Word
deriving DecidableEq, Repr, Inhabited

/-- The three colour lanes of a Color register. -/
inductive Lane where
  | r | g | b
deriving DecidableEq, Repr

/-- The ten Color registers (R62). -/
structure ColorRegs where
  combined : Color
  texel0 : Color
  texel1 : Color
  nexttexel : Color
  shade : Color
  pixel : Color
  invPixel : Color
  blendedPixel : Color
  memory : Color
  preMemory : Color
deriving DecidableEq, Repr

/-- The texture image registers (R47). -/
structure TexImage where
  format : BitVec 3
  size : BitVec 2
  /-- 1 to 1024. -/
  width : BitVec 11
  address : BitVec 24
deriving DecidableEq, Repr

/-- The contents of a span entry (R66): the pixel bounds, the bounds of the four sub-scanlines and the start values of the
attributes. -/
structure SpanBody where
  lx : Int
  rx : Int
  majorx : Vector Int 4
  minorx : Vector Int 4
  start : Attrs
deriving DecidableEq, Repr

/-- A span entry (R66): its flag and its contents. -/
structure SpanEntry where
  valid : Bool
  body : SpanBody
deriving DecidableEq, Repr

/-- The span buffer (R66): `span[0..SPAN_COUNT-1]` as the entries that differ from `SpanEntry.default`, by rising scanline
number, so that equal buffers are equal data; and the per-primitive increments. -/
structure SpanBuffer where
  entries : List (Nat × SpanEntry)
  delta : Attrs
deriving DecidableEq, Repr

/-- Texture coordinates of one point, 16 bits each (R246). -/
structure TexPoint where
  ss : Half
  st : Half
  sw : Half
deriving DecidableEq, Repr, Inhabited

/-- The one-ahead points of LOD (R282): one pixel along x, one scanline along y. -/
structure Ahead where
  x : TexPoint
  y : TexPoint
deriving DecidableEq, Repr, Inhabited

/-- The answer of `FbRead` (R113). -/
structure FbPixel where
  mr : BitVec 8
  mg : BitVec 8
  mb : BitVec 8
  memcvg : BitVec 3
deriving DecidableEq, Repr, Inhabited

/-- The answer of `ZRead` (R114). -/
structure ZPixel where
  mz : BitVec 18
  mdz : BitVec 16
deriving DecidableEq, Repr, Inhabited

/-- The causes of a configuration fault (R464): there is one. -/
inductive FaultCause where
  /-- A load executed while `ti_size = 0` (R460). -/
  | load4Bit
deriving DecidableEq, Repr

/-- The output events of the block (R115, R468), pixel coordinates being 10 bits (R120). -/
inductive Event where
  | memRead (addr : BitVec 24)
  | fbRead (x y : BitVec 10)
  | fbWrite (x y : BitVec 10) (r g b : BitVec 8) (cvg : BitVec 3)
  | fbFill (x y : BitVec 10) (color : Word)
  | zRead (x y : BitVec 10)
  | zWrite (x y : BitVec 10) (z : BitVec 18) (dz : BitVec 16)
  | rand
  | trace (addr : BitVec 24) (len : Nat)
  | fullSync (cmdIndex : Nat)
  | fault (cause : FaultCause) (cmdIndex : Nat)
deriving DecidableEq, Repr

/-- The registers whose reset value no rule gives: those the spec marks `unset` until they are written (R48). -/
inductive Register where
  | cfg
  | cc (cycle1 : Bool) (slot : Slot)
  | primColor | envColor | fogColor | blendColor
  | fillColor
  | primLodFrac | minLevel
  | keyCenter | keyScale | keyWidth
  | primDepth
  | convert
  | texImage
  | clip
deriving DecidableEq, Repr

end Sys2Proof.Machine
end

