-- ==== Sys2Proof/Config.lean ====
section
/-! DEFINITION. What the spec leaves to the implementation or to the host (00_scope.md R10, 92_eei_decisions.md): the OPEN
named parameters and the host's answers, as free values. A `cfg` argument comes without `atomic_prim` (R39). An `opaque` constant has no body, so nothing proved here rests on
what it is. The parameters with a spec default are ordinary definitions of Machine/ (log 24). -/

namespace Sys2Proof.Config

open Sys2Proof.Machine

/-- `SPAN_COUNT`, default 1024 (R66, R251). -/
def spanCount : Nat := 1024

/-! ### Host answers that no script gives (R110, R113, R114, R116; log 5) -/

/-- The `n`-th free answer, if it is one to `MemRead(addr, 4)` (R110). -/
opaque memAnswer : (n : Nat) → (addr : BitVec 24) → Word

/-- The `n`-th free answer, if it is one to `FbRead(x, y)` (R113). -/
opaque fbAnswer : (n : Nat) → (x y : BitVec 10) → FbPixel

/-- The `n`-th free answer, if it is one to `ZRead(x, y)` (R114). -/
opaque zAnswer : (n : Nat) → (x y : BitVec 10) → ZPixel

/-- The `n`-th free answer, if it is one to `Rand()` (R116). -/
opaque randAnswer : (n : Nat) → Int

/-! ### Reciprocal table seeds (R263; log 8) -/

/-- `NormPointTable[0..63]`, OPEN. -/
opaque normPointTable : Fin 64 → Int

/-- `NormSlopeTable[0..63]`, OPEN. -/
opaque normSlopeTable : Fin 64 → Int

/-! ### `EdgeWalk` (R233), OPEN beyond the rectangles of R240 to R242 (log 9) -/

/-- `majorx[k]` and `minorx[k]` of scanline `y`, in pixels (R234). -/
opaque edgeBounds : (prim : Prim) → (clip : Clip) → (cfg : OtherModes) → (y k : Nat) → Int × Int

/-- The start values of the attributes on scanline `y` (R235). -/
opaque edgeStart : (prim : Prim) → (clip : Clip) → (cfg : OtherModes) → (y : Nat) → Attrs

/-- A key by which the pixels of scanline `y` are ordered: the pixel order of R245 is the order of rising keys. -/
opaque edgeOrder : (prim : Prim) → (clip : Clip) → (cfg : OtherModes) → (y : Nat) → (x : Int) → Nat

/-- The coverage mask of pixel (x, y) from the bounds of its span (R236). -/
opaque edgeMask : (prim : Prim) → (clip : Clip) → (cfg : OtherModes) → (span : SpanBody) → (y : Nat) → (x : Int) →
  BitVec 8

/-- The rounding of the colour attributes of pixel (x, y) into shade lanes, before the clamp (R235, R246). -/
opaque edgeShade : (prim : Prim) → (clip : Clip) → (cfg : OtherModes) → (y : Nat) → (x : Int) → (value : Attrs) → Color

/-- The rounding of the depth attribute of pixel (x, y) into the 18-bit depth (R235, R444). -/
opaque edgeDepth : (prim : Prim) → (clip : Clip) → (cfg : OtherModes) → (y : Nat) → (x : Int) → (value : Attrs) →
  BitVec 18

/-- The pixel's `dz` (R444). -/
opaque edgeDz : (prim : Prim) → (clip : Clip) → (cfg : OtherModes) → (y : Nat) → (x : Int) → BitVec 16

/-- The one-ahead coordinates of pixel (x, y) (R282). -/
opaque edgeAhead : (prim : Prim) → (clip : Clip) → (cfg : OtherModes) → (y : Nat) → (x : Int) → (value : Attrs) → Ahead

/-- `E + n * dE` where the exact sum does not fit the attribute's 32-bit format: R235 states no result there (log 38). -/
opaque attributeOutside : (e d : Word) → (n : Int) → Word

/-! ### Stage parameters -/

/-- `FetchOther` (R330), OPEN: the fetch of a format key without a decoder. `texel s t` is the raw texel of the tile at
(s, t), read through the address of R314: the only TMEM reads the constraint of R330 allows (log 15). -/
opaque fetchOther : (key : BitVec 5) → (enTlut : Bool) → (tile : Tile) → (s t : Nat) →
  (texel : Nat → Nat → Nat) → Color

/-- `LoadBankSort` (R346), OPEN: the contiguous runs of source bytes (first byte address, length) that a LOAD_TLUT with
`ti_size` 1 or 3 reads (log 16). -/
opaque loadBankSortRuns : (image : TexImage) → (tile : Tile) → List (BitVec 24 × Nat)

/-- `LoadBankSort` (R346), OPEN: the TMEM bytes it writes, from the bytes read by each run (log 16). -/
opaque loadBankSortWrites : (image : TexImage) → (tile : Tile) → (read : List (List Byte)) → List (BitVec 12 × Byte)

/-- `ChromaKey` (R389), OPEN: with `key_en = 1`, the pixel it leaves and whether it lets the pixel be written
(log 17). -/
opaque chromaKey : (cfg : OtherModes) → (center scale : Rgb8) → (width : Rgb12) → (combined pixel : Color) →
  Rgba8 × Bool

/-- `CopyModePixel` (R250), OPEN: how many random values its alpha-compare test draws for a pixel (log 18). -/
opaque copyModeDraws : (cfg : OtherModes) → (blendColor : Rgba8) → (x y : BitVec 10) → (texel0 : Color) → Nat

/-- `CopyModePixel` (R250), OPEN: whether the pixel is written, and with which coverage value (log 18). -/
opaque copyModePixel : (cfg : OtherModes) → (blendColor : Rgba8) → (x y : BitVec 10) → (texel0 : Color) →
  (draws : List Int) → Option (BitVec 3)

/-- `lod_frac` when `dolod = 0`: not defined, and no rule reads it (R283; log 27). -/
opaque lodFracUndefined : Int

end Sys2Proof.Config
end

