-- ==== Sys2Proof/Machine/Bits.lean ====
section
/-! DEFINITION. The pseudocode primitives of 00_scope.md R11 on mathematical integers, and the byte order of
20_memory.md R102 and R111. -/

namespace Sys2Proof.Machine

/-- `zext_n(v)`: the unsigned integer of the low `n` bits of v's two's-complement representation (R11). -/
def zext (n : Nat) (v : Int) : Int := v % ((2 ^ n : Nat) : Int)

/-- `sext_n(v)`, also written `SIGN(v, n)` (R11). -/
def sext (n : Nat) (v : Int) : Int :=
  let u := zext n v
  if ((2 ^ (n - 1) : Nat) : Int) ≤ u then u - ((2 ^ n : Nat) : Int) else u

/-- `v >> n`: the arithmetic (floor) right shift (R11). -/
def asr (v : Int) (n : Nat) : Int := v / ((2 ^ n : Nat) : Int)

/-- `v[i]`: one bit of v's two's-complement representation (R11). -/
def bit (i : Nat) (v : Int) : Bool := decide (asr v i % 2 = 1)

/-- `v[lo + n - 1 : lo]` (R11). -/
def bits (lo n : Nat) (v : Int) : Int := zext n (asr v lo)

/-- `v & mask` for a mask of at most `n` bits: only v's low `n` bits matter (R11). -/
def maskWith (n : Nat) (v : Int) (mask : Nat) : Nat := (zext n v).toNat &&& mask

/-- `~v` (R11: -v - 1). -/
def compl (v : Int) : Int := -v - 1

/-- 1 for true, 0 for false. -/
def boolInt (b : Bool) : Int := if b then 1 else 0

/-- The four bytes of an accessor word, the lowest address in the highest bits (R111). -/
def bytesOfWord (w : Word) : List Byte :=
  [w.extractLsb' 24 8, w.extractLsb' 16 8, w.extractLsb' 8 8, w.extractLsb' 0 8]

/-- A big-endian value: the first byte is the most significant (R102, R111). -/
def beValue (bs : List Byte) : Nat := bs.foldl (fun acc b => acc * 256 + b.toNat) 0

/-- Two bytes, big-endian (R102). -/
def halfOf (hi lo : Byte) : Half := hi ++ lo

end Sys2Proof.Machine
end

