-- ==== Sys2Proof/Machine/State.lean ====
section
/-! DEFINITION. The state of the block (10_state.md R30): configuration registers, TMEM, Color registers, span buffer and
flags; the event history and the answers of the ports; the entries the host has delivered. And the state after reset
(70_reset_and_hazards.md R481, R485). -/

namespace Sys2Proof.Machine

/-- TMEM's contents as (address, byte) cells in one canonical form: addresses strictly rising and below 4096, no byte 0,
which is what an unlisted address reads as (R100: every byte resets to 0). -/
abbrev Memory := List Host.Cell

/-- The byte an unlisted TMEM address holds (R100, R481). -/
def Memory.default : Byte := 0

/-- The addresses rise strictly from `lo` on, stay below 4096, and no listed byte is the default. -/
def Memory.wfFrom : Nat → Memory → Bool
  | _, [] => true
  | lo, (a, v) :: rest => decide (lo ≤ a) && decide (a < 4096) && decide (v ≠ Memory.default) && wfFrom (a + 1) rest

/-- The canonical form of TMEM. -/
def Memory.wf (m : Memory) : Bool := Memory.wfFrom 0 m

/-- The configuration registers: PipelineConfig, the combiner selection, the constant registers and the tiles
(R31, R40 to R47, R50). Written by configuration commands and `CFG` only; constant during a primitive (R252). -/
structure Settings where
  cfg : OtherModes
  cc : CombinerSel
  primColor : Rgba8
  envColor : Rgba8
  fogColor : Rgba8
  blendColor : Rgba8
  fillColor : Word
  primLodFrac : BitVec 8
  minLevel : BitVec 5
  keyCenter : Rgb8
  keyScale : Rgb8
  keyWidth : Rgb12
  primZ : BitVec 15
  primDz : BitVec 16
  convert : ConvertConsts
  texImage : TexImage
  clip : Clip
  tiles : Vector Tile 8
deriving DecidableEq, Repr

/-- The ports (R110 to R117): the event history in issue order (R115) and, the MODEL's own, the answers the host has
said it will give to its coming reads, oldest first. Where a script has run out, the answer is a free value drawn by
`draws` (log 5). -/
structure Ports where
  events : List Event
  memAnswers : List Word
  fbAnswers : List FbPixel
  zAnswers : List ZPixel
  randAnswers : List Int
  draws : Nat
deriving DecidableEq, Repr

/-- The whole state. -/
structure State where
  /-- The configuration registers. -/
  settings : Settings
  /-- TMEM (R100). -/
  tmem : Memory
  /-- The ten Color registers (R62). -/
  regs : ColorRegs
  /-- The span buffer (R66). -/
  spans : SpanBuffer
  /-- The fault flag (R60). -/
  crashed : Bool
  /-- The spec's model mark (R61): a state with it has no further step (log 3). -/
  refused : Bool
  /-- `cmd_index` (R75). -/
  cmdIndex : Nat
  /-- Event history and host answers. -/
  ports : Ports
  /-- The MODEL's own: host entries delivered and not yet executed, oldest first (R471; log 4). -/
  inbox : List HostEntry
  /-- The MODEL's own: what the last `ReadCrashed` returned (R469; log 23). -/
  reply : Option Bool
  /-- The MODEL's own: the registers that still carry the spec's mark `unset` (R48; log 2). -/
  unset : List Register
deriving DecidableEq, Repr

/-- Why a step stops with a fault: never. The block's one hardware fault, ConfigFault, sets `crashed` and the machine
goes on (R460, R461), so it is a next state; no other fault exists (R464, R466; log 26). Raised by nobody: safe. -/
inductive Fault where
deriving DecidableEq, Repr

/-- Why a step has no meaning (R464: model refusals, not hardware behaviour). -/
inductive Refusal where
  /-- Raised by `exec` for an instruction without a meaning; no arm of this model uses it. Safe: the model stops. -/
  | notModelled (mnemonic : String)
  /-- Raised by `step` for an `Exec` whose opcode is outside the table (R145). Safe: the model stops. -/
  | unknownOpcode (op : BitVec 6)
  /-- Raised by a `CFG` write of `cc` that puts an operand in a slot that does not list it (R380, R470). Safe: the model
  stops. -/
  | badOperand (slot : Slot) (op : Operand)
  /-- Raised by `step` in a state whose mark `refused` is set (R61). Safe: the model stops. -/
  | alreadyRefused
deriving DecidableEq, Repr

/-! ### Reset -/

/-- All lanes 0 (R62, R481). -/
def Color.zero : Color := ⟨0, 0, 0, 0⟩

/-- All attributes 0. -/
def attrsZero : Attrs := ⟨0, 0, 0, 0, 0, 0, 0, 0⟩

/-- What a span entry holds until a primitive writes it, since no rule gives its value (R66): not valid, every bound and
start value 0 (DESIGN CHOICE, log 7). -/
def SpanEntry.default : SpanEntry := ⟨false, ⟨0, 0, Vector.replicate 4 0, Vector.replicate 4 0, attrsZero⟩⟩

/-- The ten Color registers as INIT leaves them (R481). -/
def ColorRegs.zero : ColorRegs :=
  ⟨.zero, .zero, .zero, .zero, .zero, .zero, .zero, .zero, .zero, .zero⟩

/-- A tile as INIT leaves it: every field 0 (R50, R481). -/
def Tile.zero : Tile :=
  ⟨⟨0, 0, 0, 0, 0, false, false, 0, 0, false, false, 0, 0⟩, ⟨0, 0, 0, 0⟩⟩

/-- DESIGN CHOICE (log 1): every field of `cfg` 0. -/
def modesZero : OtherModes :=
  ⟨false, 0, false, false, false, false, false, false, false, false, false, false, false, false, 0, 0,
    0, 0, 0, 0, 0, 0, 0, 0, false, false, false, 0, 0, false, false, false, false, false, false, false, false⟩

/-- DESIGN CHOICE (log 1): the operand `zero` in every slot. -/
def cycleSelZero : CycleSel := ⟨.zero, .zero, .zero, .zero, .zero, .zero, .zero, .zero⟩

/-- The configuration registers after reset: tiles 0 by R481; every other register, whose reset value no rule gives
(R48), at the value log 1 names (DESIGN CHOICE). -/
def Settings.reset : Settings where
  cfg := modesZero
  cc := ⟨cycleSelZero, cycleSelZero⟩
  primColor := ⟨0, 0, 0, 0⟩
  envColor := ⟨0, 0, 0, 0⟩
  fogColor := ⟨0, 0, 0, 0⟩
  blendColor := ⟨0, 0, 0, 0⟩
  fillColor := 0
  primLodFrac := 0
  minLevel := 0
  keyCenter := ⟨0, 0, 0⟩
  keyScale := ⟨0, 0, 0⟩
  keyWidth := ⟨0, 0, 0⟩
  primZ := 0
  primDz := 0
  convert := ⟨0, 0, 0, 0, 0, 0⟩
  texImage := ⟨0, 0, 1, 0⟩
  clip := ⟨0, 0, 0, 0⟩
  tiles := Vector.replicate 8 .zero

/-- The slots of one selector set. -/
def allSlots : List Slot := [.rgbA, .rgbB, .rgbC, .rgbD, .alphaA, .alphaB, .alphaC, .alphaD]

/-- Every register whose reset value no rule gives (R48). -/
def allRegisters : List Register :=
  [.cfg] ++ allSlots.map (.cc false) ++ allSlots.map (.cc true) ++
  [.primColor, .envColor, .fogColor, .blendColor, .fillColor, .primLodFrac, .minLevel, .keyCenter, .keyScale, .keyWidth,
    .primDepth, .convert, .texImage, .clip]

/-- The machine right after power-on and INIT (R481, R483, R485): tiles, Color registers and TMEM 0, `crashed` 0,
`cmd_index` 0; every span entry at its default (log 7); nothing in the history and the inbox. -/
def State.reset : State where
  settings := Settings.reset
  tmem := []
  regs := .zero
  spans := ⟨[], attrsZero⟩
  crashed := false
  refused := false
  cmdIndex := 0
  ports := ⟨[], [], [], [], [], 0⟩
  inbox := []
  reply := none
  unset := allRegisters

end Sys2Proof.Machine
end

