-- ==== Sys2Proof/Machine/Ops.lean ====
section
/-! DEFINITION. The named operations over TMEM, the ports and the configuration registers, and the block's one exception:
raising a configuration fault (60_exceptions.md R460). There is no return from it: a fault transfers control nowhere
(R466). -/

namespace Sys2Proof.Machine

/-! ### TMEM (20_memory.md R100 to R103) -/

/-- The byte a memory holds at `a`; an unlisted address reads as the default (R100). -/
def Memory.read : Memory → Nat → Byte
  | [], _ => Memory.default
  | (b, v) :: rest, a => if b = a then v else Memory.read rest a

/-- Store a byte at `a`, keeping the canonical form: writing the default removes the entry. -/
def Memory.write : Memory → Nat → Byte → Memory
  | [], a, v => if v = Memory.default then [] else [(a, v)]
  | (b, w) :: rest, a, v =>
    if a < b then (if v = Memory.default then (b, w) :: rest else (a, v) :: (b, w) :: rest)
    else if a = b then (if v = Memory.default then rest else (a, v) :: rest)
    else (b, w) :: Memory.write rest a v

/-- `TMEM8[a]`, the address reduced modulo 4096 (R101). -/
def tmem8 (m : Memory) (a : Nat) : Byte := m.read (a % 4096)

/-- `TMEM8[a] <- v` (R101). -/
def writeTmem8 (m : Memory) (a : Nat) (v : Byte) : Memory := m.write (a % 4096) v

/-- `TMEM16[w] = TMEM8[2w] then TMEM8[2w+1]`, the word index reduced modulo 2048 (R101, R102). -/
def tmem16 (m : Memory) (w : Nat) : Half := halfOf (tmem8 m (2 * (w % 2048))) (tmem8 m (2 * (w % 2048) + 1))

/-- `TMEM16[w] <- v` (R101, R102). -/
def writeTmem16 (m : Memory) (w : Nat) (v : Half) : Memory :=
  writeTmem8 (writeTmem8 m (2 * (w % 2048)) (v.extractLsb' 8 8)) (2 * (w % 2048) + 1) (v.extractLsb' 0 8)

/-- `TMEM64[q]`, four 16-bit words, the first the most significant, the index reduced modulo 512 (R101, R102). -/
def tmem64 (m : Memory) (q : Nat) : Dword :=
  tmem16 m (4 * (q % 512)) ++ tmem16 m (4 * (q % 512) + 1) ++ tmem16 m (4 * (q % 512) + 2) ++
    tmem16 m (4 * (q % 512) + 3)

/-- `TMEM64[q] <- v` (R101, R102). -/
def writeTmem64 (m : Memory) (q : Nat) (v : Dword) : Memory :=
  let w := 4 * (q % 512)
  writeTmem16 (writeTmem16 (writeTmem16 (writeTmem16 m w (v.extractLsb' 48 16)) (w + 1) (v.extractLsb' 32 16))
    (w + 2) (v.extractLsb' 16 16)) (w + 3) (v.extractLsb' 0 16)

/-- Store a list of (byte address, byte) pairs, in order. -/
def writeBytes (m : Memory) (ws : List (BitVec 12 × Byte)) : Memory :=
  ws.foldl (fun acc p => writeTmem8 acc p.1.toNat p.2) m

/-- The copy of palette entry `e` in bank `k`: `TMEM16[0x400 + (e << 2) + k]` (R103). -/
def tlutEntry (m : Memory) (e k : Nat) : Half := tmem16 m (0x400 + 4 * e + k)

/-! ### Ports (R110 to R117) -/

/-- Append an event to the history (R115). -/
def Ports.emit (p : Ports) (e : Event) : Ports := { p with events := p.events ++ [e] }

/-- `MemRead(addr, 4)` (R110): the host's answer, the scripted one or a free value. -/
def Ports.memRead (p : Ports) (addr : BitVec 24) : Word × Ports :=
  match p.memAnswers with
  | v :: rest => (v, ({ p with memAnswers := rest } : Ports).emit (.memRead addr))
  | [] => (Config.memAnswer p.draws addr, ({ p with draws := p.draws + 1 } : Ports).emit (.memRead addr))

/-- `FbRead(x, y)` (R113). -/
def Ports.fbRead (p : Ports) (x y : BitVec 10) : FbPixel × Ports :=
  match p.fbAnswers with
  | v :: rest => (v, ({ p with fbAnswers := rest } : Ports).emit (.fbRead x y))
  | [] => (Config.fbAnswer p.draws x y, ({ p with draws := p.draws + 1 } : Ports).emit (.fbRead x y))

/-- `ZRead(x, y)` (R114). -/
def Ports.zRead (p : Ports) (x y : BitVec 10) : ZPixel × Ports :=
  match p.zAnswers with
  | v :: rest => (v, ({ p with zAnswers := rest } : Ports).emit (.zRead x y))
  | [] => (Config.zAnswer p.draws x y, ({ p with draws := p.draws + 1 } : Ports).emit (.zRead x y))

/-- `Rand()` (R116): an integer under no law. -/
def Ports.rand (p : Ports) : Int × Ports :=
  match p.randAnswers with
  | v :: rest => (v, ({ p with randAnswers := rest } : Ports).emit .rand)
  | [] => (Config.randAnswer p.draws, ({ p with draws := p.draws + 1 } : Ports).emit .rand)

/-- `n` draws, in order. -/
def Ports.rands : Nat → Ports → List Int × Ports
  | 0, p => ([], p)
  | n + 1, p =>
    let (v, p1) := p.rand
    let (vs, p2) := Ports.rands n p1
    (v :: vs, p2)

/-! ### Reading source bytes (R110 to R112, R117) -/

/-- The aligned words that hold the bytes `[addr, addr + len)`, by rising address, modulo 2^24 (R110, R111). -/
def coveringWords (addr : BitVec 24) (len : Nat) : List (BitVec 24) :=
  if len = 0 then []
  else (List.range ((addr.toNat % 4 + len + 3) / 4)).map (fun j => BitVec.ofNat 24 (4 * (addr.toNat / 4 + j)))

/-- Read words in order, each once (R112). -/
def Ports.readWords : List (BitVec 24) → Ports → List Word × Ports
  | [], p => ([], p)
  | a :: rest, p =>
    let (w, p1) := p.memRead a
    let (ws, p2) := Ports.readWords rest p1
    (w :: ws, p2)

/-- Read the bytes `[addr, addr + len)`: every aligned word that covers them, then `Trace(addr, len)`; a run of no byte
reads nothing and emits nothing (R111, R117, R345). -/
def Ports.readRun (p : Ports) (addr : BitVec 24) (len : Nat) : List Byte × Ports :=
  if len = 0 then ([], p)
  else
    let (ws, p1) := Ports.readWords (coveringWords addr len) p
    (((ws.flatMap bytesOfWord).drop (addr.toNat % 4)).take len, p1.emit (.trace addr len))

/-! ### Registers -/

/-- Tile `i` (R50). -/
def Settings.tile (g : Settings) (i : BitVec 3) : Tile := g.tiles[i.toNat]'(by have := i.isLt; omega)

/-- Replace tile `i`. -/
def Settings.setTile (g : Settings) (i : BitVec 3) (t : Tile) : Settings :=
  { g with tiles := g.tiles.set i.toNat t (by have := i.isLt; omega) }

/-- Write configuration registers: the new settings, and the mark `unset` taken off the registers written (R48). -/
def State.configure (s : State) (written : List Register) (g : Settings) : State :=
  { s with settings := g, unset := s.unset.filter (fun r => r ∉ written) }

/-- Replace tile `i` of the state. -/
def State.setTile (s : State) (i : BitVec 3) (t : Tile) : State :=
  { s with settings := s.settings.setTile i t }

/-- Write the bounds of tile `i`; its other fields and the other tiles stay (R182, R184). -/
def State.setBounds (s : State) (i : BitVec 3) (b : TileBounds) : State :=
  s.setTile i { s.settings.tile i with bounds := b }

/-- Write the thirteen fields of SET_TILE; the bounds of the tile and the other tiles stay (R181). -/
def State.setShape (s : State) (i : BitVec 3) (d : TileShape) : State :=
  s.setTile i { s.settings.tile i with shape := d }

/-- Append an output event. -/
def State.emit (s : State) (e : Event) : State := { s with ports := s.ports.emit e }

/-! ### Span buffer (R66) -/

/-- `span[y]`: the entry listed for scanline `y`, or the default one. -/
def SpanBuffer.entry (b : SpanBuffer) (y : Nat) : SpanEntry :=
  ((b.entries.find? (fun e => e.1 = y)).map Prod.snd).getD .default

/-! ### The exception (R460, R461) -/

/-- `raise ConfigFault(cause)`: `crashed <- 1` and the event `Fault(cause, cmd_index)`. The command does nothing more;
what it wrote before stays (R461). -/
def raiseConfigFault (s : State) (cause : FaultCause) : State :=
  ({ s with crashed := true } : State).emit (.fault cause s.cmdIndex)

end Sys2Proof.Machine
end

