-- ==== Sys2Proof/Machine/ConfigCommands.lean ====
section
/-! DEFINITION. The configuration commands (40_commands.md §1): SET_OTHER_MODES, SET_TILE, SET_TILE_SIZE. Derived fields
follow because they are functions of the raw ones (R38, R183). -/

namespace Sys2Proof.Machine

/-- SET_OTHER_MODES (R180): every field of `cfg` at once. -/
def execSetOtherModes (m : OtherModes) (s : State) : Host.Outcome State Fault Refusal :=
  .next (s.configure [.cfg] { s.settings with cfg := m })

/-- SET_TILE (R181): the thirteen fields other than the bounds. -/
def execSetTile (tile : BitVec 3) (d : TileShape) (s : State) : Host.Outcome State Fault Refusal :=
  .next (s.setShape tile d)

/-- SET_TILE_SIZE (R182): the bounds. -/
def execSetTileSize (tile : BitVec 3) (b : TileBounds) (s : State) : Host.Outcome State Fault Refusal :=
  .next (s.setBounds tile b)

end Sys2Proof.Machine
end

