-- ==== Sys2Proof/Machine/Operands.lean ====
section
/-! DEFINITION. Every operand form: the slot table and the operand values of the combiner (45_combiner.md R380, R390 to
R392), the operand values of the blender (46_blender.md R403), and the derived fields of a tile (10_state.md R53). -/

namespace Sys2Proof

/-- `cfg` without `atomic_prim`, which has no effect on any rule (R39): what the OPEN parameters are given. -/
def OtherModes.effective (m : OtherModes) : OtherModes := { m with atomicPrim := false }

/-- The slot table of R380: which operands each slot accepts. -/
def Slot.accepts : Slot → Operand → Bool
  | .rgbA, op => op ∈ [.combined, .texel0, .texel1, .prim, .shade, .env, .one, .noise, .zero]
  | .rgbB, op => op ∈ [.combined, .texel0, .texel1, .prim, .shade, .env, .keyCenter, .k4, .zero]
  | .rgbC, op => op ∈ [.combined, .texel0, .texel1, .prim, .shade, .env, .keyScale, .combinedAlpha, .texel0Alpha,
      .texel1Alpha, .primAlpha, .shadeAlpha, .envAlpha, .lodFrac, .primLodFrac, .k5, .zero]
  | .rgbD, op => op ∈ [.combined, .texel0, .texel1, .prim, .shade, .env, .one, .zero]
  | .alphaA, op | .alphaB, op | .alphaD, op =>
      op ∈ [.combined, .texel0, .texel1, .prim, .shade, .env, .one, .zero]
  | .alphaC, op => op ∈ [.lodFrac, .texel0, .texel1, .prim, .shade, .env, .primLodFrac, .zero]

/-- Every slot of one cycle's set holds an operand it accepts (R380). -/
def CycleSel.wellFormed (c : CycleSel) : Bool :=
  Slot.accepts .rgbA c.rgbA && Slot.accepts .rgbB c.rgbB && Slot.accepts .rgbC c.rgbC && Slot.accepts .rgbD c.rgbD &&
  Slot.accepts .alphaA c.alphaA && Slot.accepts .alphaB c.alphaB && Slot.accepts .alphaC c.alphaC &&
  Slot.accepts .alphaD c.alphaD

/-- Every slot of `cc` holds an operand it accepts (R380). -/
def CombinerSel.wellFormed (cc : CombinerSel) : Bool :=
  cc.cycle0.wellFormed && cc.cycle1.wellFormed

/-- A configuration write the block accepts: every value of a register's width; of `cc`, only operands the slots list
(R470). -/
def CfgWrite.wellFormed : CfgWrite → Bool
  | .ccSlot _ slot op => slot.accepts op
  | .ccAll cc => cc.wellFormed
  | .primColor _ | .envColor _ | .fogColor _ | .blendColor _ => true
  | .primLodFrac _ | .minLevel _ | .keyCenter _ | .keyScale _ | .keyWidth _ | .clip _ => true

end Sys2Proof

namespace Sys2Proof.Machine

/-! ### Slots of the combiner -/

/-- The operand a selector set holds in a slot (R40). -/
def slotOf (c : CycleSel) : Slot → Operand
  | .rgbA => c.rgbA
  | .rgbB => c.rgbB
  | .rgbC => c.rgbC
  | .rgbD => c.rgbD
  | .alphaA => c.alphaA
  | .alphaB => c.alphaB
  | .alphaC => c.alphaC
  | .alphaD => c.alphaD

/-- Write one slot of a selector set. -/
def setSlot (c : CycleSel) (slot : Slot) (op : Operand) : CycleSel :=
  match slot with
  | .rgbA => { c with rgbA := op }
  | .rgbB => { c with rgbB := op }
  | .rgbC => { c with rgbC := op }
  | .rgbD => { c with rgbD := op }
  | .alphaA => { c with alphaA := op }
  | .alphaB => { c with alphaB := op }
  | .alphaC => { c with alphaC := op }
  | .alphaD => { c with alphaD := op }

/-- The first slot of a selector set whose operand it does not accept (R380). -/
def badSlot? (c : CycleSel) : Option (Slot × Operand) :=
  (allSlots.map (fun sl => (sl, slotOf c sl))).find? (fun p => !p.1.accepts p.2)

/-! ### Color lanes -/

/-- A colour lane of a Color register, as a signed integer (R62). -/
def Color.lane (c : Color) : Lane → Int
  | .r => c.r.toInt
  | .g => c.g.toInt
  | .b => c.b.toInt

/-- The alpha lane of a Color register, as a signed integer (R62). -/
def Color.alpha (c : Color) : Int := c.a.toInt

/-- A Color register with the given lane values. -/
def Color.ofInts (r g b a : Int) : Color := ⟨BitVec.ofInt 32 r, BitVec.ofInt 32 g, BitVec.ofInt 32 b, BitVec.ofInt 32 a⟩

/-- Apply a function to each of the four lanes. -/
def Color.mapLanes (f : Int → Int) (c : Color) : Color :=
  .ofInts (f (c.lane .r)) (f (c.lane .g)) (f (c.lane .b)) (f c.alpha)

/-- A colour lane of a constant color register (R41). -/
def rgba8Lane (c : Rgba8) : Lane → Int
  | .r => c.r.toNat
  | .g => c.g.toNat
  | .b => c.b.toNat

/-- A component of a key register (R44). -/
def rgb8Lane (c : Rgb8) : Lane → Int
  | .r => c.r.toNat
  | .g => c.g.toNat
  | .b => c.b.toNat

/-- A constant color as a Color register. -/
def colorOfRgba8 (c : Rgba8) : Color := .ofInts c.r.toNat c.g.toNat c.b.toNat c.a.toNat

/-! ### Operand values of the combiner -/

/-- What the combiner reads for one evaluation: the Color registers, the pixel's noise value and its LOD fraction. -/
structure CombInputs where
  regs : ColorRegs
  noise : Int
  lodFrac : Int

/-- The value of an RGB operand in a lane (R380, R390 to R392). -/
def rgbOperand (g : Settings) (i : CombInputs) (lane : Lane) : Operand → Int
  | .combined => i.regs.combined.lane lane
  | .texel0 => i.regs.texel0.lane lane
  | .texel1 => i.regs.texel1.lane lane
  | .prim => rgba8Lane g.primColor lane
  | .shade => i.regs.shade.lane lane
  | .env => rgba8Lane g.envColor lane
  | .one => 0x100
  | .noise => i.noise
  | .zero => 0
  | .keyCenter => rgb8Lane g.keyCenter lane
  | .k4 => g.convert.k4.toNat
  | .keyScale => rgb8Lane g.keyScale lane
  | .combinedAlpha => i.regs.combined.alpha
  | .texel0Alpha => i.regs.texel0.alpha
  | .texel1Alpha => i.regs.texel1.alpha
  | .primAlpha => g.primColor.a.toNat
  | .shadeAlpha => i.regs.shade.alpha
  | .envAlpha => g.envColor.a.toNat
  | .lodFrac => i.lodFrac
  | .primLodFrac => g.primLodFrac.toNat
  | .k5 => g.convert.k5.toNat

/-- The value of an alpha operand: the a lane of a register, or a scalar (R380, R386). The operands no alpha slot lists
have the value they have in an RGB slot's red lane; no `CFG` write puts one there. -/
def alphaOperand (g : Settings) (i : CombInputs) : Operand → Int
  | .combined | .combinedAlpha => i.regs.combined.alpha
  | .texel0 | .texel0Alpha => i.regs.texel0.alpha
  | .texel1 | .texel1Alpha => i.regs.texel1.alpha
  | .prim | .primAlpha => g.primColor.a.toNat
  | .shade | .shadeAlpha => i.regs.shade.alpha
  | .env | .envAlpha => g.envColor.a.toNat
  | .one => 0x100
  | .noise => i.noise
  | .zero => 0
  | .keyCenter => rgb8Lane g.keyCenter .r
  | .k4 => g.convert.k4.toNat
  | .keyScale => rgb8Lane g.keyScale .r
  | .lodFrac => i.lodFrac
  | .primLodFrac => g.primLodFrac.toNat
  | .k5 => g.convert.k5.toNat

/-! ### Operand values of the blender -/

/-- `sel(code)` (R403, R35): the colour operand P or M. Code 0 reads `pix` (the pixel, or `blended_pixel` in cycle 1 of
2-cycle mode, R400), code 1 `mem` (memory, or `pre_memory` in cycle 0 of 2-cycle mode). -/
def blendColorOperand (g : Settings) (pix mem : Color) (code : BitVec 2) : Color :=
  if code = 0 then pix
  else if code = 1 then mem
  else if code = 2 then colorOfRgba8 g.blendColor
  else colorOfRgba8 g.fogColor

/-- `sel_a(code)` (R403, R35): the first alpha operand A. -/
def blendAlphaOperand (g : Settings) (regs : ColorRegs) (code : BitVec 2) : Int :=
  if code = 0 then regs.pixel.alpha
  else if code = 1 then g.fogColor.a.toNat
  else if code = 2 then regs.shade.alpha
  else 0

/-- `sel_b(code)` (R403, R35): the second alpha operand B, read after `inv_pixel.a` is set (R404). -/
def blendInvOperand (regs : ColorRegs) (code : BitVec 2) : Int :=
  if code = 0 then regs.invPixel.alpha
  else if code = 1 then regs.memory.alpha
  else if code = 2 then 0xFF
  else 0

/-- The four selector codes of one blender cycle (R35, R401). -/
structure BlendSel where
  p : BitVec 2
  a : BitVec 2
  m : BitVec 2
  b : BitVec 2
deriving DecidableEq, Repr

/-- The selectors of cycle 0, or of cycle 1 (R401). -/
def blendSel (m : OtherModes) (cycle1 : Bool) : BlendSel :=
  if cycle1 then ⟨m.bM1a1, m.bM1b1, m.bM2a1, m.bM2b1⟩ else ⟨m.bM1a0, m.bM1b0, m.bM2a0, m.bM2b0⟩

/-! ### Derived fields of a tile (R53) -/

/-- One axis of a tile, with its derived fields (R53, R270). -/
structure TileAxis where
  shift : Nat
  lo : Nat
  hi : Nat
  mirror : Bool
  mask : Nat
  clampEn : Bool
  clampDiff : Nat
  maskClamped : Nat
deriving DecidableEq, Repr

/-- `clampdiffs`, `clampdifft`: the integer parts' difference modulo 1024 (R53). -/
def clampDiffOf (lo hi : BitVec 12) : Nat := (hi.toNat / 4 + 1024 - lo.toNat / 4) % 1024

/-- The S axis of a tile (R53, R270). -/
def Tile.axisS (t : Tile) : TileAxis where
  shift := t.shape.shiftS.toNat
  lo := t.bounds.sl.toNat
  hi := t.bounds.sh.toNat
  mirror := t.shape.ms
  mask := t.shape.maskS.toNat
  clampEn := t.shape.cs || t.shape.maskS.toNat == 0
  clampDiff := clampDiffOf t.bounds.sl t.bounds.sh
  maskClamped := min t.shape.maskS.toNat 10

/-- The T axis of a tile (R53, R270). -/
def Tile.axisT (t : Tile) : TileAxis where
  shift := t.shape.shiftT.toNat
  lo := t.bounds.tl.toNat
  hi := t.bounds.th.toNat
  mirror := t.shape.mt
  mask := t.shape.maskT.toNat
  clampEn := t.shape.ct || t.shape.maskT.toNat == 0
  clampDiff := clampDiffOf t.bounds.tl t.bounds.th
  maskClamped := min t.shape.maskT.toNat 10

/-- `notlutswitch`, the format dispatch key: format, then size (R53). -/
def Tile.key (t : Tile) : BitVec 5 := t.shape.format ++ t.shape.size

/-- `tlutswitch`, the key when `en_tlut = 1`: size, then `(format + 2) & 3` (R53). No rule reads it: sizes 0 and 1 form
the palette index alike for every format with a decoder (R327, log 35). -/
def Tile.tlutKey (t : Tile) : BitVec 4 := t.shape.size ++ (t.shape.format + 2).setWidth 2

/-- `kN_tf = (sext_9(KN) << 1) + 1` (R46). -/
def convertFactor (k : BitVec 9) : Int := 2 * k.toInt + 1

end Sys2Proof.Machine
end

