-- ==== Sys2Proof/Machine/Flags.lean ====
section
/-! DEFINITION. Every flag: the block has no condition codes (10_state.md R76); these are the derived configuration flags
(R38) and the transient flags of a pixel that later stages read. Each is a function evaluated at its use, so none is ever
stale (R38, R183). -/

namespace Sys2Proof.Machine

/-! ### Derived configuration (R38) -/

/-- The four cycle types (R32). -/
inductive CycleType where
  | one | two | copy | fill
deriving DecidableEq, Repr

/-- `cfg.cycle_type` by its code (R32). -/
def cycleType (m : OtherModes) : CycleType :=
  if m.cycleType = 0 then .one else if m.cycleType = 1 then .two else if m.cycleType = 2 then .copy else .fill

/-- The cycle types whose rectangles include their lower and right edges (R187, R241). -/
def fillOrCopy (m : OtherModes) : Bool := m.cycleType = 2 || m.cycleType = 3

/-- `dith_index = (rgb_dither_sel << 2) | alpha_dither_sel` (R34, R38). -/
def dithIndex (m : OtherModes) : Nat := 4 * m.rgbDitherSel.toNat + m.alphaDitherSel.toNat

/-- The selector sets of the active cycles: cycle 1's in 1-cycle mode, both in 2-cycle mode, none in copy and fill
(R387). -/
def activeSels (g : Settings) : List CycleSel :=
  match cycleType g.cfg with
  | .one => [g.cc.cycle1]
  | .two => [g.cc.cycle0, g.cc.cycle1]
  | .copy | .fill => []

/-- Some slot of an active cycle selects the operand. -/
def readsOperand (g : Settings) (op : Operand) : Bool :=
  (activeSels g).any (fun c => allSlots.any (fun sl => slotOf c sl == op))

/-- `dolod` (R283): mipmap selection is on, or the combiner reads the LOD fraction in an active cycle. -/
def doLod (g : Settings) : Bool := g.cfg.texLodEn || readsOperand g .lodFrac

/-- `partialreject_c` (R409): B is the inverse-pixel alpha and A the pixel alpha. -/
def partialReject (m : OtherModes) (cycle1 : Bool) : Bool :=
  (blendSel m cycle1).b = 0 && (blendSel m cycle1).a = 0

/-- `special_bsel_c` (R410): B is the memory alpha. -/
def specialBsel (m : OtherModes) (cycle1 : Bool) : Bool := (blendSel m cycle1).b = 1

/-! ### Coverage flags -/

/-- `cvg = popcount(cvgmask)` (R420). -/
def cvgCount (mask : BitVec 8) : Nat := ((List.range 8).filter (fun i => mask.getLsbD i)).length

/-- `cvbit = cvgmask[7]` (R421). -/
def cvBit (mask : BitVec 8) : Bool := mask.getLsbD 7

/-- The coverage test of R422 (a). -/
def coverageOk (m : OtherModes) (cvg : Nat) (mask : BitVec 8) : Bool :=
  if m.antialiasEn then cvg != 0 else cvBit mask

/-- `prewrap` (R425): the accumulated coverage overflows a pixel. -/
def prewrapOf (cvg memcvg : Nat) : Bool := bit 3 ((cvg + memcvg : Nat) : Int)

/-- `blend_en` (R425). -/
def blendEnOf (m : OtherModes) (prewrap farther : Bool) : Bool :=
  m.forceBlend || (!prewrap && m.antialiasEn && farther)

end Sys2Proof.Machine
end

