-- ==== Sys2Proof/Machine/TexCoord.lean ====
section
/-! DEFINITION. The texture coordinate pipeline (42_texcoord.md): perspective divide (R260 to R267), tile coordinate mapper
(R270 to R279), mipmap LOD selector (R280 to R289). Nothing here faults: out-of-range results are sentinel codes
(R462). -/

namespace Sys2Proof.Machine

/-! ### Perspective divide -/

/-- The normalising shift of R263: the first `k - 1`, `k` from 1 to 14, such that bit 15 of `i << k` is set; 14 if there
is none. -/
def tcdivShift (i : Nat) : Nat :=
  ((List.range 14).find? (fun k => i.testBit (14 - k))).getD 14

/-- `tcdiv_table[i]`, `0 ≤ i ≤ 0x7fff` (R263), from the seed tables. -/
def tcdivEntry (i : Nat) : Int :=
  let shift := tcdivShift i
  let normout := (i <<< shift) % 0x4000
  let wnorm := (normout % 256) * 4
  let idx : Fin 64 := Fin.ofNat 64 (normout / 256)
  let rcp := asr (-(Config.normSlopeTable idx * (wnorm : Int))) 10 + Config.normPointTable idx
  (shift : Int) + rcp * 16

/-- One axis of `TcDivPersp` (R264): the coordinate, the table entry of W, and whether W is not positive. Bits 16:0 of
the result are the quotient, bits 18:17 the saturation code (R265). -/
def tcDivAxis (entry : Int) (wCarry : Bool) (coord : Half) : BitVec 19 :=
  let rcp := asr entry 4
  let shift := (zext 4 entry).toNat
  let prod := coord.toInt * rcp
  let tempmask := 2 ^ 30 - ((2 ^ 29) >>> shift)
  let oob := maskWith 30 prod tempmask
  let prod2 := if shift ≠ 14 then asr prod (13 - shift) else prod
  let temps := if shift ≠ 14 then prod2 else prod * 2
  let code0 : Nat := if oob ≠ tempmask ∧ oob ≠ 0 then (if bit 29 prod2 then 1 else 2) else 0
  let code : Nat := if wCarry then code0 ||| 2 else code0
  BitVec.ofNat 2 code ++ BitVec.ofInt 17 temps

/-- `TcDivPersp` (R264). -/
def tcDivPersp (p : TexPoint) : BitVec 19 × BitVec 19 :=
  let wCarry := decide (p.sw.toInt ≤ 0)
  let entry := tcdivEntry (p.sw.toNat % 0x8000)
  (tcDivAxis entry wCarry p.ss, tcDivAxis entry wCarry p.st)

/-- One axis of `TcDivNoPersp`: the sign-extended coordinate, code 0 (R266). -/
def tcNoDivAxis (coord : Half) : BitVec 19 := (coord.signExtend 17).setWidth 19

/-- `TcDivNoPersp`; W is not read (R266). -/
def tcDivNoPersp (p : TexPoint) : BitVec 19 × BitVec 19 := (tcNoDivAxis p.ss, tcNoDivAxis p.st)

/-- `TexDivide`: the variant `cfg.persp_tex_en` selects (R260). -/
def texDivide (m : OtherModes) (p : TexPoint) : BitVec 19 × BitVec 19 :=
  if m.perspTexEn then tcDivPersp p else tcDivNoPersp p

/-- The saturation code of a divide output, bits 18:17 (R265). -/
def satCode (v : BitVec 19) : BitVec 2 := v.extractLsb' 17 2

/-- `Sat16` (R267): a divide output reduced to 16 bits. -/
def sat16 (v : BitVec 19) : Half :=
  if v.getLsbD 18 then 0x7fff
  else if v.getLsbD 17 then 0x8000
  else if v.extractLsb' 15 2 = 1 then 0x7fff
  else if v.extractLsb' 15 2 = 2 then 0x8000
  else v.extractLsb' 0 16

/-! ### Tile coordinate mapper -/

/-- The shift of R271: right by 0 to 10, or left by 5 to 1, sign-extended from 16 bits. -/
def shiftCoord (shift : Nat) (c : Half) : Int :=
  if shift < 11 then asr c.toInt shift else sext 16 (c.toInt * ((2 ^ (16 - shift) : Nat) : Int))

/-- `maskbits_table` (R275). -/
def maskBits (m : Nat) : Nat := if m = 0 then 0x3ff else (0xffff >>> (16 - m)) &&& 0x3ff

/-- The clamp of R274: the integer coordinate and the fraction, from the shifted coordinate `c` (R272, R273, R277). -/
def clampCoord (ax : TileAxis) (c : Int) : Int × Nat :=
  let maxs := decide ((ax.hi : Int) ≤ asr c 3)
  let r := c - (ax.lo : Int) * 8
  let frac := (zext 5 r).toNat
  if ax.clampEn then
    if bit 16 r then (0, 0)
    else if maxs then ((ax.clampDiff : Int), 0)
    else (asr r 5, frac)
  else (asr r 5, frac)

/-- Wrap and mirror (R276). -/
def wrapCoord (ax : TileAxis) (s : Int) : Int :=
  if ax.mask ≠ 0 then
    let mirrored := if ax.mirror && bit ax.maskClamped s then compl s else s
    ((maskWith 10 mirrored (maskBits ax.mask) : Nat) : Int)
  else s

/-- Rules R272 to R277 from the shifted coordinate: the texel coordinate and the fraction. -/
def mapShifted (ax : TileAxis) (c : Int) : Nat × Nat :=
  let (s, frac) := clampCoord ax c
  ((wrapCoord ax s).toNat, frac)

/-- The texel coordinate, its neighbour's (R334, spec default: rules R274 and R276 at `r + 32`, the max flag at `c + 32`)
and the fraction, of one axis for a divide output (R267, R271 to R277). -/
structure AxisCoords where
  pos : Nat
  next : Nat
  frac : Nat
deriving DecidableEq, Repr

/-- The tile coordinate mapper on one axis (R270, R278, R334). -/
def mapAxis (ax : TileAxis) (v : BitVec 19) : AxisCoords :=
  let c := shiftCoord ax.shift (sat16 v)
  ⟨(mapShifted ax c).1, (mapShifted ax (c + 32)).1, (mapShifted ax c).2⟩

/-! ### Mipmap LOD selector -/

/-- The magnitude of a coordinate difference (R281): a negative one is one's-complemented. -/
def lodDelta (next cur : BitVec 19) : Nat :=
  let d := (next.setWidth 17).toInt - (cur.setWidth 17).toInt
  if bit 17 d then (zext 17 (compl d)).toNat else d.toNat

/-- `Dist` (R281): the 15-bit distance. -/
def lodDist (scur snext tcur tnext : BitVec 19) (prev : Nat) : Nat :=
  let d := max (max (lodDelta snext scur) (lodDelta tnext tcur)) prev
  let lod := d &&& 0x7fff
  if d &&& 0x1c000 ≠ 0 then lod ||| 0x4000 else lod

/-- `log2table` (R285): 0 for 0 and 1, else the index of the highest set bit. -/
def log2Table (i : Nat) : Nat := Nat.log2 i

/-- The divide outputs at the pixel, one pixel ahead in x, one scanline ahead in y (R281). -/
structure LodPoints where
  sc : BitVec 19
  tc : BitVec 19
  sx : BitVec 19
  tx : BitVec 19
  sy : BitVec 19
  ty : BitVec 19
deriving DecidableEq, Repr

/-- The distance before capping (R281). -/
def lodDistance (p : LodPoints) : Nat := lodDist p.sc p.sy p.tc p.ty (lodDist p.sc p.sx p.tc p.tx 0)

/-- `lodclamp` (R281): some divide output carries a saturation code. -/
def lodClamp (p : LodPoints) : Bool := [p.sc, p.tc, p.sx, p.tx, p.sy, p.ty].any (fun v => satCode v != 0)

/-- The LOD signals of R284. -/
structure LodSignals where
  magnify : Bool
  distant : Bool
  lTile : Nat
  lodFrac : Nat
deriving DecidableEq, Repr

/-- R284, with `maxLevel = prim.level`. -/
def lodSignals (m : OtherModes) (minLevel maxLevel : Nat) (p : LodPoints) : LodSignals :=
  let lod0 := lodDistance p
  let lod := if lod0 &&& 0x4000 ≠ 0 ∨ lodClamp p = true then 0x7fff else if lod0 < minLevel then minLevel else lod0
  let magnify := decide (lod < 32)
  let lTile := log2Table ((lod >>> 5) &&& 0xff)
  let distant := decide (lod &&& 0x6000 ≠ 0) || decide (maxLevel ≤ lTile)
  let frac0 := ((lod <<< 3) >>> lTile) &&& 0xff
  let frac1 := if !m.sharpenTexEn && !m.detailTexEn then (if distant then 0xff else if magnify then 0 else frac0) else frac0
  let frac := if m.sharpenTexEn && magnify then frac1 ||| 0x100 else frac1
  ⟨magnify, distant, lTile, frac⟩

/-- Tile selection (R286, R287): t1 and t2, modulo 8. -/
def lodTiles (m : OtherModes) (primTile primLevel : Nat) (sig : LodSignals) : BitVec 3 × BitVec 3 :=
  let lTile := if sig.distant then primLevel else sig.lTile
  let base := primTile + lTile
  if !m.detailTexEn then
    let t1 := base
    let t2 := if sig.distant || (!m.sharpenTexEn && sig.magnify) then t1 else t1 + 1
    (BitVec.ofNat 3 t1, BitVec.ofNat 3 t2)
  else
    (BitVec.ofNat 3 (base + (if sig.magnify then 0 else 1)),
      BitVec.ofNat 3 (base + (if !sig.distant && !sig.magnify then 2 else 1)))

/-- What `LodSelect` gives a pixel (R247): the two tiles and the LOD fraction. -/
structure LodResult where
  t1 : BitVec 3
  t2 : BitVec 3
  lodFrac : Int

/-- `LodSelect` (R280 to R288). Without `dolod` the signals are not computed and `lod_frac` is not defined (R283). -/
def lodSelect (g : Settings) (prim : Prim) (p : LodPoints) : LodResult :=
  let sig := lodSignals g.cfg g.minLevel.toNat prim.level.toNat p
  let tiles := if doLod g && g.cfg.texLodEn then lodTiles g.cfg prim.tile.toNat prim.level.toNat sig
    else (prim.tile, prim.tile + 1)
  ⟨tiles.1, tiles.2, if doLod g then (sig.lodFrac : Int) else Config.lodFracUndefined⟩

end Sys2Proof.Machine
end

