-- ==== Sys2Proof/Machine/Fetch.lean ====
section
/-! DEFINITION. Texel addressing, the decoders, the palette path and the one- and four-texel fetches (43_tmem_fetch.md R310
to R335). A fetch reads TMEM and does nothing else. -/

namespace Sys2Proof.Machine

/-- `tbase = line * t + tmem`, in 64-bit words (R311). -/
def texelBase (tile : Tile) (t : Nat) : Nat := tile.shape.line.toNat * t + tile.shape.tmem.toNat

/-- XOR with `flip` on odd rows (R311: byte 4, word 2, nibble 8). -/
def oddSwap (t a flip : Nat) : Nat := if t % 2 = 1 then a ^^^ flip else a

/-- The nibble address of a 4-bit texel (R314). -/
def nibbleAddr (tile : Tile) (s t : Nat) : Nat := oddSwap t (16 * texelBase tile t + s) 8

/-- The byte address of an 8-bit texel, before its mask (R314). -/
def byteAddr (tile : Tile) (s t : Nat) : Nat := oddSwap t (8 * texelBase tile t + s) 4

/-- The word index of a 16-bit texel, before its mask (R314). -/
def wordAddr (tile : Tile) (s t : Nat) : Nat := oddSwap t (4 * texelBase tile t + s) 2

/-- The word index of the upper half of a 32-bit texel; the lower half is at this index plus 0x400 (R313, R314). -/
def word32Addr (tile : Tile) (s t : Nat) : Nat := wordAddr tile s t % 0x400

/-- `mask8` as a modulus: with the palette on, the low half of TMEM (R314). -/
def byteModulus (enTlut : Bool) : Nat := if enTlut then 0x800 else 0x1000

/-- The raw texel at (s, t): 4, 8, 16 or 32 bits by the tile's size (R314). -/
def rawTexel (enTlut : Bool) (m : Memory) (tile : Tile) (s t : Nat) : Nat :=
  if tile.shape.size = 0 then
    let na := nibbleAddr tile s t
    let byte := (tmem8 m ((na / 2) % byteModulus enTlut)).toNat
    if na % 2 = 1 then byte % 16 else byte / 16
  else if tile.shape.size = 1 then (tmem8 m (byteAddr tile s t % byteModulus enTlut)).toNat
  else if tile.shape.size = 2 then (tmem16 m (wordAddr tile s t)).toNat
  else (tmem16 m (word32Addr tile s t) ++ tmem16 m (word32Addr tile s t + 0x400)).toNat

/-! ### Decoders -/

/-- A Color register of unsigned lane values. -/
def colorOfNats (r g b a : Nat) : Color := ⟨BitVec.ofNat 32 r, BitVec.ofNat 32 g, BitVec.ofNat 32 b, BitVec.ofNat 32 a⟩

/-- The same value in r, g and b. -/
def grey (i a : Nat) : Color := colorOfNats i i i a

/-- `replicated_rgba[i]` (R321). -/
def replicate5 (i : Nat) : Nat := (i <<< 3) ||| ((i >>> 2) &&& 7)

/-- RGBA16 (R322). -/
def decodeRgba16 (c : Nat) : Color :=
  colorOfNats (replicate5 (c >>> 11)) (replicate5 ((c >>> 6) &&& 0x1f)) (replicate5 ((c >>> 1) &&& 0x1f))
    (if c % 2 = 1 then 0xff else 0)

/-- RGBA32 (R323): `c` is the upper half, then the lower half. -/
def decodeRgba32 (c : Nat) : Color :=
  colorOfNats (c >>> 24) ((c >>> 16) &&& 0xff) ((c >>> 8) &&& 0xff) (c &&& 0xff)

/-- IA4 (R324). -/
def decodeIa4 (c : Nat) : Color :=
  let i := c &&& 0xe
  grey (((i <<< 4) ||| (i <<< 1) ||| (i >>> 2)) &&& 0xff) (if c % 2 = 1 then 0xff else 0)

/-- IA8 (R324). -/
def decodeIa8 (c : Nat) : Color :=
  grey ((c &&& 0xf0) ||| (c >>> 4)) ((c &&& 0xf) ||| ((c &&& 0xf) <<< 4))

/-- IA16 (R324). -/
def decodeIa16 (c : Nat) : Color := grey (c >>> 8) (c &&& 0xff)

/-- I4 and RGBA4 (R325). -/
def decodeI4 (c : Nat) : Color := grey (c ||| (c <<< 4)) (c ||| (c <<< 4))

/-- I8 and RGBA8 (R325). -/
def decodeI8 (c : Nat) : Color := grey c c

/-- The index of a 4-bit texel: the tile's palette, then the texel (R326, R327). -/
def ciIndex4 (tile : Tile) (c : Nat) : Nat := (tile.shape.palette.toNat <<< 4) ||| c

/-- The decoders this spec defines for `en_tlut = 0`, by dispatch key (R320); `none` for the keys of `FetchOther`. -/
def decodeByKey (tile : Tile) (c : Nat) : Option Color :=
  let key := tile.key.toNat
  if key = 0 ∨ key = 16 then some (decodeI4 c)
  else if key = 1 ∨ key = 17 then some (decodeI8 c)
  else if key = 2 then some (decodeRgba16 c)
  else if key = 3 then some (decodeRgba32 c)
  else if key = 8 then some (grey (ciIndex4 tile c) (ciIndex4 tile c))
  else if key = 9 then some (grey c c)
  else if key = 12 then some (decodeIa4 c)
  else if key = 13 then some (decodeIa8 c)
  else if key = 14 then some (decodeIa16 c)
  else none

/-- The palette index for `en_tlut = 1` (R327); `none` for what goes to `FetchOther` (R330): sizes 2 and 3, and every key
of formats 5 to 7 (R51), which the model takes out of R327's "any format" (DEDUCED, log 35). -/
def paletteIndex (tile : Tile) (c : Nat) : Option Nat :=
  if 5 ≤ tile.shape.format.toNat then none
  else if tile.shape.size = 0 then some (ciIndex4 tile c)
  else if tile.shape.size = 1 then some c
  else none

/-- Unpack a palette entry by `cfg.tlut_type` (R329). -/
def unpackEntry (tlutType : Bool) (e : Half) : Color :=
  if tlutType then decodeIa16 e.toNat else decodeRgba16 e.toNat

/-! ### Fetches -/

/-- `FetchOther` (R330), a function of the arguments the rule gives it, reading TMEM only through the addresses of R314. -/
def fetchOther (enTlut : Bool) (m : Memory) (tile : Tile) (s t : Nat) : Color :=
  Config.fetchOther tile.key enTlut tile s t (rawTexel enTlut m tile)

/-- One texel, reading the palette from bank `bank` (R320, R328). -/
def fetchBank (cfg : OtherModes) (m : Memory) (tile : Tile) (bank s t : Nat) : Color :=
  let c := rawTexel cfg.enTlut m tile s t
  if cfg.enTlut then
    match paletteIndex tile c with
    | some idx => unpackEntry cfg.tlutType (tlutEntry m idx bank)
    | none => fetchOther cfg.enTlut m tile s t
  else
    match decodeByKey tile c with
    | some color => color
    | none => fetchOther cfg.enTlut m tile s t

/-- `Fetch1(i, s, t)` (R331): bank 0. -/
def fetch1 (cfg : OtherModes) (m : Memory) (tile : Tile) (s t : Nat) : Color := fetchBank cfg m tile 0 s t

/-- The four texels of a quad, in the order of R333. -/
structure Quad where
  t0 : Color
  t1 : Color
  t2 : Color
  t3 : Color
deriving DecidableEq, Repr

/-- `Fetch4(i, s0, s1, t0, t1)` (R332, R333): four single fetches, but for the palette bank, which is the texel's
position (R328). -/
def fetch4 (cfg : OtherModes) (m : Memory) (tile : Tile) (s0 s1 t0 t1 : Nat) : Quad where
  t0 := fetchBank cfg m tile 0 s0 t0
  t1 := fetchBank cfg m tile 1 s1 t0
  t2 := fetchBank cfg m tile 2 s0 t1
  t3 := fetchBank cfg m tile 3 s1 t1

end Sys2Proof.Machine
end

