-- ==== Sys2Proof/Machine/Filter.lean ====
section
/-! DEFINITION. The texture filter (44_texture_filter.md R360 to R370): sampling, bilinear, center and convert cases. -/

namespace Sys2Proof.Machine

/-- `upper` (R362): which triangle of the quad the sample falls in. -/
def upperTriangle (sfrac tfrac : Nat) : Bool := (sfrac + tfrac) &&& 0x20 != 0

/-- `center` (R363). -/
def centerCase (m : OtherModes) (sfrac tfrac : Nat) : Bool := m.midTexel && sfrac == 0x10 && tfrac == 0x10

/-- One lane of the center case (R364). -/
def centerLane (t0 t1 t2 t3 : Int) : Int :=
  t3 + asr ((t1 + t2) * 64 - t3 * 128 + (compl t3 + t0) * 64 + 0xc0) 8

/-- One lane of the upper triangle (R362, R364). -/
def upperLane (sfrac tfrac : Nat) (t1 t2 t3 : Int) : Int :=
  t3 + asr ((0x20 - (sfrac : Int)) * (t2 - t3) + (0x20 - (tfrac : Int)) * (t1 - t3) + 0x10) 5

/-- One lane of the lower triangle (R364). -/
def lowerLane (sfrac tfrac : Nat) (t0 t1 t2 : Int) : Int :=
  t0 + asr ((sfrac : Int) * (t1 - t0) + (tfrac : Int) * (t2 - t0) + 0x10) 5

/-- One lane of the bilinear filter (R364). -/
def bilinearLane (m : OtherModes) (sfrac tfrac : Nat) (t0 t1 t2 t3 : Int) : Int :=
  if centerCase m sfrac tfrac then centerLane t0 t1 t2 t3
  else if upperTriangle sfrac tfrac then upperLane sfrac tfrac t1 t2 t3
  else lowerLane sfrac tfrac t0 t1 t2

/-- The bilinear filter on all lanes (R364). -/
def bilinear (m : OtherModes) (sfrac tfrac : Nat) (q : Quad) : Color :=
  let lane (l : Lane) := bilinearLane m sfrac tfrac (q.t0.lane l) (q.t1.lane l) (q.t2.lane l) (q.t3.lane l)
  .ofInts (lane .r) (lane .g) (lane .b)
    (bilinearLane m sfrac tfrac q.t0.alpha q.t1.alpha q.t2.alpha q.t3.alpha)

/-- `ConvertFilter` (R365, spec default; log 24). -/
def convertFilter (k : ConvertConsts) (base : Color) : Color :=
  let r := base.lane .r
  let g := base.lane .g
  let b := base.lane .b
  .ofInts (zext 9 (b + asr (convertFactor k.k0 * g + 0x80) 8))
    (zext 9 (b + asr (convertFactor k.k1 * r + convertFactor k.k2 * g + 0x80) 8))
    (zext 9 (b + asr (convertFactor k.k3 * r + 0x80) 8))
    (zext 9 b)

/-- `bilerp_c` (R360). -/
def bilerpOf (m : OtherModes) (cycle1 : Bool) : Bool := if cycle1 then m.biLerp1 else m.biLerp0

/-- `TexturePipeline(sss, sst, tile, cycle, prev)` (R360, R361, R364 to R366): one filtered texel. -/
def texturePipeline (g : Settings) (m : Memory) (v : BitVec 19 × BitVec 19) (tile : BitVec 3) (cycle1 : Bool)
    (prev : Color) : Color :=
  let t := g.tile tile
  let cs := mapAxis t.axisS v.1
  let ct := mapAxis t.axisT v.2
  let bilerp := bilerpOf g.cfg cycle1
  if g.cfg.sampleType then
    let q := fetch4 g.cfg m t cs.pos cs.next ct.pos ct.next
    if bilerp then bilinear g.cfg cs.frac ct.frac q
    else convertFilter g.convert (if cycle1 && g.cfg.convertOne then prev else q.t0)
  else
    let t0 := fetch1 g.cfg m t cs.pos ct.pos
    if bilerp then t0 else convertFilter g.convert (if cycle1 && g.cfg.convertOne then prev else t0)

end Sys2Proof.Machine
end

