-- ==== Sys2Proof/Machine/Combiner.lean ====
section
/-! DEFINITION. The color combiner (45_combiner.md R380 to R393): `(A - B) * C + D` in nine-bit arithmetic. -/

namespace Sys2Proof.Machine

/-- `ext9(v)` of the low nine bits (R384). -/
def ext9 (v : Int) : Int :=
  let u := zext 9 v
  if 0x180 ≤ u then u - 0x200 else u

/-- `clamp9(v)` of the low nine bits (R384). -/
def clamp9 (v : Int) : Int :=
  let u := zext 9 v
  if u ≤ 0xff then u else if u ≤ 0x17f then 0xff else 0

/-- One lane of the combiner equation, a nine-bit value (R383, R386). -/
def combineLane (a b c d : Int) : Int :=
  asr (zext 17 ((ext9 a - ext9 b) * sext 9 c + ext9 d * 256 + 0x80)) 8

/-- The RGB equation in one lane (R383). -/
def combineRgb (g : Settings) (sel : CycleSel) (i : CombInputs) (lane : Lane) : Int :=
  combineLane (rgbOperand g i lane sel.rgbA) (rgbOperand g i lane sel.rgbB) (rgbOperand g i lane sel.rgbC)
    (rgbOperand g i lane sel.rgbD)

/-- The alpha equation (R386). -/
def combineAlpha (g : Settings) (sel : CycleSel) (i : CombInputs) : Int :=
  combineLane (alphaOperand g i sel.alphaA) (alphaOperand g i sel.alphaB) (alphaOperand g i sel.alphaC)
    (alphaOperand g i sel.alphaD)

/-- One evaluation of the combiner: the value `combined` takes (R385). -/
def combineCycle (g : Settings) (sel : CycleSel) (i : CombInputs) : Color :=
  .ofInts (combineRgb g sel i .r) (combineRgb g sel i .g) (combineRgb g sel i .b) (combineAlpha g sel i)

/-- The noise operand from a random value (R390). -/
def noiseOf (rand : Int) : Int := zext 3 rand * 64 + 0x20

/-- The blender's input pixel: `clamp9` of each lane of the final `combined` (R385, R388). -/
def clampPixel (combined : Color) : Color := combined.mapLanes clamp9

/-- `ChromaKey` (R389): no effect with `key_en = 0`; with `key_en = 1` a free value (log 17). -/
def chromaKey (g : Settings) (combined pixel : Color) : Color × Bool :=
  if g.cfg.keyEn then
    let out := Config.chromaKey g.cfg.effective g.keyCenter g.keyScale g.keyWidth combined pixel
    (colorOfRgba8 out.1, out.2)
  else (pixel, true)

end Sys2Proof.Machine
end

