-- ==== Sys2Proof/Machine/Blender.lean ====
section
/-! DEFINITION. The blender (46_blender.md R400 to R411): operand selection, the blend equation, the fast paths, and the one-
and two-cycle flows. -/

namespace Sys2Proof.Machine

/-- Colour lanes only: what the blender yields to the dither stage (R411). -/
structure Rgb where
  r : Int
  g : Int
  b : Int
deriving DecidableEq, Repr

/-- The colour lanes of a Color register. -/
def Color.rgb (c : Color) : Rgb := ⟨c.lane .r, c.lane .g, c.lane .b⟩

/-- One lane of `BlendEquation` (R405, spec default; log 24): `shift` is the case of 2-cycle cycle 0 or `force_blend`. -/
def blendLane (shift : Bool) (p a m b : Int) : Int :=
  let fa := asr a 3
  let fb := asr b 3
  let num := p * fa + m * (fb + 1)
  min (if shift then asr num 5 else num / (fa + fb + 1)) 255

/-- `BlendEquation` (R405); `special_bsel_c` has no effect in the spec default. -/
def blendEquation (shift : Bool) (p m : Color) (a b : Int) : Rgb :=
  ⟨blendLane shift (p.lane .r) a (m.lane .r) b, blendLane shift (p.lane .g) a (m.lane .g) b,
    blendLane shift (p.lane .b) a (m.lane .b) b⟩

/-- `inv_pixel.a <- ~A & 0xff` (R404). -/
def setInvPixel (regs : ColorRegs) (a : Int) : ColorRegs :=
  { regs with invPixel := { regs.invPixel with a := BitVec.ofInt 32 (zext 8 (compl a)) } }

/-- The final cycle's flow of R406, for cycle 0 in 1-cycle mode and cycle 1 in 2-cycle mode (R407): `pix` is what P/M code
0 reads. The registers with `inv_pixel` set where the equation runs, and the colour. -/
def blendFinal (g : Settings) (cycle1 : Bool) (pix : Color) (prewrap blendEn : Bool) (regs : ColorRegs) :
    ColorRegs × Rgb :=
  let sel := blendSel g.cfg cycle1
  let p := blendColorOperand g pix regs.memory sel.p
  let m := blendColorOperand g pix regs.memory sel.m
  if g.cfg.colorOnCvg && !prewrap then (regs, m.rgb)
  else
    let dontBlend := partialReject g.cfg cycle1 && decide (0xff ≤ regs.pixel.alpha)
    if !blendEn || dontBlend then (regs, p.rgb)
    else
      let a := blendAlphaOperand g regs sel.a
      let regs1 := setInvPixel regs a
      (regs1, blendEquation g.cfg.forceBlend p m a (blendInvOperand regs1 sel.b))

/-- Cycle 0 of 2-cycle mode (R407): the blend with `pre_memory` goes to `blended_pixel`. The rgb operands alone read
`pre_memory`; B code 1 reads the a lane of the current `memory`, as R403 says of every cycle (DEDUCED, log 40). -/
def blendFirst (g : Settings) (regs : ColorRegs) : ColorRegs :=
  let sel := blendSel g.cfg false
  let a := blendAlphaOperand g regs sel.a
  let regs1 := setInvPixel regs a
  let p := blendColorOperand g regs.pixel regs.preMemory sel.p
  let m := blendColorOperand g regs.pixel regs.preMemory sel.m
  let out := blendEquation true p m a (blendInvOperand regs1 sel.b)
  { regs1 with blendedPixel := .ofInts out.r out.g out.b regs.pixel.alpha }

/-- The 1-cycle blender (R406). -/
def blendOneCycle (g : Settings) (prewrap blendEn : Bool) (regs : ColorRegs) : ColorRegs × Rgb :=
  blendFinal g false regs.pixel prewrap blendEn regs

/-- The 2-cycle blender (R407). -/
def blendTwoCycle (g : Settings) (prewrap blendEn : Bool) (regs : ColorRegs) : ColorRegs × Rgb :=
  let regs1 := blendFirst g regs
  blendFinal g true regs1.blendedPixel prewrap blendEn regs1

end Sys2Proof.Machine
end

