-- ==== Sys2Proof/Machine/Coverage.lean ====
section
/-! DEFINITION. Coverage, alpha compare, dither and depth (47_coverage_dither_z.md R420 to R447). -/

namespace Sys2Proof.Machine

/-! ### Coverage -/

/-- Antialiased alpha (R423): the pixel's alpha and the coverage count after it. -/
def coverageAlpha (m : OtherModes) (alpha : Int) (cvg : Nat) (adith : Int) : Int × Nat :=
  let temp := asr (alpha * cvg + 4) 3
  let cvg1 := if m.cvgTimesAlpha then (bits 5 4 temp).toNat else cvg
  let alpha1 :=
    if m.alphaCvgSelect then min (if m.cvgTimesAlpha then temp else (cvg1 : Int) * 32) 0xff
    else if !m.keyEn then min (alpha + adith) 0xff
    else alpha
  (alpha1, cvg1)

/-- Coverage destination (R424, R37): the coverage value written with the pixel. -/
def coverageOut (m : OtherModes) (blendEn : Bool) (cvg memcvg : Nat) : BitVec 3 :=
  if m.cvgDest = 0 then
    let f : Int := if blendEn then (cvg : Int) + memcvg else (cvg : Int) - 1
    if bit 3 f then 7 else BitVec.ofInt 3 f
  else if m.cvgDest = 1 then BitVec.ofNat 3 (cvg + memcvg)
  else if m.cvgDest = 2 then 7
  else BitVec.ofNat 3 memcvg

/-! ### Alpha compare -/

/-- The alpha-compare threshold draws a random value (R428). -/
def thresholdDraws (m : OtherModes) : Bool := m.alphaCompareEn && m.ditherAlphaEn

/-- `AlphaCompare(a)` (R428) against the drawn value, if one is drawn. -/
def alphaCompare (g : Settings) (alpha rand : Int) : Bool :=
  if g.cfg.alphaCompareEn then
    decide ((if g.cfg.ditherAlphaEn then zext 8 rand else (g.blendColor.a.toNat : Int)) ≤ alpha)
  else true

/-! ### Dither -/

/-- The magic-square matrix (R431). -/
def magicMatrix : List Nat := [0, 6, 1, 7, 4, 2, 5, 3, 3, 5, 2, 4, 7, 1, 6, 0]

/-- The Bayer matrix (R431). -/
def bayerMatrix : List Nat := [0, 4, 1, 5, 4, 0, 5, 1, 3, 7, 2, 6, 7, 3, 6, 2]

/-- `m = ((y & 3) << 2) | (x & 3)` (R431). -/
def ditherIndexOf (x y : Nat) : Nat := 4 * (y % 4) + x % 4

/-- A pixel's dither values (R432): `cdith` is `none` where the RGB dither does not run. -/
structure DitherVals where
  cdith : Option Int
  adith : Int
deriving DecidableEq, Repr

/-- Row `dith_index` of `DitherTable` draws a value for `cdith` (rows 8 to 11). -/
def cdithDraws (m : OtherModes) : Bool := m.rgbDitherSel = 2

/-- Row `dith_index` of `DitherTable` draws a value for `adith` alone (rows 2, 6 and 14). That the row alone decides, also
with `alpha_cvg_select` or `key_en`, where R423 does not read `adith`, is the model's choice (DESIGN CHOICE, log 34). -/
def adithDraws (m : OtherModes) : Bool := m.alphaDitherSel = 2 && m.rgbDitherSel ≠ 2

/-- The matrix value a row uses: the Bayer matrix in rows 4 to 7 and 12 to 15, the magic square in the others (R432). -/
def matrixValue (m : OtherModes) (x y : Nat) : Nat :=
  (if m.rgbDitherSel = 1 ∨ m.rgbDitherSel = 3 then bayerMatrix else magicMatrix).getD (ditherIndexOf x y) 0

/-- `DitherTable` (R432): `cr` and `ar` are the values drawn for cdith and adith, where they are. -/
def ditherTable (m : OtherModes) (x y : Nat) (cr ar : Int) : DitherVals :=
  let v := matrixValue m x y
  let cdith : Option Int :=
    if m.rgbDitherSel = 3 then none else if m.rgbDitherSel = 2 then some cr else some (v : Int)
  let adith : Int :=
    if m.alphaDitherSel = 0 then (v : Int)
    else if m.alphaDitherSel = 1 then zext 3 (compl (v : Int))
    else if m.alphaDitherSel = 2 then (if m.rgbDitherSel = 2 then zext 3 (cr + 17) else zext 3 ar)
    else 0
  ⟨cdith, adith⟩

/-- `DitherGate(d, v)` (R435), DOC's gate (log 24). -/
def ditherGate (d v : Int) : Bool := decide (0 ≤ d - zext 3 v)

/-- `up(v)` (R436). -/
def roundUp (v : Int) : Int := if 247 < v then 255 else (zext 8 v / 8) * 8 + 8

/-- One channel of the RGB dither (R436). -/
def ditherChannel (d v : Int) : Int := if ditherGate d v then roundUp v else v

/-- The RGB dither (R436): the noise source gives each channel three bits of its own. -/
def ditherRgb (m : OtherModes) (cdith : Option Int) (c : Rgb) : Rgb :=
  match cdith with
  | none => c
  | some d =>
    if m.rgbDitherSel = 2 then
      ⟨ditherChannel (bits 0 3 d) c.r, ditherChannel (bits 3 3 d) c.g, ditherChannel (bits 6 3 d) c.b⟩
    else ⟨ditherChannel d c.r, ditherChannel d c.g, ditherChannel d c.b⟩

/-! ### Depth -/

/-- Depth source (R444): the pixel's z and dz, or the primitive depth. -/
def depthSource (g : Settings) (z : BitVec 18) (dz : BitVec 16) : BitVec 18 × BitVec 16 :=
  if g.cfg.zSourceSel then (g.primZ ++ 0#3, g.primDz) else (z, dz)

/-- `DepthTest` (R445, spec default; log 24): `z_ok` and `farther`. `prewrap` has no effect in the default. -/
def depthTest (m : OtherModes) (z : BitVec 18) (dz : BitVec 16) (mem : ZPixel) : Bool × Bool :=
  let zi : Int := z.toNat
  let mi : Int := mem.mz.toNat
  let ok := if m.zMode = 3 then decide ((zi - mi).natAbs ≤ max dz.toNat mem.mdz.toNat) else decide (zi ≤ mi)
  (ok, decide (mi ≤ zi))

end Sys2Proof.Machine
end

