-- ==== Sys2Proof/Machine/EdgeWalker.lean ====
section
/-! DEFINITION. The edge walker (41_edge_walker.md R230 to R246): from a primitive to its spans, and from a span to the inputs
of its pixels in order. Where the spec gives no edge stepping, rounding or order, the pieces of `EdgeWalk` of Config stand
(R233; log 9). -/

namespace Sys2Proof.Machine

/-! ### Primitives -/

/-- `RectanglePrimitive(xh, yh, xl, yl)` (R240), the 10.2 corners as s15.16 and s11.2. The middle edge lies on the right
one, and the major edge is the left one (PRESUMED, log 10). -/
def rectanglePrimitive (xh yh xl yl : BitVec 12) : Prim where
  kind := .rectangle
  lft := true
  tile := 0
  level := 0
  shadeEn := false
  texEn := false
  zEn := false
  yh := yh.setWidth 14
  ym := yl.setWidth 14
  yl := yl.setWidth 14
  xh := xh.setWidth 32 <<< 14
  dxhdy := 0
  xm := xl.setWidth 32 <<< 14
  dxmdy := 0
  xl := xl.setWidth 32 <<< 14
  dxldy := 0
  val := attrsZero
  dx := attrsZero
  de := attrsZero
  dy := attrsZero

/-- R187: in fill and copy the lower edge is inclusive, `prim.yl <- prim.yl | 3`; also for a host's primitive (R188,
log 13). -/
def lowerEdge (m : OtherModes) (p : Prim) : Prim := if fillOrCopy m then { p with yl := p.yl ||| 3 } else p

/-- R242: a rectangle whose lower-right corner lies left of or above its upper-left one is empty. That
a host's record of this kind whose edges are not those of R240 is empty by the same test, and not left to `EdgeWalk`, is
the model's choice (DESIGN CHOICE, log 36). -/
def rectEmpty (p : Prim) : Bool :=
  p.kind = .rectangle && (decide (p.xl.toInt < p.xh.toInt) || decide (p.yl.toInt < p.yh.toInt))

/-- The whole-pixel corners of a rectangle of vertical edges (R241). -/
structure Corners where
  left : Int
  top : Int
  right : Int
  bottom : Int
deriving DecidableEq, Repr

/-- The corners of a rectangle whose corners have zero fraction bits: the case R241 settles. -/
def wholeCorners (p : Prim) : Option Corners :=
  if p.kind = .rectangle ∧ p.dxhdy = 0 ∧ p.dxmdy = 0 ∧ p.dxldy = 0 ∧ p.xm = p.xl ∧
      p.xh.extractLsb' 0 16 = 0 ∧ p.xl.extractLsb' 0 16 = 0 ∧ p.yh.extractLsb' 0 2 = 0 ∧ p.yl.extractLsb' 0 2 = 0 then
    some ⟨asr p.xh.toInt 16, asr p.yh.toInt 2, asr p.xl.toInt 16, asr p.yl.toInt 2⟩
  else none

/-! ### Scanlines -/

/-- The first sub-scanline of the valid y range, after clipping (R232). -/
def rangeTop (g : Settings) (p : Prim) : Int := max p.yh.toInt g.clip.yh.toNat

/-- The lower end of a primitive, exclusive (R232): `yl`, with the lower edge of R187. A rectangle of whole-pixel corners
in fill and copy includes its last sub-scanline, or R241's pixel set would lose its last row to some clips (log 12). -/
def lowerEnd (g : Settings) (p : Prim) : Int :=
  (lowerEdge g.cfg p).yl.toInt + (if fillOrCopy g.cfg && (wholeCorners p).isSome then 1 else 0)

/-- The end of the valid y range, exclusive, after clipping (R232). -/
def rangeEnd (g : Settings) (p : Prim) : Int := min (lowerEnd g p) g.clip.yl.toNat

/-- The sub-scanlines k of scanline `y` inside the valid y range (R231, R232). -/
def subScanlines (g : Settings) (p : Prim) (y : Nat) : List (Fin 4) :=
  (List.finRange 4).filter (fun k =>
    decide (rangeTop g p ≤ 4 * (y : Int) + k.val) && decide (4 * (y : Int) + k.val < rangeEnd g p))

/-- `span[Y].valid` (R232, R242). -/
def scanlineValid (g : Settings) (p : Prim) (y : Nat) : Bool :=
  !rectEmpty p && !(subScanlines g p y).isEmpty

/-- The scanlines a primitive writes: `[yh >> 2, yl >> 2]` within `0..SPAN_COUNT-1` (R232, R251). -/
def scanlines (g : Settings) (p : Prim) : List Nat :=
  let lo := (max (asr p.yh.toInt 2) 0).toNat
  let stop := (min (asr (lowerEdge g.cfg p).yl.toInt 2 + 1) (Config.spanCount : Int)).toNat
  List.range' lo (stop - lo)

/-! ### Spans -/

/-- The left and right bounds of sub-scanline `k` (R234): a rectangle's by R241, the right edge exclusive in the 1-cycle
and 2-cycle types; every other primitive's by `EdgeWalk`. -/
def subBounds (g : Settings) (p : Prim) (y : Nat) (k : Fin 4) : Int × Int :=
  match wholeCorners p with
  | some c => (c.left, if fillOrCopy g.cfg then c.right else c.right - 1)
  | none =>
    let e := Config.edgeBounds p g.clip g.cfg.effective y k.val
    if p.lft then e else (e.2, e.1)

/-- Attributes with the disabled ones 0 (R235). -/
def gateAttrs (p : Prim) (e : Attrs) : Attrs where
  r := if p.shadeEn then e.r else 0
  g := if p.shadeEn then e.g else 0
  b := if p.shadeEn then e.b else 0
  a := if p.shadeEn then e.a else 0
  s := if p.texEn then e.s else 0
  t := if p.texEn then e.t else 0
  w := if p.texEn then e.w else 0
  z := if p.zEn then e.z else 0

/-- The largest of a list of bounds (R234). -/
def maxOf : List Int → Int
  | [] => 0
  | [a] => a
  | a :: rest => max a (maxOf rest)

/-- The least of a list of bounds (R234). -/
def minOf : List Int → Int
  | [] => 0
  | [a] => a
  | a :: rest => min a (minOf rest)

/-- The contents of the span entry of a valid scanline (R234, R235). -/
def spanBody (g : Settings) (p : Prim) (y : Nat) : SpanBody :=
  let subs := subScanlines g p y
  let left (k : Fin 4) : Int := (subBounds g p y k).1
  let right (k : Fin 4) : Int := (subBounds g p y k).2
  { lx := maxOf (subs.map left)
    rx := minOf (subs.map right)
    majorx := Vector.ofFn (fun k => if p.lft then left k else right k)
    minorx := Vector.ofFn (fun k => if p.lft then right k else left k)
    start := gateAttrs p (Config.edgeStart p g.clip g.cfg.effective y) }

/-- The entry a primitive writes for scanline `y`: an invalid one keeps the contents it had (R232). -/
def spanEntry (g : Settings) (p : Prim) (old : SpanBuffer) (y : Nat) : SpanEntry :=
  if scanlineValid g p y then ⟨true, spanBody g p y⟩ else ⟨false, (old.entry y).body⟩

/-- Write a block of entries of consecutive scanlines into the buffer; the other entries stay (R66). Entries equal to the
default are not listed, the buffer's canonical form. -/
def putEntries (old : List (Nat × SpanEntry)) (ys : List Nat) (f : Nat → SpanEntry) : List (Nat × SpanEntry) :=
  match ys.head?, ys.getLast? with
  | some lo, some hi =>
    old.filter (fun e => decide (e.1 < lo)) ++
      (ys.map (fun y => (y, f y))).filter (fun e => decide (e.2 ≠ SpanEntry.default)) ++
      old.filter (fun e => decide (hi < e.1))
  | _, _ => old

/-- The span buffer after the edge walk: one entry per scanline, and the primitive's increments (R66, R231, R235). -/
def edgeWalk (g : Settings) (p : Prim) (old : SpanBuffer) : SpanBuffer where
  entries := putEntries old.entries (scanlines g p) (spanEntry g p old)
  delta := gateAttrs p p.dx

/-! ### Pixels of a span -/

/-- Insert by rising key, after the equal ones. -/
def insertBy (key : Int → Nat) (x : Int) : List Int → List Int
  | [] => [x]
  | y :: rest => if key y ≤ key x then y :: insertBy key x rest else x :: y :: rest

/-- The pixels from `lx` to `rx`, increasing. -/
def pixelRange (lx rx : Int) : List Int := (List.range (rx - lx + 1).toNat).map (fun (i : Nat) => lx + (i : Int))

/-- The primitives whose pixels go in increasing x: every rectangle in fill mode (R245), and a rectangle of whole-pixel
corners in the 1-cycle type, the order program P4 of 95_test_vectors.md gives one (DEDUCED, log 11). -/
def risingOrder (g : Settings) (p : Prim) : Bool :=
  match cycleType g.cfg with
  | .fill => p.kind = .rectangle
  | .one => (wholeCorners p).isSome
  | .two | .copy => false

/-- The pixels of a span in the order of R245: increasing x for `risingOrder`, else the order of `EdgeWalk` (log 9). -/
def pixelOrder (g : Settings) (p : Prim) (y : Nat) (body : SpanBody) : List Int :=
  if risingOrder g p then pixelRange body.lx body.rx
  else (pixelRange body.lx body.rx).foldl (fun acc x => insertBy (Config.edgeOrder p g.clip g.cfg.effective y) x acc) []

/-- R243: the pixel lies inside the clip rectangle. -/
def insideClip (c : Clip) (x : Int) (y : Nat) : Bool :=
  decide (((c.xh.toNat / 4 : Nat) : Int) ≤ x) && decide (x < ((c.xl.toNat / 4 : Nat) : Int)) &&
    decide (c.yh.toNat / 4 ≤ y) && decide (y < c.yl.toNat / 4)

/-- `E + n * dE` in the attribute's 32-bit format (R235). Where the exact sum does not fit it, R235 says neither that it
wraps nor that it saturates: a free value (DESIGN CHOICE, log 38). -/
def stepWord (e d : Word) (n : Int) : Word :=
  let exact := e.toInt + n * d.toInt
  if -2 ^ 31 ≤ exact ∧ exact < 2 ^ 31 then BitVec.ofInt 32 exact else Config.attributeOutside e d n

/-- The attributes `n` pixels from the start (R235). -/
def attrsAt (start delta : Attrs) (n : Int) : Attrs where
  r := stepWord start.r delta.r n
  g := stepWord start.g delta.g n
  b := stepWord start.b delta.b n
  a := stepWord start.a delta.a n
  s := stepWord start.s delta.s n
  t := stepWord start.t delta.t n
  w := stepWord start.w delta.w n
  z := stepWord start.z delta.z n

/-- `ss`, `st`, `sw`: bits 31:16 of S, T and W (R246). -/
def pointOf (e : Attrs) : TexPoint := ⟨e.s.extractLsb' 16 16, e.t.extractLsb' 16 16, e.w.extractLsb' 16 16⟩

/-- Clamp a shade lane to 0..255 (R246). -/
def clamp255 (v : Int) : Int := max 0 (min v 255)

/-- What the driver hands to the stages for one pixel (R246). -/
structure PixelIn where
  x : BitVec 10
  y : BitVec 10
  mask : BitVec 8
  shade : Color
  point : TexPoint
  /-- The coordinates of the next pixel of the span (R368, log 21). -/
  next : TexPoint
  /-- The one-ahead points of LOD (R282). -/
  ahead : Ahead
  z : BitVec 18
  dz : BitVec 16
deriving DecidableEq, Repr

/-- The one-ahead points: `EdgeWalk`'s, or 0 where the texture attributes are off (log 30). -/
def aheadOf (g : Settings) (p : Prim) (y : Nat) (x : Int) (e : Attrs) : Ahead :=
  if p.texEn then Config.edgeAhead p g.clip g.cfg.effective y x e else ⟨⟨0, 0, 0⟩, ⟨0, 0, 0⟩⟩

/-- The inputs of pixel (x, y), `next?` being the pixel after it in the span (R236, R246). -/
def pixelIn (g : Settings) (p : Prim) (y : Nat) (body : SpanBody) (xstart x : Int) (next? : Option Int) : PixelIn :=
  let delta := gateAttrs p p.dx
  let e := attrsAt body.start delta (x - xstart)
  let ahead := aheadOf g p y x e
  { x := BitVec.ofInt 10 x
    y := BitVec.ofNat 10 y
    mask := if (wholeCorners p).isSome then 0xFF else Config.edgeMask p g.clip g.cfg.effective body y x
    shade := if p.shadeEn then (Config.edgeShade p g.clip g.cfg.effective y x e).mapLanes clamp255 else .zero
    point := pointOf e
    next := match next? with
      | some x' => pointOf (attrsAt body.start delta (x' - xstart))
      | none => ahead.x
    ahead := ahead
    z := if p.zEn then Config.edgeDepth p g.clip g.cfg.effective y x e else 0
    dz := if p.zEn then Config.edgeDz p g.clip g.cfg.effective y x else 0 }

/-- The inputs of the pixels of an ordered span, those outside the clip rectangle left out (R243). -/
def orderedPixels (g : Settings) (p : Prim) (y : Nat) (body : SpanBody) (xstart : Int) : List Int → List PixelIn
  | [] => []
  | x :: rest =>
    let later := orderedPixels g p y body xstart rest
    if insideClip g.clip x y then pixelIn g p y body xstart x rest.head? :: later else later

/-- The pixels of one span entry: none where it is not valid (R232). -/
def spanPixels (g : Settings) (p : Prim) (y : Nat) (entry : SpanEntry) : List PixelIn :=
  if entry.valid then
    let order := pixelOrder g p y entry.body
    orderedPixels g p y entry.body (order.headD entry.body.lx) order
  else []

/-- The pixels of a primitive, scanline by scanline in increasing y (R245). -/
def primPixels (g : Settings) (p : Prim) (old : SpanBuffer) : List PixelIn :=
  (scanlines g p).flatMap (fun y => spanPixels g p y (spanEntry g p old y))

end Sys2Proof.Machine
end

