-- ==== Sys2Proof/Machine/Pixel.lean ====
section
/-! DEFINITION. The per-pixel driver (41_edge_walker.md R245 to R252) and the drawing of a primitive. The stages read the
configuration registers and TMEM, which no pixel changes (R252), and change the Color registers and the ports only. -/

namespace Sys2Proof.Machine

/-- What a pixel may change: the Color registers and the ports. -/
structure PixelState where
  regs : ColorRegs
  ports : Ports
deriving DecidableEq, Repr

/-! ### Random draws (R433) -/

/-- One `Rand()` if the configuration needs it; an absent value is not read. -/
def drawIf (needed : Bool) (p : Ports) : Int × Ports := if needed then p.rand else (0, p)

/-- The dither values of a pixel and the draws they take: at most one for cdith, then at most one for adith
(R432, R433). -/
def ditherDraw (m : OtherModes) (x y : BitVec 10) (p : Ports) : DitherVals × Ports :=
  let first := drawIf (cdithDraws m) p
  let second := drawIf (adithDraws m) first.2
  (ditherTable m x.toNat y.toNat first.1 second.1, second.2)

/-- The noise operand and the draw it takes, if some slot of an active cycle selects it (R390). -/
def noiseDraw (g : Settings) (p : Ports) : Int × Ports :=
  let draw := drawIf (readsOperand g .noise) p
  (noiseOf draw.1, draw.2)

/-! ### Texture and combiner -/

/-- `LodSelect` of a pixel: the divide outputs at it and at its one-ahead points (R280, R281). -/
def pixelLod (g : Settings) (prim : Prim) (pin : PixelIn) : LodResult :=
  let c := texDivide g.cfg pin.point
  let ax := texDivide g.cfg pin.ahead.x
  let ay := texDivide g.cfg pin.ahead.y
  lodSelect g prim ⟨c.1, c.2, ax.1, ax.2, ay.1, ay.2⟩

/-- The texels of a 1-cycle pixel: `texel0`, and the next pixel's texel in `nexttexel` and `texel1` (R247, R368;
log 21). -/
def texelsOne (g : Settings) (m : Memory) (lod : LodResult) (pin : PixelIn) (regs : ColorRegs) : ColorRegs :=
  let ahead := texturePipeline g m (texDivide g.cfg pin.next) lod.t1 false regs.texel0
  { regs with
    texel0 := texturePipeline g m (texDivide g.cfg pin.point) lod.t1 false regs.texel0
    nexttexel := ahead
    texel1 := ahead }

/-- The texels of a 2-cycle pixel (R248, R369). -/
def texelsTwo (g : Settings) (m : Memory) (lod : LodResult) (pin : PixelIn) (regs : ColorRegs) : ColorRegs :=
  let v := texDivide g.cfg pin.point
  let first := texturePipeline g m v lod.t1 false regs.texel0
  { regs with
    texel0 := first
    texel1 := texturePipeline g m v lod.t2 true first }

/-- One evaluation of the combiner into `combined` (R385). -/
def combineInto (g : Settings) (sel : CycleSel) (noise lodFrac : Int) (regs : ColorRegs) : ColorRegs :=
  { regs with combined := combineCycle g sel ⟨regs, noise, lodFrac⟩ }

/-- The Color registers of a 1-cycle pixel up to `combined`: the cycle-1 selector set (R247, R387). -/
def frontOne (g : Settings) (m : Memory) (prim : Prim) (pin : PixelIn) (noise : Int) (regs : ColorRegs) : ColorRegs :=
  let lod := pixelLod g prim pin
  combineInto g g.cc.cycle1 noise lod.lodFrac (texelsOne g m lod pin { regs with shade := pin.shade })

/-- The Color registers of a 2-cycle pixel up to `combined`: both selector sets in turn (R248, R387). -/
def frontTwo (g : Settings) (m : Memory) (prim : Prim) (pin : PixelIn) (noise : Int) (regs : ColorRegs) : ColorRegs :=
  let lod := pixelLod g prim pin
  combineInto g g.cc.cycle1 noise lod.lodFrac
    (combineInto g g.cc.cycle0 noise lod.lodFrac (texelsTwo g m lod pin { regs with shade := pin.shade }))

/-! ### Memory, depth, eligibility -/

/-- The memory color and coverage of a pixel (R402): from `FbRead`, or the fixed values without `image_read_en`. -/
def memoryColor (m : OtherModes) (x y : BitVec 10) (p : Ports) : Color × Nat × Ports :=
  if m.imageReadEn then
    let v := (p.fbRead x y).1
    (.ofInts v.mr.toNat v.mg.toNat v.mb.toNat (32 * v.memcvg.toNat), v.memcvg.toNat, (p.fbRead x y).2)
  else (.ofInts 0 0 0 0xE0, 7, p)

/-- `ZRead` when depth is compared (R441), then the depth test; `z_ok` and `farther`, both 1 without it (R443, R445). -/
def depthStage (m : OtherModes) (x y : BitVec 10) (z : BitVec 18) (dz : BitVec 16) (p : Ports) : (Bool × Bool) × Ports :=
  if m.zCompareEn then
    (depthTest m z dz (p.zRead x y).1, (p.zRead x y).2)
  else ((true, true), p)

/-- The blender's input pixel, the coverage count after R423, and whether chroma key lets the pixel be written
(R388, R389, R423; log 17, log 19). -/
structure PixelColor where
  pixel : Color
  cvg : Nat
  keyOk : Bool
deriving DecidableEq, Repr

/-- From `combined` to the blender's input pixel (R385, R389, R423). -/
def pixelColor (g : Settings) (mask : BitVec 8) (adith : Int) (combined : Color) : PixelColor :=
  let key := chromaKey g combined (clampPixel combined)
  let cov := coverageAlpha g.cfg key.1.alpha (cvgCount mask) adith
  ⟨{ key.1 with a := BitVec.ofInt 32 cov.1 }, cov.2, key.2⟩

/-- Emit the writes of an eligible pixel: `FbWrite`, then `ZWrite` with `z_update_en` (R442, R446). -/
def emitWrites (m : OtherModes) (x y : BitVec 10) (c : Rgb) (cvg : BitVec 3) (z : BitVec 18) (dz : BitVec 16)
    (p : Ports) : Ports :=
  let p1 := p.emit (.fbWrite x y (BitVec.ofInt 8 c.r) (BitVec.ofInt 8 c.g) (BitVec.ofInt 8 c.b) cvg)
  if m.zUpdateEn then p1.emit (.zWrite x y z dz) else p1

/-- The blender of the cycle type (R406, R407). -/
def blendPixel (g : Settings) (two prewrap blendEn : Bool) (regs : ColorRegs) : ColorRegs × Rgb :=
  if two then blendTwoCycle g prewrap blendEn regs else blendOneCycle g prewrap blendEn regs

/-- What a pixel has learnt before it is written: its colour and coverage, the results of the alpha compare and the depth
test, the memory color and coverage, and the ports after the draws and reads. -/
structure BackEnd where
  color : PixelColor
  alphaOk : Bool
  zOk : Bool
  farther : Bool
  mem : Color
  memcvg : Nat
  ports : Ports

/-- A pixel from `combined` to its last read (R247, R423, R428, R433, R441, R442): alpha, alpha compare, ZRead and depth
test, FbRead. The reads do not wait on eligibility (log 22). -/
def backEnd (g : Settings) (pin : PixelIn) (adith : Int) (ps : PixelState) : BackEnd :=
  let pc := pixelColor g pin.mask adith ps.regs.combined
  let draw := drawIf (thresholdDraws g.cfg) ps.ports
  let source := depthSource g pin.z pin.dz
  let depth := depthStage g.cfg pin.x pin.y source.1 source.2 draw.2
  let mem := memoryColor g.cfg pin.x pin.y depth.2
  { color := pc
    alphaOk := alphaCompare g pc.pixel.alpha draw.1
    zOk := depth.1.1
    farther := depth.1.2
    mem := mem.1
    memcvg := mem.2.1
    ports := mem.2.2 }

/-- `WriteEligible` (R422): the coverage test, the alpha compare, the depth test and chroma key. -/
def eligible (g : Settings) (mask : BitVec 8) (b : BackEnd) : Bool :=
  coverageOk g.cfg b.color.cvg mask && b.alphaOk && b.zOk && b.color.keyOk

/-- The blend, the dither and the writes of an eligible pixel (R247, R406, R407, R424, R425, R436, R446). -/
def writePixel (g : Settings) (two : Bool) (pin : PixelIn) (cdith : Option Int) (b : BackEnd) (regs : ColorRegs) :
    PixelState :=
  let prewrap := prewrapOf b.color.cvg b.memcvg
  let blendEn := blendEnOf g.cfg prewrap b.farther
  let out := blendPixel g two prewrap blendEn regs
  let source := depthSource g pin.z pin.dz
  { regs := out.1
    ports := emitWrites g.cfg pin.x pin.y (ditherRgb g.cfg cdith out.2)
      (coverageOut g.cfg blendEn b.color.cvg b.memcvg) source.1 source.2 b.ports }

/-- A pixel from `combined` on (R247): the write if it is eligible, then `pre_memory` (R402;
its value at a primitive's first pixel is log 39's). -/
def finishPixel (g : Settings) (two : Bool) (pin : PixelIn) (dith : DitherVals) (ps : PixelState) : PixelState :=
  let b := backEnd g pin dith.adith ps
  let regs := { ps.regs with pixel := b.color.pixel, memory := b.mem }
  let out := if eligible g pin.mask b then writePixel g two pin dith.cdith b regs else { regs := regs, ports := b.ports }
  { out with regs := { out.regs with preMemory := b.mem } }

/-! ### The four cycle types -/

/-- The 1-cycle pixel sequence (R247). -/
def drawOne (g : Settings) (m : Memory) (prim : Prim) (pin : PixelIn) (ps : PixelState) : PixelState :=
  let dith := ditherDraw g.cfg pin.x pin.y ps.ports
  let noise := noiseDraw g dith.2
  finishPixel g false pin dith.1 ⟨frontOne g m prim pin noise.1 ps.regs, noise.2⟩

/-- The 2-cycle pixel sequence (R248). -/
def drawTwo (g : Settings) (m : Memory) (prim : Prim) (pin : PixelIn) (ps : PixelState) : PixelState :=
  let dith := ditherDraw g.cfg pin.x pin.y ps.ports
  let noise := noiseDraw g dith.2
  finishPixel g true pin dith.1 ⟨frontTwo g m prim pin noise.1 ps.regs, noise.2⟩

/-- The copy sequence (R250): `texel0`, and what `CopyModePixel` lets be written of it (log 18, log 31). That the Color
register `shade` is not written here, though R246 forms the value, is the model's choice (DESIGN CHOICE, log 33). -/
def drawCopy (g : Settings) (m : Memory) (prim : Prim) (pin : PixelIn) (ps : PixelState) : PixelState :=
  let t0 := texturePipeline g m (texDivide g.cfg pin.point) prim.tile false ps.regs.texel0
  let draws := ps.ports.rands (Config.copyModeDraws g.cfg.effective g.blendColor pin.x pin.y t0)
  { regs := { ps.regs with texel0 := t0 }
    ports := match Config.copyModePixel g.cfg.effective g.blendColor pin.x pin.y t0 draws.1 with
      | some cvg => draws.2.emit (.fbWrite pin.x pin.y (t0.r.setWidth 8) (t0.g.setWidth 8) (t0.b.setWidth 8) cvg)
      | none => draws.2 }

/-- The fill sequence (R249): one `FbFill` and nothing else. That the Color register `shade` is not written here, though
R246 forms the value, is the model's choice (DESIGN CHOICE, log 33). -/
def drawFill (g : Settings) (pin : PixelIn) (ps : PixelState) : PixelState :=
  { ps with ports := ps.ports.emit (.fbFill pin.x pin.y g.fillColor) }

/-- A pixel, by the cycle type (R32). -/
def drawPixel (g : Settings) (m : Memory) (prim : Prim) (ps : PixelState) (pin : PixelIn) : PixelState :=
  match cycleType g.cfg with
  | .one => drawOne g m prim pin ps
  | .two => drawTwo g m prim pin ps
  | .copy => drawCopy g m prim pin ps
  | .fill => drawFill g pin ps

/-- The pixels of a primitive, in order (R245). -/
def drawPixels (g : Settings) (m : Memory) (prim : Prim) (ps : PixelState) (pins : List PixelIn) : PixelState :=
  pins.foldl (drawPixel g m prim) ps

/-- Draw a primitive (R187, R188): walk its edges into the span buffer, then its pixels. Its first pixel finds the
Color registers, `pre_memory` among them, as the last pixel of the earlier primitive left them (DEDUCED, log 39). -/
def State.drawPrim (s : State) (prim : Prim) : State :=
  let ps := drawPixels s.settings s.tmem prim ⟨s.regs, s.ports⟩ (primPixels s.settings prim s.spans)
  { s with spans := edgeWalk s.settings prim s.spans, regs := ps.regs, ports := ps.ports }

end Sys2Proof.Machine
end

