-- ==== Sys2Proof/Machine/DrawCommands.lean ====
section
/-! DEFINITION. The drawing command (40_commands.md §3): FILL_RECTANGLE. -/

namespace Sys2Proof.Machine

/-- FILL_RECTANGLE (R187): draw the rectangle in the current cycle type; the lower edge of fill and copy is in the edge
walker (`lowerEdge`). -/
def execFillRectangle (xl yl xh yh : BitVec 12) (s : State) : Host.Outcome State Fault Refusal :=
  .next (s.drawPrim (rectanglePrimitive xh yh xl yl))

end Sys2Proof.Machine
end

