-- ==== Sys2Proof/Machine/Loads.lean ====
section
/-! DEFINITION. The TMEM write sequences of the loads (43_tmem_fetch.md R340 to R346): rectangle, block, palette, and the
palette load of other sizes. Each reads through the accessor, emits its Trace events and writes TMEM. -/

namespace Sys2Proof.Machine

/-- `bpp`, the bytes of a texel for `ti_size` 1, 2, 3 (R340); a load with `ti_size = 0` never gets here. -/
def bytesPerTexel (size : BitVec 2) : Nat := if size = 1 then 1 else if size = 2 then 2 else 4

/-- What a load may change. -/
structure LoadState where
  tmem : Memory
  ports : Ports
deriving DecidableEq, Repr

/-- Write a 32-bit texel as two halves, the upper at word `w`, the lower at `w | 0x400` (R313, R344). -/
def storeSplit (m : Memory) (w : Nat) (v : Nat) : Memory :=
  writeTmem16 (writeTmem16 m w (BitVec.ofNat 16 (v / 65536))) (w + 0x400) (BitVec.ofNat 16 v)

/-- `StoreTexel(i, z, s, t, v)` (R341), at the address a fetch of (s, t) reads (R314). -/
def storeTexel (size : BitVec 2) (tile : Tile) (m : Memory) (s t v : Nat) : Memory :=
  if size = 1 then writeTmem8 m (byteAddr tile s t) (BitVec.ofNat 8 v)
  else if size = 2 then writeTmem16 m (wordAddr tile s t) (BitVec.ofNat 16 v)
  else storeSplit m (word32Addr tile s t) v

/-- Store `n` texels from texel column `s` on, in row `t`, from their bytes in address order (R341). -/
def storeRow (size : BitVec 2) (tile : Tile) (t : Nat) : (n : Nat) → (s : Nat) → List Byte → Memory → Memory
  | 0, _, _, m => m
  | n + 1, s, bs, m =>
    storeRow size tile t n (s + 1) (bs.drop (bytesPerTexel size))
      (storeTexel size tile m s t (beValue (bs.take (bytesPerTexel size))))

/-- The source address of texel (s, t) of the texture image, modulo 2^24 (R110, R341). -/
def texelAddress (image : TexImage) (s t : Nat) : BitVec 24 :=
  image.address + BitVec.ofNat 24 ((t * image.width.toNat + s) * bytesPerTexel image.size)

/-- The number of texels from index `lo` to index `hi`, both included; 0 if `hi < lo` (R341 to R343). -/
def texelCount (lo hi : Nat) : Nat := hi + 1 - lo

/-- Row `T0 + j` of `LoadTileRect` (R341): read it, trace it, store it as row `j`. -/
def loadRow (image : TexImage) (tile : Tile) (ls : LoadState) (j : Nat) : LoadState :=
  let s0 := tile.bounds.sl.toNat / 4
  let n := texelCount s0 (tile.bounds.sh.toNat / 4)
  let (bs, p) := ls.ports.readRun (texelAddress image s0 (tile.bounds.tl.toNat / 4 + j)) (n * bytesPerTexel image.size)
  ⟨storeRow image.size tile j n 0 bs ls.tmem, p⟩

/-- `LoadTileRect(i)` (R341). -/
def loadTileRect (image : TexImage) (tile : Tile) (ls : LoadState) : LoadState :=
  (List.range (texelCount (tile.bounds.tl.toNat / 4) (tile.bounds.th.toNat / 4))).foldl (loadRow image tile) ls

/-- The bounds of a LOAD_TILE stand in crossed order (R184), fraction bits included. -/
def crossedBounds (b : TileBounds) : Bool := decide (b.sh.toNat < b.sl.toNat) || decide (b.th.toNat < b.tl.toNat)

/-- What LOAD_TILE loads (R184): the rectangle of R341, and no texel where a bound order is crossed. The two rules differ
where the bounds cross within one texel, which R341 alone would count: R184's words are the command's (DEDUCED, log 37). -/
def loadTileOrdered (image : TexImage) (tile : Tile) (ls : LoadState) : LoadState :=
  if crossedBounds tile.bounds then ls else loadTileRect image tile ls

/-- The row parity of the dxt counter (R342): bit 11 of `j * dxt`. -/
def dxtOdd (dxt j : Nat) : Bool := (j * dxt / 2048) % 2 = 1

/-- The word index of texel `k` of a block load of 32-bit texels (R342). -/
def blockWord32 (tile : Tile) (dxt k : Nat) : Nat :=
  ((4 * tile.shape.tmem.toNat + k) ^^^ (if dxtOdd dxt (k / 4) then 2 else 0)) % 0x400

/-- Store one 64-bit source word of a block load (R342): whole, its halves swapped in odd rows, or, with 32-bit texels, as
two split texels. -/
def storeBlockWord (size : BitVec 2) (tile : Tile) (dxt j : Nat) (v : Dword) (m : Memory) : Memory :=
  if size = 3 then
    storeSplit (storeSplit m (blockWord32 tile dxt (2 * j)) (v.extractLsb' 32 32).toNat)
      (blockWord32 tile dxt (2 * j + 1)) (v.extractLsb' 0 32).toNat
  else
    writeTmem64 m (tile.shape.tmem.toNat + j)
      (if dxtOdd dxt j then v.extractLsb' 0 32 ++ v.extractLsb' 32 32 else v)

/-- Store `n` source words from word `j` on (R342). -/
def storeBlock (size : BitVec 2) (tile : Tile) (dxt : Nat) : (n : Nat) → (j : Nat) → List Byte → Memory → Memory
  | 0, _, _, m => m
  | n + 1, j, bs, m =>
    storeBlock size tile dxt n (j + 1) (bs.drop 8)
      (storeBlockWord size tile dxt j (BitVec.ofNat 64 (beValue (bs.take 8))) m)

/-- The number of 64-bit source words of a block load (R342). -/
def blockWords (image : TexImage) (sl sh : BitVec 12) : Nat :=
  (texelCount sl.toNat sh.toNat * bytesPerTexel image.size + 7) / 8

/-- `LoadBlockLinear(i, sl, tl, sh, dxt)` (R342): sl and tl are whole texel indices. -/
def loadBlockLinear (image : TexImage) (tile : Tile) (sl tl sh dxt : BitVec 12) (ls : LoadState) : LoadState :=
  let words := blockWords image sl sh
  let (bs, p) := ls.ports.readRun (texelAddress image sl.toNat tl.toNat) (8 * words)
  ⟨storeBlock image.size tile dxt.toNat words 0 bs ls.tmem, p⟩

/-- The four copies of a palette entry, from word `w` on (R343). -/
def storeEntry (m : Memory) (w : Nat) (v : Half) : Memory :=
  writeTmem16 (writeTmem16 (writeTmem16 (writeTmem16 m w v) (w + 1) v) (w + 2) v) (w + 3) v

/-- Store `n` palette entries from entry `k` on (R343). -/
def storeEntries (tile : Tile) : (n : Nat) → (k : Nat) → List Byte → Memory → Memory
  | 0, _, _, m => m
  | n + 1, k, bs, m =>
    storeEntries tile n (k + 1) (bs.drop 2)
      (storeEntry m (4 * tile.shape.tmem.toNat + 4 * k) (BitVec.ofNat 16 (beValue (bs.take 2))))

/-- `LoadTlut(i)` (R343), `ti_size = 2`. -/
def loadTlutEntries (image : TexImage) (tile : Tile) (ls : LoadState) : LoadState :=
  let e0 := tile.bounds.sl.toNat / 4
  let n := texelCount e0 (tile.bounds.sh.toNat / 4)
  let (bs, p) := ls.ports.readRun (texelAddress image e0 (tile.bounds.tl.toNat / 4)) (2 * n)
  ⟨storeEntries tile n 0 bs ls.tmem, p⟩

/-- Read runs of source bytes, in order. -/
def readRuns : List (BitVec 24 × Nat) → Ports → List (List Byte) × Ports
  | [], p => ([], p)
  | (a, n) :: rest, p =>
    let (bs, p1) := p.readRun a n
    let (bss, p2) := readRuns rest p1
    (bs :: bss, p2)

/-- `LoadBankSort(TLUT, ti_size)` (R346): reads through the accessor and writes TMEM only (log 16). -/
def loadBankSort (image : TexImage) (tile : Tile) (ls : LoadState) : LoadState :=
  let (bss, p) := readRuns (Config.loadBankSortRuns image tile) ls.ports
  ⟨writeBytes ls.tmem (Config.loadBankSortWrites image tile bss), p⟩

/-- Run a load on the state: it changes TMEM and the ports. -/
def State.load (s : State) (f : LoadState → LoadState) : State :=
  let ls := f ⟨s.tmem, s.ports⟩
  { s with tmem := ls.tmem, ports := ls.ports }

end Sys2Proof.Machine
end

