-- ==== Sys2Proof/Machine/LoadCommands.lean ====
section
/-! DEFINITION. The load commands (40_commands.md §2): LOAD_TILE, LOAD_BLOCK, LOAD_TLUT. Each writes the tile's bounds,
then raises the configuration fault if `ti_size = 0`, else loads (R465). -/

namespace Sys2Proof.Machine

/-- After the bounds are written: the fault of a 4-bit image, or the load (R184 to R186, R461). -/
def State.loadChecked (s : State) (f : LoadState → LoadState) : State :=
  if s.settings.texImage.size = 0 then raiseConfigFault s .load4Bit else s.load f

/-- LOAD_TILE (R184). -/
def execLoadTile (tile : BitVec 3) (b : TileBounds) (s : State) : Host.Outcome State Fault Refusal :=
  let s1 := s.setBounds tile b
  .next (s1.loadChecked (loadTileOrdered s1.settings.texImage (s1.settings.tile tile)))

/-- LOAD_BLOCK (R185): `th` holds dxt. -/
def execLoadBlock (tile : BitVec 3) (sl tl sh dxt : BitVec 12) (s : State) : Host.Outcome State Fault Refusal :=
  let s1 := s.setBounds tile ⟨sl, tl, sh, dxt⟩
  .next (s1.loadChecked (loadBlockLinear s1.settings.texImage (s1.settings.tile tile) sl tl sh dxt))

/-- LOAD_TLUT (R186): 16-bit entries four times each; the other sizes are `LoadBankSort`. -/
def execLoadTlut (tile : BitVec 3) (b : TileBounds) (s : State) : Host.Outcome State Fault Refusal :=
  let s1 := s.setBounds tile b
  let image := s1.settings.texImage
  let t := s1.settings.tile tile
  .next (s1.loadChecked (if image.size = 2 then loadTlutEntries image t else loadBankSort image t))

end Sys2Proof.Machine
end

