-- ==== Sys2Proof/Machine/RegisterCommands.lean ====
section
/-! DEFINITION. The register commands (40_commands.md §4): SET_FILL_COLOR, SET_PRIM_DEPTH, SET_CONVERT,
SET_TEXTURE_IMAGE. -/

namespace Sys2Proof.Machine

/-- SET_FILL_COLOR (R189). -/
def execSetFillColor (value : Word) (s : State) : Host.Outcome State Fault Refusal :=
  .next (s.configure [.fillColor] { s.settings with fillColor := value })

/-- SET_PRIM_DEPTH (R190). -/
def execSetPrimDepth (z : BitVec 15) (dz : BitVec 16) (s : State) : Host.Outcome State Fault Refusal :=
  .next (s.configure [.primDepth] { s.settings with primZ := z, primDz := dz })

/-- SET_CONVERT (R191). -/
def execSetConvert (k : ConvertConsts) (s : State) : Host.Outcome State Fault Refusal :=
  .next (s.configure [.convert] { s.settings with convert := k })

/-- SET_TEXTURE_IMAGE (R192). -/
def execSetTextureImage (format : BitVec 3) (size : BitVec 2) (width : BitVec 11) (address : BitVec 24) (s : State) :
    Host.Outcome State Fault Refusal :=
  .next (s.configure [.texImage] { s.settings with texImage := ⟨format, size, width, address⟩ })

end Sys2Proof.Machine
end

