-- ==== Sys2Proof/Machine/SyncCommands.lean ====
section
/-! DEFINITION. Synchronisation and no-op (40_commands.md §5). Every earlier command is already complete (R121), so a sync
orders nothing further (R123; log 28). -/

namespace Sys2Proof.Machine

/-- NOP (R197): no state change, no event. -/
def execNop (s : State) : Host.Outcome State Fault Refusal := .next s

/-- SYNC_LOAD (R195): no state change. -/
def execSyncLoad (s : State) : Host.Outcome State Fault Refusal := .next s

/-- SYNC_PIPE (R193): no state change. -/
def execSyncPipe (s : State) : Host.Outcome State Fault Refusal := .next s

/-- SYNC_TILE (R194): no state change. -/
def execSyncTile (s : State) : Host.Outcome State Fault Refusal := .next s

/-- SYNC_FULL (R196, R467): the event `FullSync(cmd_index)`. -/
def execSyncFull (s : State) : Host.Outcome State Fault Refusal := .next (s.emit (.fullSync s.cmdIndex))

end Sys2Proof.Machine
end

