-- ==== Sys2Proof/Machine/Dispatch.lean ====
section
/-! DEFINITION. The meaning of every command (30_encoding.md R144, 40_commands.md). -/

namespace Sys2Proof.Machine

def exec (i : Instr) (s : State) : Host.Outcome State Fault Refusal :=
  match i with
  | .nop => Sys2Proof.Machine.execNop s
  | .syncLoad => Sys2Proof.Machine.execSyncLoad s
  | .syncPipe => Sys2Proof.Machine.execSyncPipe s
  | .syncTile => Sys2Proof.Machine.execSyncTile s
  | .syncFull => Sys2Proof.Machine.execSyncFull s
  | .setConvert k => Sys2Proof.Machine.execSetConvert k s
  | .setPrimDepth z dz => Sys2Proof.Machine.execSetPrimDepth z dz s
  | .setOtherModes m => Sys2Proof.Machine.execSetOtherModes m s
  | .loadTlut tile b => Sys2Proof.Machine.execLoadTlut tile b s
  | .setTileSize tile b => Sys2Proof.Machine.execSetTileSize tile b s
  | .loadBlock tile sl tl sh dxt => Sys2Proof.Machine.execLoadBlock tile sl tl sh dxt s
  | .loadTile tile b => Sys2Proof.Machine.execLoadTile tile b s
  | .setTile tile d => Sys2Proof.Machine.execSetTile tile d s
  | .fillRectangle xl yl xh yh => Sys2Proof.Machine.execFillRectangle xl yl xh yh s
  | .setFillColor value => Sys2Proof.Machine.execSetFillColor value s
  | .setTextureImage format size width address => Sys2Proof.Machine.execSetTextureImage format size width address s

end Sys2Proof.Machine
end

