-- ==== Sys2Proof/Machine/HostEntries.lean ====
section
/-! DEFINITION. The host entries that are no commands (60_exceptions.md R468): INIT, configuration writes, primitives,
ReadCrashed. -/

namespace Sys2Proof.Machine

/-- INIT (R480, R481, R485): tiles, Color registers and TMEM 0, `crashed` 0, `cmd_index` 0; nothing else changes, and no
port request is issued. -/
def hostInit (s : State) : State :=
  { s with
    settings := { s.settings with tiles := Vector.replicate 8 .zero }
    regs := .zero
    tmem := []
    crashed := false
    cmdIndex := 0 }

/-- The selector set of a cycle (R40). -/
def selectorsOf (cc : CombinerSel) (cycle1 : Bool) : CycleSel := if cycle1 then cc.cycle1 else cc.cycle0

/-- Write one slot of `cc` (R470). -/
def setCcSlot (cc : CombinerSel) (cycle1 : Bool) (slot : Slot) (op : Operand) : CombinerSel :=
  if cycle1 then { cc with cycle1 := setSlot cc.cycle1 slot op } else { cc with cycle0 := setSlot cc.cycle0 slot op }

/-- The registers a configuration write sets (R470): those whose `unset` mark it takes off. -/
def cfgRegisters : CfgWrite → List Register
  | .ccSlot cycle1 slot _ => [.cc cycle1 slot]
  | .ccAll _ => allSlots.map (.cc false) ++ allSlots.map (.cc true)
  | .primColor _ => [.primColor]
  | .envColor _ => [.envColor]
  | .fogColor _ => [.fogColor]
  | .blendColor _ => [.blendColor]
  | .primLodFrac _ => [.primLodFrac]
  | .minLevel _ => [.minLevel]
  | .keyCenter _ => [.keyCenter]
  | .keyScale _ => [.keyScale]
  | .keyWidth _ => [.keyWidth]
  | .clip _ => [.clip]

/-- The settings after a configuration write (R470). -/
def cfgSettings (g : Settings) : CfgWrite → Settings
  | .ccSlot cycle1 slot op => { g with cc := setCcSlot g.cc cycle1 slot op }
  | .ccAll cc => { g with cc := cc }
  | .primColor v => { g with primColor := v }
  | .envColor v => { g with envColor := v }
  | .fogColor v => { g with fogColor := v }
  | .blendColor v => { g with blendColor := v }
  | .primLodFrac v => { g with primLodFrac := v }
  | .minLevel v => { g with minLevel := v }
  | .keyCenter v => { g with keyCenter := v }
  | .keyScale v => { g with keyScale := v }
  | .keyWidth v => { g with keyWidth := v }
  | .clip v => { g with clip := v }

/-- The operand a configuration write puts in a slot that does not list it, if there is one (R380). -/
def cfgBadOperand : CfgWrite → Option (Slot × Operand)
  | .ccSlot _ slot op => if slot.accepts op then none else some (slot, op)
  | .ccAll cc => (badSlot? cc.cycle0).or (badSlot? cc.cycle1)
  | .primColor _ | .envColor _ | .fogColor _ | .blendColor _ | .primLodFrac _ | .minLevel _ | .keyCenter _
  | .keyScale _ | .keyWidth _ | .clip _ => none

/-- `CFG register=value` (R470): a bad operand refuses, every other value is stored. -/
def hostCfg (c : CfgWrite) (s : State) : Host.Outcome State Fault Refusal :=
  match cfgBadOperand c with
  | some (slot, op) => .refused (.badOperand slot op)
  | none => .next (s.configure (cfgRegisters c) (cfgSettings s.settings c))

/-- `PRIM record` (R188): drawn by the rules of FILL_RECTANGLE. -/
def hostPrim (p : Prim) (s : State) : State := s.drawPrim p

/-- `ReadCrashed` (R469): the value of `crashed` goes to the host and nothing of the block changes (log 23). -/
def hostReadCrashed (s : State) : State := { s with reply := some s.crashed }

end Sys2Proof.Machine
end

