-- ==== Sys2Proof/Machine/Step.lean ====
section
/-! DEFINITION. One step of the block: the oldest host entry, executed to completion (00_scope.md R8, 60_exceptions.md R468,
R471). There is no program counter (R75): the host delivers commands, and `inbox` holds those it has delivered
(log 4). -/

namespace Sys2Proof.Machine

/-- A command's index is counted once its effects are done: `cmd_index` advances after the events that record it
(R75, R471). -/
def State.countCommand (s : State) : State := { s with cmdIndex := s.cmdIndex + 1 }

/-- `Exec(w0, w1)` (R140, R145, R468): decode, execute, count. An unknown opcode refuses before anything (R465). -/
def stepExec (w0 w1 : Word) (s : State) : Host.Outcome State Fault Refusal :=
  match decode w0 w1 with
  | .error _ => .refused (.unknownOpcode (opcodeOf (w0 ++ w1)))
  | .ok i =>
    match exec i s with
    | .next t => .next t.countCommand
    | .fault f => .fault f
    | .refused r => .refused r

/-- One host entry (R468). -/
def stepEntry (e : HostEntry) (s : State) : Host.Outcome State Fault Refusal :=
  match e with
  | .exec w0 w1 => stepExec w0 w1 s
  | .init => .next (hostInit s)
  | .cfg c => hostCfg c s
  | .prim p => .next (hostPrim p s)
  | .readCrashed => .next (hostReadCrashed s)

/-- One step: none from a refused state (R61); with no entry delivered the block waits (log 4). -/
def step (s : State) : Host.Outcome State Fault Refusal :=
  if s.refused then .refused .alreadyRefused
  else
    match s.inbox with
    | [] => .next s
    | e :: rest => stepEntry e { s with inbox := rest }

/-- The state that carries the spec's mark of a refusal (R61): what stands after `.refused`, and has no further step
(log 3). -/
def State.afterRefusal (s : State) : State := { s with refused := true }

/-- Deliver the command whose table word is `w` as the entry the next step executes (log 4, log 6). -/
def State.withFetchWord (s : State) (nbits w : Nat) : State :=
  { s with inbox := .exec (tableWords nbits w).1 (tableWords nbits w).2 :: s.inbox }

end Sys2Proof.Machine
end

