-- ==== Sys2Proof/Safety.lean ====
section
/-! DEFINITION. What claims use to speak of good states and runs: the invariant of every step, and the reads of registers
that nothing has written (10_state.md R48, 70_reset_and_hazards.md R484), which this model lets run (log 2). -/

namespace Sys2Proof.Machine

/-! ### The invariant -/

/-- Every lane of a Color register lies in `0 .. bound`. -/
def Color.within (bound : Int) (c : Color) : Prop :=
  (0 ≤ c.lane .r ∧ c.lane .r ≤ bound) ∧ (0 ≤ c.lane .g ∧ c.lane .g ≤ bound) ∧
    (0 ≤ c.lane .b ∧ c.lane .b ≤ bound) ∧ (0 ≤ c.alpha ∧ c.alpha ≤ bound)

/-- R63, R383, R246: lanes beyond 0..255 occur only in the texels and `combined`; `combined` holds nine-bit values, and
`shade` is clamped. -/
def ColorRegs.InRange (r : ColorRegs) : Prop :=
  r.combined.within 0x1FF ∧ r.shade.within 255 ∧ r.pixel.within 255 ∧ r.invPixel.within 255 ∧
    r.blendedPixel.within 255 ∧ r.memory.within 255 ∧ r.preMemory.within 255

/-- The canonical form of the span buffer: scanline numbers rising strictly from `lo` on and below SPAN_COUNT, and no
listed entry is the default one (R66, R251). -/
def SpanBuffer.entriesOk : Nat → List (Nat × SpanEntry) → Prop
  | _, [] => True
  | lo, (y, e) :: rest =>
    lo ≤ y ∧ y < Config.spanCount ∧ e ≠ SpanEntry.default ∧ SpanBuffer.entriesOk (y + 1) rest

/-- The invariant that every step keeps: TMEM in canonical form (R100), operands only in slots that list them (R380), a
texture width of 1 to 1024 (R47), Color registers in their ranges, and the span buffer in canonical form (R66). -/
structure State.Inv (s : State) : Prop where
  tmem : s.tmem.wf = true
  operands : s.settings.cc.wellFormed = true
  width : widthOk s.settings.texImage.width = true
  colors : s.regs.InRange
  spans : SpanBuffer.entriesOk 0 s.spans.entries

/-! ### What drawing a primitive does -/

/-- The scanlines a primitive writes (R232, R251): `[yh >> 2, yl >> 2]`, with the lower edge of R187 in fill and copy,
for a host's primitive too (log 13). -/
def writesScanline (g : Settings) (p : Prim) (y : Nat) : Prop :=
  y < Config.spanCount ∧ p.yh.toInt / 4 ≤ y ∧ y ≤ (lowerEdge g.cfg p).yl.toInt / 4

/-- Sub-scanline `k` of scanline `y` lies in the valid y range after clipping (R231, R232); the lower end is log 12's. -/
def subLineInRange (g : Settings) (p : Prim) (y : Nat) (k : Fin 4) : Prop :=
  max p.yh.toInt g.clip.yh.toNat ≤ 4 * y + k.val ∧ 4 * y + k.val < min (lowerEnd g p) g.clip.yl.toNat

/-- The contents of a valid span entry: the largest left and the least right bound of its sub-scanlines in range, the
start values of the disabled attributes 0, and the pixel bounds of a rectangle with whole-pixel corners (R234, R235, R241;
the right one is log 11's, the reading of `lft` log 10's). -/
structure SpanContents (g : Settings) (p : Prim) (y : Nat) (b : SpanBody) : Prop where
  lx : ∃ k, subLineInRange g p y k ∧ b.lx = (if p.lft then b.majorx else b.minorx)[k.val]
  left : ∀ k, subLineInRange g p y k → (if p.lft then b.majorx else b.minorx)[k.val] ≤ b.lx
  rx : ∃ k, subLineInRange g p y k ∧ b.rx = (if p.lft then b.minorx else b.majorx)[k.val]
  right : ∀ k, subLineInRange g p y k → b.rx ≤ (if p.lft then b.minorx else b.majorx)[k.val]
  shade : p.shadeEn = false → b.start.r = 0 ∧ b.start.g = 0 ∧ b.start.b = 0 ∧ b.start.a = 0
  texture : p.texEn = false → b.start.s = 0 ∧ b.start.t = 0 ∧ b.start.w = 0
  depth : p.zEn = false → b.start.z = 0
  rectangle : ∀ c, wholeCorners p = some c →
    b.lx = c.left ∧ b.rx = if fillOrCopy g.cfg then c.right else c.right - 1

/-- What a primitive leaves in the span buffer (R66, R232, R235, R242): its scanlines' entries are valid exactly where the
primitive is not empty (log 36) and a sub-scanline is in range, an invalid one keeps its contents (log 7), the other
scanlines keep their entries, and the increments are the primitive's, those of disabled attributes 0 (log 14). -/
structure SpansWritten (g : Settings) (p : Prim) (old new : SpanBuffer) : Prop where
  kept : ∀ y, ¬ writesScanline g p y → new.entry y = old.entry y
  valid : ∀ y, writesScanline g p y →
    ((new.entry y).valid = true ↔ rectEmpty p = false ∧ ∃ k, subLineInRange g p y k)
  invalid : ∀ y, writesScanline g p y → (new.entry y).valid = false → (new.entry y).body = (old.entry y).body
  contents : ∀ y, writesScanline g p y → (new.entry y).valid = true → SpanContents g p y (new.entry y).body
  delta : new.delta = gateAttrs p p.dx

/-- `t` is `s` after drawing `p` (R187, R188, R245, R252): the primitive's pixels run through the stages in order, its
spans are written, and nothing else changes. -/
structure Drawn (s : State) (p : Prim) (t : State) : Prop where
  pixels : ⟨t.regs, t.ports⟩ = drawPixels s.settings s.tmem p ⟨s.regs, s.ports⟩ (primPixels s.settings p s.spans)
  spans : SpansWritten s.settings p s.spans t.spans
  frame : t = { s with regs := t.regs, spans := t.spans, ports := t.ports }

/-! ### The bytes a load stores to -/

/-- The byte addresses of the 16-bit word `w` (R101, R102). -/
def wordBytes (w : Nat) : List Nat := [2 * (w % 2048), 2 * (w % 2048) + 1]

/-- The byte addresses of texel (s, t) of a tile, for texels of `size` (R341, R344). -/
def texelBytes (size : BitVec 2) (tile : Tile) (s t : Nat) : List Nat :=
  if size = 1 then [byteAddr tile s t % 4096]
  else if size = 2 then wordBytes (wordAddr tile s t)
  else wordBytes (word32Addr tile s t) ++ wordBytes (word32Addr tile s t + 0x400)

/-- The byte addresses `LoadTileRect` stores to (R341). -/
def tileRectBytes (image : TexImage) (tile : Tile) : List Nat :=
  (List.range (texelCount (tile.bounds.tl.toNat / 4) (tile.bounds.th.toNat / 4))).flatMap (fun j =>
    (List.range (texelCount (tile.bounds.sl.toNat / 4) (tile.bounds.sh.toNat / 4))).flatMap (fun s =>
      texelBytes image.size tile s j))

/-- The byte addresses source word `j` of a block load is stored to (R342). -/
def blockWordBytes (size : BitVec 2) (tile : Tile) (dxt j : Nat) : List Nat :=
  if size = 3 then
    [blockWord32 tile dxt (2 * j), blockWord32 tile dxt (2 * j + 1)].flatMap (fun w =>
      wordBytes w ++ wordBytes (w + 0x400))
  else (List.range 8).map (fun i => 8 * ((tile.shape.tmem.toNat + j) % 512) + i)

/-- The byte addresses `LoadBlockLinear` stores to (R342). -/
def blockBytes (image : TexImage) (tile : Tile) (sl sh dxt : BitVec 12) : List Nat :=
  (List.range (blockWords image sl sh)).flatMap (blockWordBytes image.size tile dxt.toNat)

/-- The byte addresses of the four copies of palette entry `k` (R343). -/
def entryBytes (tile : Tile) (k : Nat) : List Nat :=
  (List.range 4).flatMap (fun b => wordBytes (4 * tile.shape.tmem.toNat + 4 * k + b))

/-- The byte addresses `LoadTlut` stores to (R343). -/
def tlutBytes (tile : Tile) : List Nat :=
  (List.range (texelCount (tile.bounds.sl.toNat / 4) (tile.bounds.sh.toNat / 4))).flatMap (entryBytes tile)

/-- The source runs `LoadTileRect` reads, one per row (R341): first byte address and length. -/
def tileRuns (image : TexImage) (tile : Tile) : List (BitVec 24 × Nat) :=
  (List.range (texelCount (tile.bounds.tl.toNat / 4) (tile.bounds.th.toNat / 4))).map (fun j =>
    (texelAddress image (tile.bounds.sl.toNat / 4) (tile.bounds.tl.toNat / 4 + j),
      texelCount (tile.bounds.sl.toNat / 4) (tile.bounds.sh.toNat / 4) * bytesPerTexel image.size))

/-! ### The bits of a command word that belong to a field -/

/-- The bits of the fields of a command, by its opcode (R150 to R160); no bit of the others is read (R143). -/
def fieldMask (op : BitVec 6) : Dword :=
  if op = 0x2C then 0x003FFFFFFFFFFFFF
  else if op = 0x2E then 0x000000007FFFFFFF
  else if op = 0x2F then 0x00BFFFF0FFFF7FFF
  else if op = 0x30 ∨ op = 0x32 ∨ op = 0x33 ∨ op = 0x34 then 0x00FFFFFF07FFFFFF
  else if op = 0x35 then 0x00FBFFFF07FFFFFF
  else if op = 0x36 then 0x00FFFFFF00FFFFFF
  else if op = 0x37 then 0x00000000FFFFFFFF
  else if op = 0x3D then 0x00F803FF00FFFFFF
  else 0

/-- The opcodes of the command surface (R144). -/
def commandOpcodes : List (BitVec 6) :=
  [0x00, 0x26, 0x27, 0x28, 0x29, 0x2C, 0x2E, 0x2F, 0x30, 0x32, 0x33, 0x34, 0x35, 0x36, 0x37, 0x3D]

/-- The load commands (R106). -/
def isLoad : Instr → Bool
  | .loadTile _ _ | .loadTlut _ _ | .loadBlock _ _ _ _ _ => true
  | .nop | .syncLoad | .syncPipe | .syncTile | .syncFull | .setConvert _ | .setPrimDepth _ _ | .setOtherModes _
  | .setTileSize _ _ | .setTile _ _ | .fillRectangle _ _ _ _ | .setFillColor _ | .setTextureImage _ _ _ _ => false

/-- The bits of the opcode (R140). -/
def opcodeMask : Dword := 0x3F00000000000000

/-! ### Reads of unset registers (R48) -/

/-- The registers a combiner operand reads. -/
def operandRegisters : Operand → List Register
  | .prim | .primAlpha => [.primColor]
  | .env | .envAlpha => [.envColor]
  | .keyCenter => [.keyCenter]
  | .keyScale => [.keyScale]
  | .k4 | .k5 => [.convert]
  | .primLodFrac => [.primLodFrac]
  | .combined | .texel0 | .texel1 | .shade | .one | .noise | .zero | .combinedAlpha | .texel0Alpha | .texel1Alpha
  | .shadeAlpha | .lodFrac => []

/-- The slots of the active cycles, each with the operand it holds (R387). -/
def activeSlots (g : Settings) : List (Register × Operand) :=
  match cycleType g.cfg with
  | .one => allSlots.map (fun sl => (.cc true sl, slotOf g.cc.cycle1 sl))
  | .two =>
    allSlots.map (fun sl => (.cc false sl, slotOf g.cc.cycle0 sl)) ++
      allSlots.map (fun sl => (.cc true sl, slotOf g.cc.cycle1 sl))
  | .copy | .fill => []

/-- The registers one blender cycle may read beside the Color registers (R403). -/
def blendRegisters (sel : BlendSel) : List Register :=
  (if sel.p = 2 ∨ sel.m = 2 then [.blendColor] else []) ++
    (if sel.p = 3 ∨ sel.m = 3 ∨ sel.a = 1 then [.fogColor] else [])

/-- The registers the stages of a 1-cycle or 2-cycle pixel may read. -/
def stageRegisters (g : Settings) : List Register :=
  (activeSlots g).map Prod.fst ++ (activeSlots g).flatMap (fun p => operandRegisters p.2) ++
    (if doLod g then [.minLevel] else []) ++
    (if g.cfg.biLerp0 && (g.cfg.biLerp1 || cycleType g.cfg != .two) then [] else [.convert]) ++
    blendRegisters (blendSel g.cfg false) ++
    (if cycleType g.cfg = .two then blendRegisters (blendSel g.cfg true) else []) ++
    (if g.cfg.alphaCompareEn && !g.cfg.ditherAlphaEn then [.blendColor] else []) ++
    (if g.cfg.zSourceSel then [.primDepth] else []) ++
    (if g.cfg.keyEn then [.keyCenter, .keyScale, .keyWidth] else [])

/-- The registers a primitive may read (R187, R243, R249, R250, R484). -/
def drawRegisters (g : Settings) : List Register :=
  [.cfg, .clip] ++
    match cycleType g.cfg with
    | .fill => [.fillColor]
    | .copy => [.blendColor] ++ (if g.cfg.biLerp0 then [] else [.convert])
    | .one | .two => stageRegisters g

/-- The registers a command may read (40_commands.md). -/
def commandRegisters (g : Settings) : Instr → List Register
  | .loadTile _ _ | .loadTlut _ _ | .loadBlock _ _ _ _ _ => [.texImage]
  | .fillRectangle _ _ _ _ => drawRegisters g
  | .nop | .syncLoad | .syncPipe | .syncTile | .syncFull => []
  | .setConvert _ | .setPrimDepth _ _ | .setOtherModes _ | .setTileSize _ _ | .setTile _ _ => []
  | .setFillColor _ | .setTextureImage _ _ _ _ => []

/-- The command reads no register that the spec marks `unset`: where this fails, R48 refuses and this model runs with the
value log 1 names (log 2). A claim that must not rest on those values takes this as a premise. -/
def readsOnlySet (s : State) (i : Instr) : Bool :=
  (commandRegisters s.settings i).all (fun r => decide (r ∉ s.unset))

end Sys2Proof.Machine
end

