-- ==== Sys2Proof/Certificates/Slice0/Obligations.lean ====
section
/-! DEFINITION. The statements for the provers: what the numbered rules of spec/ say the commands and the block do. -/

section Statements

open Sys2Proof Sys2Proof.Machine

/-! ### Encoding -/

/-- Every well-formed command is decoded back from its own two words, every operand at every value (R140, R142, R150 to
R160). -/
def Obligations.DecodeEncode : Prop :=
  ∀ i : Instr, i.wellFormed = true → decode (encode i).1 (encode i).2 = .ok i

/-- R143: bits of no field are ignored: two command words that agree on the opcode and on the fields of its layout decode
alike. -/
def Obligations.IgnoredBits : Prop :=
  ∀ c c' : Dword,
    c &&& (opcodeMask ||| fieldMask (opcodeOf c)) = c' &&& (opcodeMask ||| fieldMask (opcodeOf c)) →
    decodeCmd c = decodeCmd c'

/-- What the decoder answers is well formed and carries the opcode of the words; it answers for the opcodes of R144 and
no other, refusing the rest by name (R144, R145, R47). -/
def Obligations.DecodeSound : Prop :=
  ∀ w0 w1 : Word,
    (∀ i : Instr, decode w0 w1 = .ok i → i.wellFormed = true ∧ opcodeOf (w0 ++ w1) = i.opcode) ∧
    (opcodeOf (w0 ++ w1) ∉ commandOpcodes → decode w0 w1 = .error (.unknownOpcode (opcodeOf (w0 ++ w1)))) ∧
    (opcodeOf (w0 ++ w1) ∈ commandOpcodes → ∃ i : Instr, decode w0 w1 = .ok i)

/-- Words written out from the layouts of R150 to R160 decode to the commands they stand for. -/
def Obligations.DecodeWords : Prop :=
  decode 0x35680500 0x015D3D51 = .ok (.setTile 1 ⟨3, 1, 2, 0x100, 5, true, true, 4, 15, false, true, 5, 1⟩) ∧
  decode 0xF5680500 0xF95D3D51 = .ok (.setTile 1 ⟨3, 1, 2, 0x100, 5, true, true, 4, 15, false, true, 5, 1⟩) ∧
  decode 0x33000000 0x070FF200 = .ok (.loadBlock 7 0 0 255 512) ∧
  decode 0x36010010 0x00000000 = .ok (.fillRectangle 16 16 0 0) ∧
  decode 0x2E000000 0xFFFF0000 = .ok (.setPrimDepth 0x7FFF 0) ∧
  decode 0x2C3FF007 0xF801007F = .ok (.setConvert ⟨0x1FF, 0x100, 0xFF, 0, 0x80, 0x7F⟩) ∧
  decode 0x3D1003FF 0x00000000 = .ok (.setTextureImage 0 2 1024 0) ∧
  decode 0x29FFFFFF 0xFFFFFFFF = .ok .syncFull

/-- An unknown opcode is refused by name before anything else happens (R145, R465); that the refusal is a step's outcome
is the model's choice (log 3). -/
def Obligations.UnknownOpcodeRefused : Prop :=
  ∀ (s : State) (w0 w1 : Word) (rest : List HostEntry),
    s.refused = false → s.inbox = .exec w0 w1 :: rest → opcodeOf (w0 ++ w1) ∉ commandOpcodes →
    step s = .refused (.unknownOpcode (opcodeOf (w0 ++ w1)))

/-- A step on a delivered command runs the decoded instruction on the state without that entry, then counts it (R75,
R468, R471); the inbox of delivered entries is the model's (log 4). -/
def Obligations.StepRunsDecoded : Prop :=
  ∀ (s : State) (w0 w1 : Word) (rest : List HostEntry) (i : Instr),
    s.refused = false → s.inbox = .exec w0 w1 :: rest → decode w0 w1 = .ok i →
    step s = (match exec i { s with inbox := rest } with
      | .next t => .next { t with cmdIndex := t.cmdIndex + 1 }
      | .fault f => .fault f
      | .refused r => .refused r)

/-! ### Configuration and register commands -/

/-- SET_OTHER_MODES writes every field of `cfg` at once and nothing else (R180); the mark `unset` of `cfg` goes (R48,
log 2). -/
def Obligations.SetOtherModesWrites : Prop :=
  ∀ (m : OtherModes) (s : State),
    exec (.setOtherModes m) s =
      .next { s with settings := { s.settings with cfg := m }, unset := s.unset.filter (fun r => r ∉ [Register.cfg]) }

/-- SET_TILE writes the thirteen fields of tile `i`; its bounds, the other tiles and everything else stay (R181). -/
def Obligations.SetTileWrites : Prop :=
  ∀ (i : BitVec 3) (d : TileShape) (s : State), ∃ t : State,
    exec (.setTile i d) s = .next t ∧
    t.settings.tile i = ⟨d, (s.settings.tile i).bounds⟩ ∧
    (∀ j : BitVec 3, j ≠ i → t.settings.tile j = s.settings.tile j) ∧
    t = { s with settings := { s.settings with tiles := t.settings.tiles } }

/-- SET_TILE_SIZE writes the bounds of tile `i`; its other fields, the other tiles and everything else stay (R182). -/
def Obligations.SetTileSizeWrites : Prop :=
  ∀ (i : BitVec 3) (b : TileBounds) (s : State), ∃ t : State,
    exec (.setTileSize i b) s = .next t ∧
    t.settings.tile i = ⟨(s.settings.tile i).shape, b⟩ ∧
    (∀ j : BitVec 3, j ≠ i → t.settings.tile j = s.settings.tile j) ∧
    t = { s with settings := { s.settings with tiles := t.settings.tiles } }

/-- R189: SET_FILL_COLOR stores `cmd[31:0]`, any value, and changes nothing else but the marks `unset`. -/
def Obligations.SetFillColorWrites : Prop :=
  (∀ w0 w1 : Word, opcodeOf (w0 ++ w1) = 0x37 → decode w0 w1 = .ok (.setFillColor w1)) ∧
  ∀ (v : Word) (s : State), ∃ t : State,
    exec (.setFillColor v) s = .next t ∧
    t = { s with settings := { s.settings with fillColor := v }, unset := t.unset }

/-- SET_PRIM_DEPTH stores `cmd[30:16]` and `cmd[15:0]` and changes nothing else (R190); the mark `unset` goes (R48,
log 2). -/
def Obligations.SetPrimDepthWrites : Prop :=
  (∀ w0 w1 : Word, opcodeOf (w0 ++ w1) = 0x2E →
    decode w0 w1 = .ok (.setPrimDepth (w1.extractLsb' 16 15) (w1.extractLsb' 0 16))) ∧
  ∀ (z : BitVec 15) (dz : BitVec 16) (s : State),
    exec (.setPrimDepth z dz) s =
      .next { s with settings := { s.settings with primZ := z, primDz := dz },
                     unset := s.unset.filter (fun r => r ∉ [Register.primDepth]) }

/-- SET_CONVERT stores K0 to K5 and changes nothing else; the derived factors lie in -511..511 and are odd, the least at
K = 0x100 and the greatest at K = 0xFF (R191, R46); the mark `unset` goes (R48, log 2). -/
def Obligations.SetConvertWrites : Prop :=
  ∀ (k : ConvertConsts) (s : State),
    exec (.setConvert k) s =
      .next { s with settings := { s.settings with convert := k },
                     unset := s.unset.filter (fun r => r ∉ [Register.convert]) } ∧
    -511 ≤ convertFactor k.k0 ∧ convertFactor k.k0 ≤ 511 ∧ convertFactor k.k0 % 2 = 1 ∧
    convertFactor k.k0 = (if k.k0.toNat < 256 then (k.k0.toNat : Int) else k.k0.toNat - 512) * 2 + 1 ∧
    convertFactor 0x100 = -511 ∧ convertFactor 0xFF = 511

/-- SET_TEXTURE_IMAGE stores format, size, width and address and changes nothing else; the width decoded from a command
word is the field plus one (R192, R142); the mark `unset` goes (R48, log 2). -/
def Obligations.SetTextureImageWrites : Prop :=
  (∀ w0 w1 : Word, opcodeOf (w0 ++ w1) = 0x3D → ∃ width : BitVec 11,
    decode w0 w1 = .ok (.setTextureImage (w0.extractLsb' 21 3) (w0.extractLsb' 19 2) width (w1.extractLsb' 0 24)) ∧
    width.toNat = (w0.extractLsb' 0 10).toNat + 1) ∧
  ∀ (f : BitVec 3) (z : BitVec 2) (w : BitVec 11) (a : BitVec 24) (s : State),
    exec (.setTextureImage f z w a) s =
      .next { s with settings := { s.settings with texImage := ⟨f, z, w, a⟩ },
                     unset := s.unset.filter (fun r => r ∉ [Register.texImage]) }

/-- R193, R194, R195, R197: NOP and the syncs other than SYNC_FULL change no state and emit no event. -/
def Obligations.SyncsChangeNothing : Prop :=
  ∀ s : State, exec .nop s = .next s ∧ exec .syncLoad s = .next s ∧ exec .syncPipe s = .next s ∧
    exec .syncTile s = .next s

/-- R196, R467: SYNC_FULL appends `FullSync(cmd_index)` to the event history and changes nothing else. -/
def Obligations.SyncFullNotifies : Prop :=
  ∀ s : State, exec .syncFull s =
    .next { s with ports := { s.ports with events := s.ports.events ++ [.fullSync s.cmdIndex] } }

/-! ### Loads -/

/-- The state a faulting load leaves: its bounds written, `crashed` set, the event recorded, nothing else (R184, R185,
R186, R347, R460, R461). In a state whose texture image registers still carry the mark `unset`, as at reset, R48 would
refuse: that the load reads the size 0 there and faults is the model's choice (log 1, log 2). -/
def Obligations.LoadsFault : Prop :=
  ∀ (s : State) (i : BitVec 3) (b : TileBounds), s.settings.texImage.size = 0 →
    ∃ t : State, exec (.loadTile i b) s = .next t ∧ exec (.loadTlut i b) s = .next t ∧
      exec (.loadBlock i b.sl b.tl b.sh b.th) s = .next t ∧
      t.settings.tile i = ⟨(s.settings.tile i).shape, b⟩ ∧
      (∀ j : BitVec 3, j ≠ i → t.settings.tile j = s.settings.tile j) ∧
      t.crashed = true ∧ t.tmem = s.tmem ∧
      t.ports = { s.ports with events := s.ports.events ++ [.fault .load4Bit s.cmdIndex] } ∧
      t = { s with settings := { s.settings with tiles := t.settings.tiles }, crashed := true, ports := t.ports }

/-- LOAD_TILE with a texel size completes: the bounds are written, the rows' bytes are read in order, and no byte of TMEM
outside the stored texels changes; Color registers, spans and flags stay (R184, R341, R345). Crossed bounds load no texel:
no read and no TMEM byte changed (R184; within one texel R341 alone would count one, log 37). -/
def Obligations.LoadTileCompletes : Prop :=
  ∀ (s : State) (i : BitVec 3) (b : TileBounds), s.settings.texImage.size ≠ 0 →
    ∃ t : State, exec (.loadTile i b) s = .next t ∧
      t.settings.tile i = ⟨(s.settings.tile i).shape, b⟩ ∧
      (∀ j : BitVec 3, j ≠ i → t.settings.tile j = s.settings.tile j) ∧
      t.ports = (readRuns (if b.sh.toNat < b.sl.toNat ∨ b.th.toNat < b.tl.toNat then []
        else tileRuns s.settings.texImage (t.settings.tile i)) s.ports).2 ∧
      (s.tmem.wf = true → ∀ a : Nat,
        (b.sh.toNat < b.sl.toNat ∨ b.th.toNat < b.tl.toNat) ∨
          a % 4096 ∉ tileRectBytes s.settings.texImage (t.settings.tile i) →
        tmem8 t.tmem a = tmem8 s.tmem a) ∧
      t = { s with settings := { s.settings with tiles := t.settings.tiles }, tmem := t.tmem, ports := t.ports }

/-- R341's read-back property: after LOAD_TILE, its bounds in order, into a tile of the image's size whose stored texels do
not overlap, texel (S - S0, T - T0) of the tile reads, with the palette off, the bytes read for (S, T), big-endian. -/
def Obligations.LoadTileReadBack : Prop :=
  ∀ (s t : State) (i : BitVec 3) (b : TileBounds),
    s.settings.texImage.size ≠ 0 → s.tmem.wf = true → b.sl.toNat ≤ b.sh.toNat → b.tl.toNat ≤ b.th.toNat →
    (s.settings.tile i).shape.size = s.settings.texImage.size →
    (tileRectBytes s.settings.texImage ⟨(s.settings.tile i).shape, b⟩).Nodup →
    exec (.loadTile i b) s = .next t →
    ∀ j k : Nat, j < texelCount (b.tl.toNat / 4) (b.th.toNat / 4) → k < texelCount (b.sl.toNat / 4) (b.sh.toNat / 4) →
      rawTexel false t.tmem (t.settings.tile i) k j =
        beValue (((((readRuns (tileRuns s.settings.texImage (t.settings.tile i)) s.ports).1.getD j []).drop
          (k * bytesPerTexel s.settings.texImage.size)).take (bytesPerTexel s.settings.texImage.size)))

/-- LOAD_BLOCK with a texel size completes: `th` takes dxt, the whole words that hold the texels are read in one run, and
no byte of TMEM outside the stored words changes (R185, R342, R345). -/
def Obligations.LoadBlockCompletes : Prop :=
  ∀ (s : State) (i : BitVec 3) (sl tl sh dxt : BitVec 12), s.settings.texImage.size ≠ 0 →
    ∃ t : State, exec (.loadBlock i sl tl sh dxt) s = .next t ∧
      t.settings.tile i = ⟨(s.settings.tile i).shape, ⟨sl, tl, sh, dxt⟩⟩ ∧
      (∀ j : BitVec 3, j ≠ i → t.settings.tile j = s.settings.tile j) ∧
      t.ports = (s.ports.readRun (texelAddress s.settings.texImage sl.toNat tl.toNat)
        (8 * blockWords s.settings.texImage sl sh)).2 ∧
      (s.tmem.wf = true → ∀ a : Nat, a % 4096 ∉ blockBytes s.settings.texImage (t.settings.tile i) sl sh dxt →
        tmem8 t.tmem a = tmem8 s.tmem a) ∧
      t = { s with settings := { s.settings with tiles := t.settings.tiles }, tmem := t.tmem, ports := t.ports }

/-- What LOAD_BLOCK stores, for up to 512 words: word j of the source at double word `tmem + j`, its halves swapped in the
odd rows of the dxt counter, for 8-bit and 16-bit texels; for 32-bit texels the two halves of word j as texels 2j and
2j + 1, each split over the halves of TMEM, with the row of texel k from k / 4 (R342, R344). -/
def Obligations.LoadBlockStores : Prop :=
  ∀ (s t : State) (i : BitVec 3) (sl tl sh dxt : BitVec 12),
    s.settings.texImage.size ≠ 0 → s.tmem.wf = true →
    blockWords s.settings.texImage sl sh ≤ 512 →
    exec (.loadBlock i sl tl sh dxt) s = .next t →
    ∀ j : Nat, j < blockWords s.settings.texImage sl sh → ∀ v : Dword,
      v = BitVec.ofNat 64 (beValue (((s.ports.readRun (texelAddress s.settings.texImage sl.toNat tl.toNat)
        (8 * blockWords s.settings.texImage sl sh)).1.drop (8 * j)).take 8)) →
      (s.settings.texImage.size ≠ 3 →
        tmem64 t.tmem ((s.settings.tile i).shape.tmem.toNat + j) =
          if (j * dxt.toNat / 2048) % 2 = 1 then v.extractLsb' 0 32 ++ v.extractLsb' 32 32 else v) ∧
      (s.settings.texImage.size = 3 → ∀ (c k w : Nat) (x : Word), c < 2 → k = 2 * j + c →
        w = ((4 * (s.settings.tile i).shape.tmem.toNat + k) ^^^
          (if (k / 4 * dxt.toNat / 2048) % 2 = 1 then 2 else 0)) % 1024 →
        x = (if c = 0 then v.extractLsb' 32 32 else v.extractLsb' 0 32) →
        tmem16 t.tmem w = x.extractLsb' 16 16 ∧ tmem16 t.tmem (w + 1024) = x.extractLsb' 0 16)

/-- LOAD_TLUT with 16-bit entries completes: it reads its entries' bytes in one run, each covering word once and in order,
then traces it, and changes no byte of TMEM outside the entries' copies (R186, R343, R112, R345). -/
def Obligations.LoadTlutCompletes : Prop :=
  ∀ (s : State) (i : BitVec 3) (b : TileBounds), s.settings.texImage.size = 2 →
    ∃ t : State, exec (.loadTlut i b) s = .next t ∧
      t.settings.tile i = ⟨(s.settings.tile i).shape, b⟩ ∧
      (∀ j : BitVec 3, j ≠ i → t.settings.tile j = s.settings.tile j) ∧
      (∀ (a : BitVec 24) (n : Nat), a = texelAddress s.settings.texImage (b.sl.toNat / 4) (b.tl.toNat / 4) →
        n = 2 * texelCount (b.sl.toNat / 4) (b.sh.toNat / 4) →
        t.ports.events = s.ports.events ++ (coveringWords a n).map .memRead ++ (if n = 0 then [] else [.trace a n])) ∧
      (s.tmem.wf = true → ∀ a : Nat, a % 4096 ∉ tlutBytes (t.settings.tile i) → tmem8 t.tmem a = tmem8 s.tmem a) ∧
      t = { s with settings := { s.settings with tiles := t.settings.tiles }, tmem := t.tmem, ports := t.ports }

/-- What LOAD_TLUT stores: entry k four times, at words `4 * tmem + 4 * k + b` for b from 0 to 3 (R343). -/
def Obligations.LoadTlutStores : Prop :=
  ∀ (s t : State) (i : BitVec 3) (b : TileBounds),
    s.settings.texImage.size = 2 → s.tmem.wf = true →
    texelCount (b.sl.toNat / 4) (b.sh.toNat / 4) ≤ 512 →
    exec (.loadTlut i b) s = .next t →
    ∀ k c : Nat, k < texelCount (b.sl.toNat / 4) (b.sh.toNat / 4) → c < 4 →
      tmem16 t.tmem (4 * (s.settings.tile i).shape.tmem.toNat + 4 * k + c) =
        BitVec.ofNat 16 (beValue (((s.ports.readRun (texelAddress s.settings.texImage (b.sl.toNat / 4) (b.tl.toNat / 4))
          (2 * texelCount (b.sl.toNat / 4) (b.sh.toNat / 4))).1.drop (2 * k)).take 2))

/-- LOAD_TLUT of 8-bit or 32-bit entries completes: what it reads and writes is `LoadBankSort`, a free value of Config,
and nothing but the bounds, TMEM and the ports changes (R186, R346; the form of the parameter is the model's, log 16). -/
def Obligations.LoadTlutOtherSizes : Prop :=
  ∀ (s : State) (i : BitVec 3) (b : TileBounds), s.settings.texImage.size = 1 ∨ s.settings.texImage.size = 3 →
    ∃ t : State, exec (.loadTlut i b) s = .next t ∧
      t.settings.tile i = ⟨(s.settings.tile i).shape, b⟩ ∧
      (∀ j : BitVec 3, j ≠ i → t.settings.tile j = s.settings.tile j) ∧
      t.tmem = writeBytes s.tmem (Config.loadBankSortWrites s.settings.texImage (t.settings.tile i)
        (readRuns (Config.loadBankSortRuns s.settings.texImage (t.settings.tile i)) s.ports).1) ∧
      t.ports = (readRuns (Config.loadBankSortRuns s.settings.texImage (t.settings.tile i)) s.ports).2 ∧
      t = { s with settings := { s.settings with tiles := t.settings.tiles }, tmem := t.tmem, ports := t.ports }

/-- A load of no texel writes the bounds and does nothing else: no read, no trace, no TMEM write (R184, R341, R342,
R343, R345). That LOAD_TILE loads none where its bounds cross within one texel is R184's, against R341's count (log 37). -/
def Obligations.EmptyLoads : Prop :=
  ∀ (s : State) (i : BitVec 3) (b : TileBounds), s.settings.texImage.size ≠ 0 →
    (b.sh.toNat < b.sl.toNat ∨ b.th.toNat < b.tl.toNat →
      exec (.loadTile i b) s = .next (s.setBounds i b)) ∧
    (b.sh.toNat / 4 < b.sl.toNat / 4 → s.settings.texImage.size = 2 →
      exec (.loadTlut i b) s = .next (s.setBounds i b)) ∧
    (b.sh.toNat < b.sl.toNat → exec (.loadBlock i b.sl b.tl b.sh b.th) s = .next (s.setBounds i b))

/-! ### Drawing -/

/-- FILL_RECTANGLE completes in every state, cycle type and operand, and so does a primitive of the host, and what they do
is said whole: the primitive's pixels run through the stages of the cycle type in order, its spans are written, and nothing
but the Color registers, the ports and the span buffer changes (R187, R188, R232, R234, R235, R240, R245, R252). In a state
where a register the drawing reads still carries the mark `unset`, as `cfg` at reset, R48 would refuse: that it completes
there is the model's choice (log 2). So are, by their logs: the contents an invalid entry keeps (7), the middle edge of a
rectangle and the reading of `lft` (10), the right bound of a rectangle's span and the order of its pixels (11), the lower
end of the range in one corner (12), `yl | 3` for a host primitive (13), the increments of disabled attributes (14), the
register `shade` in copy and fill (33), which host records are empty rectangles (36), and that the Color registers stay from
the earlier primitive to this one's first pixel (39). -/
def Obligations.DrawsComplete : Prop :=
  (∀ (xl yl xh yh : BitVec 12) (s : State), ∃ t : State,
    exec (.fillRectangle xl yl xh yh) s = .next t ∧ Drawn s (rectanglePrimitive xh yh xl yl) t) ∧
  ∀ (s : State) (p : Prim) (rest : List HostEntry), s.refused = false → s.inbox = .prim p :: rest →
    ∃ t : State, step s = .next t ∧ Drawn { s with inbox := rest } p t

/-- FILL_RECTANGLE in fill mode with whole-pixel corners: one `FbFill` with the fill color for every pixel of the rectangle,
both corners included, inside the clip rectangle, row by row and in increasing x; and nothing else but the span buffer
changes (R187, R241, R243, R245, R249). That the last row stands under every clip is the model's choice (log 12), and so
is that it runs where `cfg`, `clip` or `fill_color` still carries the mark `unset`, where R48 would refuse (log 2), and
that `shade` stays with the other Color registers (log 33). -/
def Obligations.FillModeRectangle : Prop :=
  ∀ (xl yl xh yh : BitVec 12) (s : State),
    cycleType s.settings.cfg = .fill →
    xh.toNat % 4 = 0 → yh.toNat % 4 = 0 → xl.toNat % 4 = 0 → yl.toNat % 4 = 0 →
    ∃ t : State, exec (.fillRectangle xl yl xh yh) s = .next t ∧
      t.ports = { s.ports with events := s.ports.events ++
        ((List.range 1024).filter (fun y => decide (yh.toNat / 4 ≤ y ∧ y ≤ yl.toNat / 4 ∧
          s.settings.clip.yh.toNat / 4 ≤ y ∧ y < s.settings.clip.yl.toNat / 4))).flatMap (fun y =>
          ((List.range 1024).filter (fun x => decide (xh.toNat / 4 ≤ x ∧ x ≤ xl.toNat / 4 ∧
            s.settings.clip.xh.toNat / 4 ≤ x ∧ x < s.settings.clip.xl.toNat / 4))).map (fun x =>
            Event.fbFill (BitVec.ofNat 10 x) (BitVec.ofNat 10 y) s.settings.fillColor)) } ∧
      t = { s with spans := t.spans, ports := t.ports }

/-- The pixels of a FILL_RECTANGLE with whole-pixel corners in the 1-cycle and 2-cycle types: the lower-right corner's row
and column excluded, inside the clip rectangle, row by row, each pixel of a row once, every sample covered (R240, R241, R243,
R245). In the 1-cycle type the pixels of a row go in increasing x, as in program P4, the model's reading (log 11); in the
2-cycle type their order is `EdgeWalk`'s, free (log 9). -/
def Obligations.CycleRectanglePixels : Prop :=
  ∀ (xl yl xh yh : BitVec 12) (g : Settings) (b : SpanBuffer),
    cycleType g.cfg = .one ∨ cycleType g.cfg = .two →
    xh.toNat % 4 = 0 → yh.toNat % 4 = 0 → xl.toNat % 4 = 0 → yl.toNat % 4 = 0 →
    ∀ columns : List Nat,
      columns = (List.range 1024).filter (fun x => decide (xh.toNat / 4 ≤ x ∧ x < xl.toNat / 4 ∧
        g.clip.xh.toNat / 4 ≤ x ∧ x < g.clip.xl.toNat / 4)) →
      ∃ order : Nat → List Nat, (∀ y : Nat, (order y).Perm columns) ∧
        (cycleType g.cfg = .one → ∀ y : Nat, order y = columns) ∧
        (primPixels g (rectanglePrimitive xh yh xl yl) b).map (fun p => (p.x, p.y, p.mask)) =
          ((List.range 1024).filter (fun y => decide (yh.toNat / 4 ≤ y ∧ y < yl.toNat / 4 ∧
            g.clip.yh.toNat / 4 ≤ y ∧ y < g.clip.yl.toNat / 4))).flatMap (fun y =>
            (order y).map (fun x => (BitVec.ofNat 10 x, BitVec.ofNat 10 y, 0xFF)))

/-- R242: an empty rectangle draws nothing, marks no span valid and issues no port request, in every cycle type: the entry
of every scanline it writes is not valid after it and keeps its contents, the other entries stay. That an entry marked
invalid keeps its contents is the model's choice (log 7), and so is that the command completes where a register still
carries the mark `unset`, as at reset (V-UNSET-1; log 2). -/
def Obligations.EmptyRectangle : Prop :=
  ∀ (xl yl xh yh : BitVec 12) (s : State), xl.toNat < xh.toNat ∨ yl.toNat < yh.toNat →
    ∃ t : State, exec (.fillRectangle xl yl xh yh) s = .next t ∧
      (∀ y : Nat, y ∈ scanlines s.settings (rectanglePrimitive xh yh xl yl) →
        (t.spans.entry y).valid = false ∧ (t.spans.entry y).body = (s.spans.entry y).body) ∧
      (∀ y : Nat, y ∉ scanlines s.settings (rectanglePrimitive xh yh xl yl) → t.spans.entry y = s.spans.entry y) ∧
      t = { s with spans := t.spans }

/-- R243: no pixel outside the clip rectangle reaches any stage, whatever the primitive and the cycle type. -/
def Obligations.PixelsInsideClip : Prop :=
  ∀ (g : Settings) (p : Prim) (b : SpanBuffer) (pin : PixelIn), pin ∈ primPixels g p b →
    g.clip.xh.toNat / 4 ≤ pin.x.toNat ∧ pin.x.toNat < g.clip.xl.toNat / 4 ∧
    g.clip.yh.toNat / 4 ≤ pin.y.toNat ∧ pin.y.toNat < g.clip.yl.toNat / 4

/-- R249: in fill mode every pixel of a primitive gets one `FbFill` with the fill color and no other request is issued. No
Color register changes: for `shade`, which R246 forms, that is the model's choice (log 33), and so is that a primitive runs
where a register it reads still carries the mark `unset` (log 2). -/
def Obligations.FillModePrimitive : Prop :=
  ∀ (s : State) (p : Prim), cycleType s.settings.cfg = .fill →
    (s.drawPrim p).regs = s.regs ∧
    (s.drawPrim p).ports = { s.ports with events := s.ports.events ++
      (primPixels s.settings p s.spans).map (fun pin => Event.fbFill pin.x pin.y s.settings.fillColor) }

/-- The requests of a 1-cycle or 2-cycle pixel, in order: the random draws the configuration needs, ZRead with
`z_compare_en`, FbRead with `image_read_en`, then FbWrite and, with `z_update_en`, ZWrite of the depth source, exactly
where the pixel passes the coverage test, the alpha compare, the depth test and chroma key (R422, R428, R433, R441, R442,
R445, R446). The model's choices: the reads do not wait on eligibility (log 22), the coverage test takes the count after
R423 (log 19), the alpha compare the alpha after it (log 20), the place of chroma key (log 17), which draws are needed
(log 34), the default depth test (log 24). -/
def Obligations.PixelRequests : Prop :=
  ∀ (g : Settings) (m : Memory) (p : Prim) (pin : PixelIn) (ps ps' : PixelState),
    (cycleType g.cfg = .one ∨ cycleType g.cfg = .two) → drawPixel g m p ps pin = ps' →
    ∀ (noise threshold : Int × Ports) (mem : ZPixel) (key : Color × Bool) (cvg : Nat) (z : BitVec 18) (dz : BitVec 16),
      noise = noiseDraw g (ditherDraw g.cfg pin.x pin.y ps.ports).2 →
      threshold = drawIf (thresholdDraws g.cfg) noise.2 →
      mem = (threshold.2.zRead pin.x pin.y).1 →
      key = chromaKey g ps'.regs.combined (clampPixel ps'.regs.combined) →
      cvg = (if g.cfg.cvgTimesAlpha then ((key.1.alpha * cvgCount pin.mask + 4) / 8 / 32 % 16).toNat
        else cvgCount pin.mask) →
      (z, dz) = depthSource g pin.z pin.dz →
      ∃ (reads writes : List Event) (r gr bl : BitVec 8) (c : BitVec 3),
        reads = List.replicate ((if cdithDraws g.cfg then 1 else 0) + (if adithDraws g.cfg then 1 else 0) +
            (if readsOperand g .noise then 1 else 0) + (if thresholdDraws g.cfg then 1 else 0)) .rand ++
          (if g.cfg.zCompareEn then [.zRead pin.x pin.y] else []) ++
          (if g.cfg.imageReadEn then [.fbRead pin.x pin.y] else []) ∧
        writes = .fbWrite pin.x pin.y r gr bl c :: (if g.cfg.zUpdateEn then [.zWrite pin.x pin.y z dz] else []) ∧
        ps'.ports.events = ps.ports.events ++ reads ++
          (if (if g.cfg.antialiasEn then cvg ≠ 0 else pin.mask.getLsbD 7 = true) ∧
              (g.cfg.alphaCompareEn = true →
                (if g.cfg.ditherAlphaEn then threshold.1 % 256 else g.blendColor.a.toNat) ≤ ps'.regs.pixel.alpha) ∧
              (g.cfg.zCompareEn = true →
                if g.cfg.zMode = 3 then ((z.toNat : Int) - mem.mz.toNat).natAbs ≤ max dz.toNat mem.mdz.toNat
                else z.toNat ≤ mem.mz.toNat) ∧
              key.2 = true
            then writes else [])

/-- After a 1-cycle or 2-cycle pixel `pre_memory` is the pixel's memory color: with `image_read_en` the host's answer to the
pixel's FbRead, the coverage times 32 in the a lane; without it (0, 0, 0, 0xE0) (R402). That every pixel reads is the
model's choice (log 22). -/
def Obligations.MemoryColor : Prop :=
  ∀ (g : Settings) (m : Memory) (p : Prim) (pin : PixelIn) (ps ps' : PixelState),
    (cycleType g.cfg = .one ∨ cycleType g.cfg = .two) → drawPixel g m p ps pin = ps' →
    ps'.regs.preMemory = ps'.regs.memory ∧
    (g.cfg.imageReadEn = false → ps'.regs.memory = ⟨0, 0, 0, 0xE0⟩) ∧
    ∀ (before : Ports) (v : FbPixel),
      before = (let draws := (drawIf (thresholdDraws g.cfg) (noiseDraw g (ditherDraw g.cfg pin.x pin.y ps.ports).2).2).2
        if g.cfg.zCompareEn then (draws.zRead pin.x pin.y).2 else draws) →
      v = (before.fbRead pin.x pin.y).1 → g.cfg.imageReadEn = true →
      ps'.regs.memory = ⟨v.mr.setWidth 32, v.mg.setWidth 32, v.mb.setWidth 32, v.memcvg.setWidth 32 <<< 5⟩

/-- Which Color registers a pixel leaves alone, by the cycle type: `blended_pixel` in 1-cycle, `nexttexel` in 2-cycle, all
but `texel0` in copy, all in fill; that copy and fill leave `shade` alone is the model's choice (log 33); in 1-cycle
`texel1` is `nexttexel`, the model's reading (R62, R246 to R250, R368; log 21). -/
def Obligations.PixelColorFrame : Prop :=
  ∀ (g : Settings) (m : Memory) (p : Prim) (pin : PixelIn) (ps : PixelState) (r : ColorRegs),
    r = (drawPixel g m p ps pin).regs →
    (cycleType g.cfg = .one → r.shade = pin.shade ∧ r.texel1 = r.nexttexel ∧ r.blendedPixel = ps.regs.blendedPixel) ∧
    (cycleType g.cfg = .two → r.shade = pin.shade ∧ r.nexttexel = ps.regs.nexttexel) ∧
    (cycleType g.cfg = .copy → r = { ps.regs with texel0 := r.texel0 }) ∧
    (cycleType g.cfg = .fill → r = ps.regs)

/-! ### Stages -/

/-- R266, R267: without perspective a coordinate passes through the divide and the 16-bit saturation unchanged, with code
0, and W is not read. -/
def Obligations.NoPerspectivePassThrough : Prop :=
  ∀ (m : OtherModes) (p : TexPoint), m.perspTexEn = false →
    sat16 (texDivide m p).1 = p.ss ∧ sat16 (texDivide m p).2 = p.st ∧
    satCode (texDivide m p).1 = 0 ∧ satCode (texDivide m p).2 = 0 ∧
    ∀ w : Half, texDivide m ⟨p.ss, p.st, w⟩ = texDivide m p

/-- R264, R265: with perspective, a W that is not positive always carries the overflow bit of the saturation code; with a
positive W a product that fits 30 bits is in range exactly where it lies within the table entry's shift, which the code
tells: 0 in range, and then the quotient is the product scaled by the entry, 1 below it and 2 above it. The seed tables are
free values (log 8). -/
def Obligations.PerspectiveOverflowCode : Prop :=
  ∀ (m : OtherModes) (p : TexPoint), m.perspTexEn = true →
    (p.sw.toInt ≤ 0 →
      (satCode (texDivide m p).1).getLsbD 1 = true ∧ (satCode (texDivide m p).2).getLsbD 1 = true) ∧
    ∀ (coord : Half) (out : BitVec 19) (prod bound : Int) (shift : Nat), 0 < p.sw.toInt →
      (coord, out) = (p.ss, (texDivide m p).1) ∨ (coord, out) = (p.st, (texDivide m p).2) →
      prod = coord.toInt * (tcdivEntry p.sw.toNat / 16) → shift = (tcdivEntry p.sw.toNat % 16).toNat →
      bound = 2 ^ 29 / 2 ^ shift → -2 ^ 29 ≤ prod → prod < 2 ^ 29 →
      shift ≤ 14 ∧
      (-bound ≤ prod → prod < bound →
        satCode out = 0 ∧ (out.setWidth 17).toInt = prod * 2 ^ shift / 2 ^ 13) ∧
      (prod < -bound → satCode out = 1) ∧ (bound ≤ prod → satCode out = 2)

/-- R279: with no mask, a coordinate inside the tile's bounds maps to its texel and one at or beyond the high bound to the
clamp difference; a coordinate left of the low bound maps to 0 (R274). -/
def Obligations.ClampProperty : Prop :=
  ∀ (ax : TileAxis) (c : Int), ax.mask = 0 → ax.clampEn = true → -32768 ≤ c → c ≤ 32767 → ax.lo < 4096 →
    ((ax.lo : Int) ≤ c / 8 → c / 8 < ax.hi → ((mapShifted ax c).1 : Int) = (c - 8 * ax.lo) / 32) ∧
    ((ax.lo : Int) ≤ c / 8 → (ax.hi : Int) ≤ c / 8 → (mapShifted ax c).1 = ax.clampDiff) ∧
    (c / 8 < ax.lo → (mapShifted ax c).1 = 0)

/-- Every texel coordinate of a masked axis lies below the mask's power of two and below 1024 (R275, R276). -/
def Obligations.WrapBound : Prop :=
  ∀ (ax : TileAxis) (c : Int), 0 < ax.mask → ax.mask ≤ 15 →
    (mapShifted ax c).1 < 2 ^ ax.mask ∧ (mapShifted ax c).1 < 1024

/-- R332, R328: with the palette off the quad fetch is four single fetches; with it on, too, where the four copies of the
palette agree. -/
def Obligations.QuadInvariant : Prop :=
  ∀ (cfg : OtherModes) (m : Memory) (tile : Tile) (s0 s1 t0 t1 : Nat),
    (cfg.enTlut = false ∨ ∀ e k : Nat, e < 256 → k < 4 → tlutEntry m e k = tlutEntry m e 0) →
    fetch4 cfg m tile s0 s1 t0 t1 =
      ⟨fetch1 cfg m tile s0 t0, fetch1 cfg m tile s1 t0, fetch1 cfg m tile s0 t1, fetch1 cfg m tile s1 t1⟩

/-- R383, R384, R386, R388: a combiner lane is a nine-bit value, `clamp9` brings it to 0..255, and with A, B and C zero it
is D's low nine bits. -/
def Obligations.CombinerRange : Prop :=
  ∀ a b c d : Int,
    0 ≤ combineLane a b c d ∧ combineLane a b c d ≤ 0x1FF ∧
    0 ≤ clamp9 (combineLane a b c d) ∧ clamp9 (combineLane a b c d) ≤ 255 ∧
    combineLane 0 0 0 d = d % 512

/-- From operands in 0..255 the blend equation, in its spec default, is the weighted sum of R405 with the factors `A >> 3`
and `(B >> 3) + 1`, over 32 or over their sum, at most 255; it yields 0..255, and the normalised one lies between its two
colours (R405, R411; log 24). -/
def Obligations.BlendRange : Prop :=
  ∀ (shift : Bool) (p a m b : Int), 0 ≤ p → p ≤ 255 → 0 ≤ a → a ≤ 255 → 0 ≤ m → m ≤ 255 → 0 ≤ b → b ≤ 255 →
    blendLane shift p a m b =
      min ((p * (a / 8) + m * (b / 8 + 1)) / (if shift then 32 else a / 8 + b / 8 + 1)) 255 ∧
    0 ≤ blendLane shift p a m b ∧ blendLane shift p a m b ≤ 255 ∧
    (shift = false → min p m ≤ blendLane shift p a m b ∧ blendLane shift p a m b ≤ max p m)

/-- R424: the coverage value written with a pixel, by `cvg_dest`, for a count of 0 to 8 and a memory coverage of 0 to 7. -/
def Obligations.CoverageDestination : Prop :=
  ∀ (m : OtherModes) (blendEn : Bool) (cvg memcvg : Nat), cvg ≤ 8 → memcvg ≤ 7 →
    (coverageOut m blendEn cvg memcvg).toNat =
      if m.cvgDest = 0 then
        (if blendEn then (if 8 ≤ cvg + memcvg then 7 else cvg + memcvg) else (if cvg = 0 then 7 else cvg - 1))
      else if m.cvgDest = 1 then (cvg + memcvg) % 8
      else if m.cvgDest = 2 then 7
      else memcvg

/-- Under a dither value of 0 to 7 a channel keeps its value or takes the rounded-up one, the latter exactly where the
default gate says so, and stays in 0..255 (R435, R436; log 24). -/
def Obligations.DitherChannel : Prop :=
  ∀ d v : Int, 0 ≤ d → d ≤ 7 → 0 ≤ v → v ≤ 255 →
    ditherChannel d v = (if v % 8 ≤ d then (if 247 < v then 255 else v - v % 8 + 8) else v) ∧
    v ≤ ditherChannel d v ∧ ditherChannel d v ≤ 255

/-! ### TMEM -/

/-- R101, R102, R111: a write through the 64-bit view is seen through the 16-bit view, most significant word first, and
through the byte view, most significant byte first and nowhere else; an accessor word's bytes are in the same order. -/
def Obligations.TmemViews : Prop :=
  (∀ (m : Memory) (q : Nat) (v : Dword), m.wf = true →
    (writeTmem64 m q v).wf = true ∧ tmem64 (writeTmem64 m q v) q = v ∧
    (∀ i : Nat, i < 4 → tmem16 (writeTmem64 m q v) (4 * (q % 512) + i) = v.extractLsb' (48 - 16 * i) 16) ∧
    (∀ i : Nat, i < 8 → tmem8 (writeTmem64 m q v) (8 * (q % 512) + i) = v.extractLsb' (56 - 8 * i) 8) ∧
    ∀ a : Nat, a % 4096 / 8 ≠ q % 512 → tmem8 (writeTmem64 m q v) a = tmem8 m a) ∧
  ∀ w : Word, (bytesOfWord w).length = 4 ∧
    ∀ i : Nat, i < 4 → (bytesOfWord w)[i]? = some (w.extractLsb' (24 - 8 * i) 8)

/-- The canonical form: two TMEM contents that read alike at every address are the same data (R100). -/
def Obligations.TmemCanonical : Prop :=
  ∀ m m' : Memory, m.wf = true → m'.wf = true → (∀ a : Nat, tmem8 m a = tmem8 m' a) → m = m'

/-! ### Host entries -/

/-- INIT zeroes the tiles, the Color registers, TMEM and `crashed`, restarts `cmd_index`, and changes nothing else
(R480, R481, R485). -/
def Obligations.InitResets : Prop :=
  ∀ (s : State) (rest : List HostEntry), s.refused = false → s.inbox = .init :: rest →
    ∃ t : State, step s = .next t ∧ (∀ i : BitVec 3, t.settings.tile i = .zero) ∧ t.regs = .zero ∧
      (∀ a : Nat, tmem8 t.tmem a = 0) ∧ t.crashed = false ∧ t.cmdIndex = 0 ∧
      t = { s with settings := { s.settings with tiles := t.settings.tiles }, regs := t.regs, tmem := t.tmem,
                   crashed := false, cmdIndex := 0, inbox := rest }

/-- R482: INIT twice is INIT once. -/
def Obligations.InitIdempotent : Prop := ∀ s : State, hostInit (hostInit s) = hostInit s

/-- `ReadCrashed` gives the host the current value of `crashed` and changes nothing of the block (R469); the field that
carries the answer is the model's (log 23). -/
def Obligations.ReadCrashedReplies : Prop :=
  ∀ (s : State) (rest : List HostEntry), s.refused = false → s.inbox = .readCrashed :: rest →
    step s = .next { s with inbox := rest, reply := some s.crashed }

/-- R470, of a step on a delivered configuration write: each register takes its value, every other register and the rest of
the state stay, and the mark `unset` of that register goes (R48, log 2). A write of a slot of `cc` changes that slot of that
cycle alone; a write of the whole of `cc` sets both cycles. -/
def Obligations.CfgWrites : Prop :=
  ∀ (s : State) (c : CfgWrite) (rest : List HostEntry), s.refused = false → s.inbox = .cfg c :: rest →
    ∀ answer : Settings → List Register → Prop,
      answer = (fun g rs => step s = .next { s with inbox := rest, settings := g,
                                                    unset := s.unset.filter (fun r => r ∉ rs) }) →
      (∀ v, c = .primColor v → answer { s.settings with primColor := v } [.primColor]) ∧
      (∀ v, c = .envColor v → answer { s.settings with envColor := v } [.envColor]) ∧
      (∀ v, c = .fogColor v → answer { s.settings with fogColor := v } [.fogColor]) ∧
      (∀ v, c = .blendColor v → answer { s.settings with blendColor := v } [.blendColor]) ∧
      (∀ v, c = .primLodFrac v → answer { s.settings with primLodFrac := v } [.primLodFrac]) ∧
      (∀ v, c = .minLevel v → answer { s.settings with minLevel := v } [.minLevel]) ∧
      (∀ v, c = .keyCenter v → answer { s.settings with keyCenter := v } [.keyCenter]) ∧
      (∀ v, c = .keyScale v → answer { s.settings with keyScale := v } [.keyScale]) ∧
      (∀ v, c = .keyWidth v → answer { s.settings with keyWidth := v } [.keyWidth]) ∧
      (∀ v, c = .clip v → answer { s.settings with clip := v } [.clip]) ∧
      (∀ v, c = .ccAll v → v.wellFormed = true →
        answer { s.settings with cc := v } (allSlots.map (.cc false) ++ allSlots.map (.cc true))) ∧
      ∀ (cyc : Bool) (slot : Slot) (op : Operand), c = .ccSlot cyc slot op → slot.accepts op = true →
        ∃ cc : CombinerSel, answer { s.settings with cc := cc } [.cc cyc slot] ∧
          slotOf (if cyc then cc.cycle1 else cc.cycle0) slot = op ∧
          ∀ (cyc' : Bool) (slot' : Slot), (cyc', slot') ≠ (cyc, slot) →
            slotOf (if cyc' then cc.cycle1 else cc.cycle0) slot' =
              slotOf (if cyc' then s.settings.cc.cycle1 else s.settings.cc.cycle0) slot'

/-- R380, R470: a configuration write that puts an operand in a slot that does not list it is refused. -/
def Obligations.BadOperandRefused : Prop :=
  ∀ (s : State) (c : CfgWrite), c.wellFormed = false → ∃ (slot : Slot) (op : Operand),
    slot.accepts op = false ∧ hostCfg c s = .refused (.badOperand slot op)

/-- A refused state has no further step, not even INIT (R61); how the mark stands in this model is log 3. -/
def Obligations.RefusedStops : Prop :=
  ∀ s : State, step s.afterRefusal = .refused .alreadyRefused

/-! ### The whole machine -/

/-- R60: no entry but INIT clears `crashed`. -/
def Obligations.CrashedSticky : Prop :=
  ∀ s t : State, step s = .next t → s.inbox.head? ≠ some .init → s.crashed = true → t.crashed = true

/-- R464: only a load with a 4-bit image sets `crashed`. -/
def Obligations.OnlyLoadsFault : Prop :=
  ∀ s t : State, step s = .next t → s.crashed = false → t.crashed = true →
    s.settings.texImage.size = 0 ∧ ∃ (w0 w1 : Word) (i : Instr), s.inbox.head? = some (.exec w0 w1) ∧
      decode w0 w1 = .ok i ∧ isLoad i = true

/-- R461: a command behaves exactly as it would had `crashed` been 0. -/
def Obligations.CrashedGatesNothing : Prop :=
  ∀ (i : Instr) (s t : State) (c : Bool), exec i s = .next t →
    ∃ t' : State, exec i { s with crashed := c } = .next t' ∧ { t' with crashed := t.crashed } = t

/-- R106: TMEM changes only in a load command and in INIT. -/
def Obligations.OnlyLoadsWriteTmem : Prop :=
  ∀ s t : State, step s = .next t → t.tmem ≠ s.tmem →
    s.inbox.head? = some .init ∨ ∃ (w0 w1 : Word) (i : Instr), s.inbox.head? = some (.exec w0 w1) ∧
      decode w0 w1 = .ok i ∧ isLoad i = true

/-- R62: the Color registers change only in FILL_RECTANGLE, a host primitive and INIT; no other command writes them. -/
def Obligations.OnlyDrawsWriteColors : Prop :=
  ∀ s t : State, step s = .next t → t.regs ≠ s.regs →
    s.inbox.head? = some .init ∨ (∃ p : Prim, s.inbox.head? = some (.prim p)) ∨
      ∃ (w0 w1 : Word) (xl yl xh yh : BitVec 12), s.inbox.head? = some (.exec w0 w1) ∧
        decode w0 w1 = .ok (.fillRectangle xl yl xh yh)

/-- R75, R471: `cmd_index` counts `Exec` entries only; INIT restarts it. -/
def Obligations.IndexCountsCommands : Prop :=
  ∀ s t : State, step s = .next t →
    t.cmdIndex = match s.inbox.head? with
      | some (.exec _ _) => s.cmdIndex + 1
      | some .init => 0
      | _ => s.cmdIndex

/-- R115, R110: a step only appends to the event history, and every accessor request it issues is word-aligned. -/
def Obligations.HistoryGrows : Prop :=
  ∀ s t : State, step s = .next t → ∃ new : List Event, t.ports.events = s.ports.events ++ new ∧
    ∀ a : BitVec 24, Event.memRead a ∈ new → a.toNat % 4 = 0

/-- The invariant of Safety is kept by every step: TMEM canonical (R100), operands in slots that list them (R380), the
texture width in 1..1024 (R47), Color registers in their ranges (R63), the span buffer in canonical form (R66). -/
def Obligations.StepKeepsInv : Prop := ∀ s t : State, s.Inv → step s = .next t → t.Inv

/-- The invariant holds after reset, with the values log 1 chose. -/
def Obligations.ResetInv : Prop := State.reset.Inv

/-- R481, R485: what reset leaves, where the spec gives it: tiles, Color registers and TMEM 0, `crashed` 0, `cmd_index`
0. -/
def Obligations.ResetValues : Prop :=
  (∀ i : BitVec 3, State.reset.settings.tile i = .zero) ∧ State.reset.regs = .zero ∧
    (∀ a : Nat, tmem8 State.reset.tmem a = 0) ∧ State.reset.crashed = false ∧ State.reset.cmdIndex = 0

end Statements
end

