-- ==== Sys2Proof/Laws/Ports.lean ====
section
/-! SUPPORT. What a port request does to the event history: it appends, and nothing else (20_memory.md R115). -/

namespace Sys2Proof.Machine

@[simp] theorem Ports.memRead_events (p : Ports) (a : BitVec 24) :
    (p.memRead a).2.events = p.events ++ [.memRead a] := by
  unfold Ports.memRead
  split <;> rfl

@[simp] theorem Ports.fbRead_events (p : Ports) (x y : BitVec 10) :
    (p.fbRead x y).2.events = p.events ++ [.fbRead x y] := by
  unfold Ports.fbRead
  split <;> rfl

@[simp] theorem Ports.zRead_events (p : Ports) (x y : BitVec 10) :
    (p.zRead x y).2.events = p.events ++ [.zRead x y] := by
  unfold Ports.zRead
  split <;> rfl

@[simp] theorem Ports.rand_events (p : Ports) : p.rand.2.events = p.events ++ [.rand] := by
  unfold Ports.rand
  split <;> rfl

/-- A scripted answer is the answer (R110). -/
theorem Ports.memRead_of_script (p : Ports) (a : BitVec 24) (v : Word) (rest : List Word) (h : p.memAnswers = v :: rest) :
    (p.memRead a).1 = v ∧ (p.memRead a).2.memAnswers = rest := by
  unfold Ports.memRead
  rw [h]
  exact ⟨rfl, rfl⟩

@[simp] theorem Ports.rands_events (n : Nat) (p : Ports) :
    (p.rands n).2.events = p.events ++ List.replicate n .rand := by
  induction n generalizing p with
  | zero => simp [Ports.rands]
  | succ n ih => simp [Ports.rands, ih, List.replicate_succ]

@[simp] theorem Ports.rands_length (n : Nat) (p : Ports) : (p.rands n).1.length = n := by
  induction n generalizing p with
  | zero => rfl
  | succ n ih => simp [Ports.rands, ih]

@[simp] theorem Ports.readWords_events (as : List (BitVec 24)) (p : Ports) :
    (Ports.readWords as p).2.events = p.events ++ as.map .memRead := by
  induction as generalizing p with
  | nil => simp [Ports.readWords]
  | cons a rest ih => simp [Ports.readWords, ih]

@[simp] theorem Ports.readWords_length (as : List (BitVec 24)) (p : Ports) :
    (Ports.readWords as p).1.length = as.length := by
  induction as generalizing p with
  | nil => rfl
  | cons a rest ih => simp [Ports.readWords, ih]

/-- Reading a run of bytes: every covering word once, by rising address, then the trace (R111, R112, R117). -/
theorem Ports.readRun_events (p : Ports) (addr : BitVec 24) (len : Nat) :
    (p.readRun addr len).2.events =
      p.events ++ (coveringWords addr len).map .memRead ++ (if len = 0 then [] else [.trace addr len]) := by
  unfold Ports.readRun
  by_cases h : len = 0
  · simp [h, coveringWords]
  · simp [h, Ports.emit]

/-- Reading no byte changes nothing (R345). -/
@[simp] theorem Ports.readRun_zero (p : Ports) (addr : BitVec 24) : p.readRun addr 0 = ([], p) := rfl

/-- Four bytes a word. -/
theorem length_flatMap_bytesOfWord (ws : List Word) : (ws.flatMap bytesOfWord).length = 4 * ws.length := by
  induction ws with
  | nil => rfl
  | cons w rest ih =>
    rw [List.flatMap_cons, List.length_append, ih, List.length_cons]
    simp [bytesOfWord]
    omega

/-- A run of bytes gives as many bytes as were asked for. -/
theorem Ports.readRun_length (p : Ports) (addr : BitVec 24) (len : Nat) : (p.readRun addr len).1.length = len := by
  unfold Ports.readRun
  by_cases h : len = 0
  · simp [h]
  · simp only [h, if_false, List.length_take, List.length_drop, length_flatMap_bytesOfWord, Ports.readWords_length]
    simp only [coveringWords, h, if_false, List.length_map, List.length_range]
    omega

/-- Reading runs in two parts. -/
theorem readRuns_append (a b : List (BitVec 24 × Nat)) (p : Ports) :
    readRuns (a ++ b) p =
      ((readRuns a p).1 ++ (readRuns b (readRuns a p).2).1, (readRuns b (readRuns a p).2).2) := by
  induction a generalizing p with
  | nil => rfl
  | cons r rest ih =>
    obtain ⟨x, n⟩ := r
    simp only [List.cons_append, readRuns, ih]

/-- One list of bytes for each run. -/
theorem readRuns_length (a : List (BitVec 24 × Nat)) (p : Ports) : (readRuns a p).1.length = a.length := by
  induction a generalizing p with
  | nil => rfl
  | cons r rest ih =>
    obtain ⟨x, n⟩ := r
    simp only [readRuns, List.length_cons, ih]

end Sys2Proof.Machine
end

