-- ==== Sys2Proof/Laws/State.lean ====
section
/-! SUPPORT. One lemma per field per update of the state, true by unfolding, so that no proof unfolds a record update. -/

namespace Sys2Proof.Machine

/-! ### `State.configure` -/

@[simp] theorem State.configure_settings (s : State) (w : List Register) (g : Settings) :
    (s.configure w g).settings = g := rfl

@[simp] theorem State.configure_tmem (s : State) (w : List Register) (g : Settings) :
    (s.configure w g).tmem = s.tmem := rfl

@[simp] theorem State.configure_regs (s : State) (w : List Register) (g : Settings) :
    (s.configure w g).regs = s.regs := rfl

@[simp] theorem State.configure_spans (s : State) (w : List Register) (g : Settings) :
    (s.configure w g).spans = s.spans := rfl

@[simp] theorem State.configure_crashed (s : State) (w : List Register) (g : Settings) :
    (s.configure w g).crashed = s.crashed := rfl

@[simp] theorem State.configure_refused (s : State) (w : List Register) (g : Settings) :
    (s.configure w g).refused = s.refused := rfl

@[simp] theorem State.configure_cmdIndex (s : State) (w : List Register) (g : Settings) :
    (s.configure w g).cmdIndex = s.cmdIndex := rfl

@[simp] theorem State.configure_ports (s : State) (w : List Register) (g : Settings) :
    (s.configure w g).ports = s.ports := rfl

@[simp] theorem State.configure_inbox (s : State) (w : List Register) (g : Settings) :
    (s.configure w g).inbox = s.inbox := rfl

@[simp] theorem State.configure_reply (s : State) (w : List Register) (g : Settings) :
    (s.configure w g).reply = s.reply := rfl

@[simp] theorem State.configure_unset (s : State) (w : List Register) (g : Settings) :
    (s.configure w g).unset = s.unset.filter (fun r => r ∉ w) := rfl

/-! ### `State.setTile` -/

@[simp] theorem State.setTile_settings (s : State) (i : BitVec 3) (t : Tile) :
    (s.setTile i t).settings = s.settings.setTile i t := rfl

@[simp] theorem State.setTile_tmem (s : State) (i : BitVec 3) (t : Tile) : (s.setTile i t).tmem = s.tmem := rfl

@[simp] theorem State.setTile_regs (s : State) (i : BitVec 3) (t : Tile) : (s.setTile i t).regs = s.regs := rfl

@[simp] theorem State.setTile_spans (s : State) (i : BitVec 3) (t : Tile) : (s.setTile i t).spans = s.spans := rfl

@[simp] theorem State.setTile_crashed (s : State) (i : BitVec 3) (t : Tile) : (s.setTile i t).crashed = s.crashed := rfl

@[simp] theorem State.setTile_refused (s : State) (i : BitVec 3) (t : Tile) : (s.setTile i t).refused = s.refused := rfl

@[simp] theorem State.setTile_cmdIndex (s : State) (i : BitVec 3) (t : Tile) :
    (s.setTile i t).cmdIndex = s.cmdIndex := rfl

@[simp] theorem State.setTile_ports (s : State) (i : BitVec 3) (t : Tile) : (s.setTile i t).ports = s.ports := rfl

@[simp] theorem State.setTile_inbox (s : State) (i : BitVec 3) (t : Tile) : (s.setTile i t).inbox = s.inbox := rfl

@[simp] theorem State.setTile_reply (s : State) (i : BitVec 3) (t : Tile) : (s.setTile i t).reply = s.reply := rfl

@[simp] theorem State.setTile_unset (s : State) (i : BitVec 3) (t : Tile) : (s.setTile i t).unset = s.unset := rfl

/-! ### `State.setBounds` -/

@[simp] theorem State.setBounds_settings (s : State) (i : BitVec 3) (b : TileBounds) :
    (s.setBounds i b).settings = s.settings.setTile i { s.settings.tile i with bounds := b } := rfl

@[simp] theorem State.setBounds_tmem (s : State) (i : BitVec 3) (b : TileBounds) :
    (s.setBounds i b).tmem = s.tmem := rfl

@[simp] theorem State.setBounds_regs (s : State) (i : BitVec 3) (b : TileBounds) :
    (s.setBounds i b).regs = s.regs := rfl

@[simp] theorem State.setBounds_spans (s : State) (i : BitVec 3) (b : TileBounds) :
    (s.setBounds i b).spans = s.spans := rfl

@[simp] theorem State.setBounds_crashed (s : State) (i : BitVec 3) (b : TileBounds) :
    (s.setBounds i b).crashed = s.crashed := rfl

@[simp] theorem State.setBounds_refused (s : State) (i : BitVec 3) (b : TileBounds) :
    (s.setBounds i b).refused = s.refused := rfl

@[simp] theorem State.setBounds_cmdIndex (s : State) (i : BitVec 3) (b : TileBounds) :
    (s.setBounds i b).cmdIndex = s.cmdIndex := rfl

@[simp] theorem State.setBounds_ports (s : State) (i : BitVec 3) (b : TileBounds) :
    (s.setBounds i b).ports = s.ports := rfl

@[simp] theorem State.setBounds_inbox (s : State) (i : BitVec 3) (b : TileBounds) :
    (s.setBounds i b).inbox = s.inbox := rfl

@[simp] theorem State.setBounds_reply (s : State) (i : BitVec 3) (b : TileBounds) :
    (s.setBounds i b).reply = s.reply := rfl

@[simp] theorem State.setBounds_unset (s : State) (i : BitVec 3) (b : TileBounds) :
    (s.setBounds i b).unset = s.unset := rfl

/-! ### `State.setShape` -/

@[simp] theorem State.setShape_settings (s : State) (i : BitVec 3) (d : TileShape) :
    (s.setShape i d).settings = s.settings.setTile i { s.settings.tile i with shape := d } := rfl

@[simp] theorem State.setShape_tmem (s : State) (i : BitVec 3) (d : TileShape) : (s.setShape i d).tmem = s.tmem := rfl

@[simp] theorem State.setShape_regs (s : State) (i : BitVec 3) (d : TileShape) : (s.setShape i d).regs = s.regs := rfl

@[simp] theorem State.setShape_spans (s : State) (i : BitVec 3) (d : TileShape) :
    (s.setShape i d).spans = s.spans := rfl

@[simp] theorem State.setShape_crashed (s : State) (i : BitVec 3) (d : TileShape) :
    (s.setShape i d).crashed = s.crashed := rfl

@[simp] theorem State.setShape_refused (s : State) (i : BitVec 3) (d : TileShape) :
    (s.setShape i d).refused = s.refused := rfl

@[simp] theorem State.setShape_cmdIndex (s : State) (i : BitVec 3) (d : TileShape) :
    (s.setShape i d).cmdIndex = s.cmdIndex := rfl

@[simp] theorem State.setShape_ports (s : State) (i : BitVec 3) (d : TileShape) :
    (s.setShape i d).ports = s.ports := rfl

@[simp] theorem State.setShape_inbox (s : State) (i : BitVec 3) (d : TileShape) :
    (s.setShape i d).inbox = s.inbox := rfl

@[simp] theorem State.setShape_reply (s : State) (i : BitVec 3) (d : TileShape) :
    (s.setShape i d).reply = s.reply := rfl

@[simp] theorem State.setShape_unset (s : State) (i : BitVec 3) (d : TileShape) :
    (s.setShape i d).unset = s.unset := rfl

/-! ### `State.emit` -/

@[simp] theorem State.emit_settings (s : State) (e : Event) : (s.emit e).settings = s.settings := rfl

@[simp] theorem State.emit_tmem (s : State) (e : Event) : (s.emit e).tmem = s.tmem := rfl

@[simp] theorem State.emit_regs (s : State) (e : Event) : (s.emit e).regs = s.regs := rfl

@[simp] theorem State.emit_spans (s : State) (e : Event) : (s.emit e).spans = s.spans := rfl

@[simp] theorem State.emit_crashed (s : State) (e : Event) : (s.emit e).crashed = s.crashed := rfl

@[simp] theorem State.emit_refused (s : State) (e : Event) : (s.emit e).refused = s.refused := rfl

@[simp] theorem State.emit_cmdIndex (s : State) (e : Event) : (s.emit e).cmdIndex = s.cmdIndex := rfl

@[simp] theorem State.emit_ports (s : State) (e : Event) : (s.emit e).ports = s.ports.emit e := rfl

@[simp] theorem State.emit_inbox (s : State) (e : Event) : (s.emit e).inbox = s.inbox := rfl

@[simp] theorem State.emit_reply (s : State) (e : Event) : (s.emit e).reply = s.reply := rfl

@[simp] theorem State.emit_unset (s : State) (e : Event) : (s.emit e).unset = s.unset := rfl

/-! ### `raiseConfigFault` -/

@[simp] theorem raiseConfigFault_settings (s : State) (c : FaultCause) :
    (raiseConfigFault s c).settings = s.settings := rfl

@[simp] theorem raiseConfigFault_tmem (s : State) (c : FaultCause) : (raiseConfigFault s c).tmem = s.tmem := rfl

@[simp] theorem raiseConfigFault_regs (s : State) (c : FaultCause) : (raiseConfigFault s c).regs = s.regs := rfl

@[simp] theorem raiseConfigFault_spans (s : State) (c : FaultCause) : (raiseConfigFault s c).spans = s.spans := rfl

@[simp] theorem raiseConfigFault_crashed (s : State) (c : FaultCause) : (raiseConfigFault s c).crashed = true := rfl

@[simp] theorem raiseConfigFault_refused (s : State) (c : FaultCause) :
    (raiseConfigFault s c).refused = s.refused := rfl

@[simp] theorem raiseConfigFault_cmdIndex (s : State) (c : FaultCause) :
    (raiseConfigFault s c).cmdIndex = s.cmdIndex := rfl

@[simp] theorem raiseConfigFault_ports (s : State) (c : FaultCause) :
    (raiseConfigFault s c).ports = s.ports.emit (.fault c s.cmdIndex) := rfl

@[simp] theorem raiseConfigFault_inbox (s : State) (c : FaultCause) : (raiseConfigFault s c).inbox = s.inbox := rfl

@[simp] theorem raiseConfigFault_reply (s : State) (c : FaultCause) : (raiseConfigFault s c).reply = s.reply := rfl

@[simp] theorem raiseConfigFault_unset (s : State) (c : FaultCause) : (raiseConfigFault s c).unset = s.unset := rfl

/-! ### `State.load` -/

@[simp] theorem State.load_settings (s : State) (f : LoadState → LoadState) : (s.load f).settings = s.settings := rfl

@[simp] theorem State.load_tmem (s : State) (f : LoadState → LoadState) :
    (s.load f).tmem = (f ⟨s.tmem, s.ports⟩).tmem := rfl

@[simp] theorem State.load_regs (s : State) (f : LoadState → LoadState) : (s.load f).regs = s.regs := rfl

@[simp] theorem State.load_spans (s : State) (f : LoadState → LoadState) : (s.load f).spans = s.spans := rfl

@[simp] theorem State.load_crashed (s : State) (f : LoadState → LoadState) : (s.load f).crashed = s.crashed := rfl

@[simp] theorem State.load_refused (s : State) (f : LoadState → LoadState) : (s.load f).refused = s.refused := rfl

@[simp] theorem State.load_cmdIndex (s : State) (f : LoadState → LoadState) : (s.load f).cmdIndex = s.cmdIndex := rfl

@[simp] theorem State.load_ports (s : State) (f : LoadState → LoadState) :
    (s.load f).ports = (f ⟨s.tmem, s.ports⟩).ports := rfl

@[simp] theorem State.load_inbox (s : State) (f : LoadState → LoadState) : (s.load f).inbox = s.inbox := rfl

@[simp] theorem State.load_reply (s : State) (f : LoadState → LoadState) : (s.load f).reply = s.reply := rfl

@[simp] theorem State.load_unset (s : State) (f : LoadState → LoadState) : (s.load f).unset = s.unset := rfl

/-! ### `State.drawPrim` -/

@[simp] theorem State.drawPrim_settings (s : State) (p : Prim) : (s.drawPrim p).settings = s.settings := rfl

@[simp] theorem State.drawPrim_tmem (s : State) (p : Prim) : (s.drawPrim p).tmem = s.tmem := rfl

@[simp] theorem State.drawPrim_regs (s : State) (p : Prim) :
    (s.drawPrim p).regs =
      (drawPixels s.settings s.tmem p ⟨s.regs, s.ports⟩ (primPixels s.settings p s.spans)).regs := rfl

@[simp] theorem State.drawPrim_spans (s : State) (p : Prim) :
    (s.drawPrim p).spans = edgeWalk s.settings p s.spans := rfl

@[simp] theorem State.drawPrim_crashed (s : State) (p : Prim) : (s.drawPrim p).crashed = s.crashed := rfl

@[simp] theorem State.drawPrim_refused (s : State) (p : Prim) : (s.drawPrim p).refused = s.refused := rfl

@[simp] theorem State.drawPrim_cmdIndex (s : State) (p : Prim) : (s.drawPrim p).cmdIndex = s.cmdIndex := rfl

@[simp] theorem State.drawPrim_ports (s : State) (p : Prim) :
    (s.drawPrim p).ports =
      (drawPixels s.settings s.tmem p ⟨s.regs, s.ports⟩ (primPixels s.settings p s.spans)).ports := rfl

@[simp] theorem State.drawPrim_inbox (s : State) (p : Prim) : (s.drawPrim p).inbox = s.inbox := rfl

@[simp] theorem State.drawPrim_reply (s : State) (p : Prim) : (s.drawPrim p).reply = s.reply := rfl

@[simp] theorem State.drawPrim_unset (s : State) (p : Prim) : (s.drawPrim p).unset = s.unset := rfl

/-! ### `State.countCommand` -/

@[simp] theorem State.countCommand_settings (s : State) : (s.countCommand).settings = s.settings := rfl

@[simp] theorem State.countCommand_tmem (s : State) : (s.countCommand).tmem = s.tmem := rfl

@[simp] theorem State.countCommand_regs (s : State) : (s.countCommand).regs = s.regs := rfl

@[simp] theorem State.countCommand_spans (s : State) : (s.countCommand).spans = s.spans := rfl

@[simp] theorem State.countCommand_crashed (s : State) : (s.countCommand).crashed = s.crashed := rfl

@[simp] theorem State.countCommand_refused (s : State) : (s.countCommand).refused = s.refused := rfl

@[simp] theorem State.countCommand_cmdIndex (s : State) : (s.countCommand).cmdIndex = s.cmdIndex + 1 := rfl

@[simp] theorem State.countCommand_ports (s : State) : (s.countCommand).ports = s.ports := rfl

@[simp] theorem State.countCommand_inbox (s : State) : (s.countCommand).inbox = s.inbox := rfl

@[simp] theorem State.countCommand_reply (s : State) : (s.countCommand).reply = s.reply := rfl

@[simp] theorem State.countCommand_unset (s : State) : (s.countCommand).unset = s.unset := rfl

/-! ### `State.afterRefusal` -/

@[simp] theorem State.afterRefusal_settings (s : State) : (s.afterRefusal).settings = s.settings := rfl

@[simp] theorem State.afterRefusal_tmem (s : State) : (s.afterRefusal).tmem = s.tmem := rfl

@[simp] theorem State.afterRefusal_regs (s : State) : (s.afterRefusal).regs = s.regs := rfl

@[simp] theorem State.afterRefusal_spans (s : State) : (s.afterRefusal).spans = s.spans := rfl

@[simp] theorem State.afterRefusal_crashed (s : State) : (s.afterRefusal).crashed = s.crashed := rfl

@[simp] theorem State.afterRefusal_refused (s : State) : (s.afterRefusal).refused = true := rfl

@[simp] theorem State.afterRefusal_cmdIndex (s : State) : (s.afterRefusal).cmdIndex = s.cmdIndex := rfl

@[simp] theorem State.afterRefusal_ports (s : State) : (s.afterRefusal).ports = s.ports := rfl

@[simp] theorem State.afterRefusal_inbox (s : State) : (s.afterRefusal).inbox = s.inbox := rfl

@[simp] theorem State.afterRefusal_reply (s : State) : (s.afterRefusal).reply = s.reply := rfl

@[simp] theorem State.afterRefusal_unset (s : State) : (s.afterRefusal).unset = s.unset := rfl

/-! ### `hostInit` -/

@[simp] theorem hostInit_settings (s : State) :
    (hostInit s).settings = { s.settings with tiles := Vector.replicate 8 .zero } := rfl

@[simp] theorem hostInit_tmem (s : State) : (hostInit s).tmem = [] := rfl

@[simp] theorem hostInit_regs (s : State) : (hostInit s).regs = .zero := rfl

@[simp] theorem hostInit_spans (s : State) : (hostInit s).spans = s.spans := rfl

@[simp] theorem hostInit_crashed (s : State) : (hostInit s).crashed = false := rfl

@[simp] theorem hostInit_refused (s : State) : (hostInit s).refused = s.refused := rfl

@[simp] theorem hostInit_cmdIndex (s : State) : (hostInit s).cmdIndex = 0 := rfl

@[simp] theorem hostInit_ports (s : State) : (hostInit s).ports = s.ports := rfl

@[simp] theorem hostInit_inbox (s : State) : (hostInit s).inbox = s.inbox := rfl

@[simp] theorem hostInit_reply (s : State) : (hostInit s).reply = s.reply := rfl

@[simp] theorem hostInit_unset (s : State) : (hostInit s).unset = s.unset := rfl

/-! ### `hostReadCrashed` -/

@[simp] theorem hostReadCrashed_settings (s : State) : (hostReadCrashed s).settings = s.settings := rfl

@[simp] theorem hostReadCrashed_tmem (s : State) : (hostReadCrashed s).tmem = s.tmem := rfl

@[simp] theorem hostReadCrashed_regs (s : State) : (hostReadCrashed s).regs = s.regs := rfl

@[simp] theorem hostReadCrashed_spans (s : State) : (hostReadCrashed s).spans = s.spans := rfl

@[simp] theorem hostReadCrashed_crashed (s : State) : (hostReadCrashed s).crashed = s.crashed := rfl

@[simp] theorem hostReadCrashed_refused (s : State) : (hostReadCrashed s).refused = s.refused := rfl

@[simp] theorem hostReadCrashed_cmdIndex (s : State) : (hostReadCrashed s).cmdIndex = s.cmdIndex := rfl

@[simp] theorem hostReadCrashed_ports (s : State) : (hostReadCrashed s).ports = s.ports := rfl

@[simp] theorem hostReadCrashed_inbox (s : State) : (hostReadCrashed s).inbox = s.inbox := rfl

@[simp] theorem hostReadCrashed_reply (s : State) : (hostReadCrashed s).reply = some s.crashed := rfl

@[simp] theorem hostReadCrashed_unset (s : State) : (hostReadCrashed s).unset = s.unset := rfl

/-! ### Tiles -/

@[simp] theorem Settings.tile_setTile_same (g : Settings) (i : BitVec 3) (t : Tile) : (g.setTile i t).tile i = t := by
  simp [Settings.tile, Settings.setTile]

theorem Settings.tile_setTile_of_ne (g : Settings) (i j : BitVec 3) (t : Tile) (h : j ≠ i) :
    (g.setTile i t).tile j = g.tile j := by
  have hne : i.toNat ≠ j.toNat := fun e => h (BitVec.eq_of_toNat_eq e.symm)
  simp [Settings.tile, Settings.setTile, Vector.getElem_set_ne, hne]

@[simp] theorem Settings.setTile_cfg (g : Settings) (i : BitVec 3) (t : Tile) : (g.setTile i t).cfg = g.cfg := rfl

@[simp] theorem Settings.setTile_cc (g : Settings) (i : BitVec 3) (t : Tile) : (g.setTile i t).cc = g.cc := rfl

@[simp] theorem Settings.setTile_primColor (g : Settings) (i : BitVec 3) (t : Tile) :
    (g.setTile i t).primColor = g.primColor := rfl

@[simp] theorem Settings.setTile_envColor (g : Settings) (i : BitVec 3) (t : Tile) :
    (g.setTile i t).envColor = g.envColor := rfl

@[simp] theorem Settings.setTile_fogColor (g : Settings) (i : BitVec 3) (t : Tile) :
    (g.setTile i t).fogColor = g.fogColor := rfl

@[simp] theorem Settings.setTile_blendColor (g : Settings) (i : BitVec 3) (t : Tile) :
    (g.setTile i t).blendColor = g.blendColor := rfl

@[simp] theorem Settings.setTile_fillColor (g : Settings) (i : BitVec 3) (t : Tile) :
    (g.setTile i t).fillColor = g.fillColor := rfl

@[simp] theorem Settings.setTile_primLodFrac (g : Settings) (i : BitVec 3) (t : Tile) :
    (g.setTile i t).primLodFrac = g.primLodFrac := rfl

@[simp] theorem Settings.setTile_minLevel (g : Settings) (i : BitVec 3) (t : Tile) :
    (g.setTile i t).minLevel = g.minLevel := rfl

@[simp] theorem Settings.setTile_keyCenter (g : Settings) (i : BitVec 3) (t : Tile) :
    (g.setTile i t).keyCenter = g.keyCenter := rfl

@[simp] theorem Settings.setTile_keyScale (g : Settings) (i : BitVec 3) (t : Tile) :
    (g.setTile i t).keyScale = g.keyScale := rfl

@[simp] theorem Settings.setTile_keyWidth (g : Settings) (i : BitVec 3) (t : Tile) :
    (g.setTile i t).keyWidth = g.keyWidth := rfl

@[simp] theorem Settings.setTile_primZ (g : Settings) (i : BitVec 3) (t : Tile) : (g.setTile i t).primZ = g.primZ := rfl

@[simp] theorem Settings.setTile_primDz (g : Settings) (i : BitVec 3) (t : Tile) :
    (g.setTile i t).primDz = g.primDz := rfl

@[simp] theorem Settings.setTile_convert (g : Settings) (i : BitVec 3) (t : Tile) :
    (g.setTile i t).convert = g.convert := rfl

@[simp] theorem Settings.setTile_texImage (g : Settings) (i : BitVec 3) (t : Tile) :
    (g.setTile i t).texImage = g.texImage := rfl

@[simp] theorem Settings.setTile_clip (g : Settings) (i : BitVec 3) (t : Tile) : (g.setTile i t).clip = g.clip := rfl

/-! ### Ports -/

@[simp] theorem Ports.emit_events (p : Ports) (e : Event) : (p.emit e).events = p.events ++ [e] := rfl

@[simp] theorem Ports.emit_memAnswers (p : Ports) (e : Event) : (p.emit e).memAnswers = p.memAnswers := rfl

@[simp] theorem Ports.emit_fbAnswers (p : Ports) (e : Event) : (p.emit e).fbAnswers = p.fbAnswers := rfl

@[simp] theorem Ports.emit_zAnswers (p : Ports) (e : Event) : (p.emit e).zAnswers = p.zAnswers := rfl

@[simp] theorem Ports.emit_randAnswers (p : Ports) (e : Event) : (p.emit e).randAnswers = p.randAnswers := rfl

@[simp] theorem Ports.emit_draws (p : Ports) (e : Event) : (p.emit e).draws = p.draws := rfl

end Sys2Proof.Machine
end

