-- ==== Sys2Proof/Laws/Commands.lean ====
section
/-! SUPPORT. What the shared operations under the commands do: the checked load, the row reads of a rectangle load, the
decoder on opcodes outside the table. -/

namespace Sys2Proof.Machine

/-- A checked load of a 4-bit image raises the fault (R184 to R186). -/
theorem State.loadChecked_fault (s : State) (f : LoadState → LoadState) (h : s.settings.texImage.size = 0) :
    s.loadChecked f = raiseConfigFault s .load4Bit := if_pos h

/-- A checked load of any other image loads. -/
theorem State.loadChecked_load (s : State) (f : LoadState → LoadState) (h : s.settings.texImage.size ≠ 0) :
    s.loadChecked f = s.load f := if_neg h

/-- A checked load changes TMEM, the ports and `crashed` only. -/
theorem State.loadChecked_frame (s : State) (f : LoadState → LoadState) :
    s.loadChecked f =
      { s with tmem := (s.loadChecked f).tmem, ports := (s.loadChecked f).ports, crashed := (s.loadChecked f).crashed } := by
  unfold State.loadChecked
  split <;> rfl

/-- The ports after the rows of a rectangle load are the ports after reading its runs (R341). -/
theorem foldl_loadRow_ports (image : TexImage) (tile : Tile) (ls : LoadState) (js : List Nat) :
    (js.foldl (loadRow image tile) ls).ports =
      (readRuns (js.map (fun j => (texelAddress image (tile.bounds.sl.toNat / 4) (tile.bounds.tl.toNat / 4 + j),
        texelCount (tile.bounds.sl.toNat / 4) (tile.bounds.sh.toNat / 4) * bytesPerTexel image.size))) ls.ports).2 := by
  induction js generalizing ls with
  | nil => rfl
  | cons j rest ih =>
    rw [List.foldl_cons, ih]
    rfl

/-- The ports after a rectangle load. -/
theorem loadTileRect_ports (image : TexImage) (tile : Tile) (ls : LoadState) :
    (loadTileRect image tile ls).ports = (readRuns (tileRuns image tile) ls.ports).2 :=
  foldl_loadRow_ports image tile ls _

/-- A LOAD_TILE of uncrossed bounds loads the rectangle of R341. -/
theorem loadTileOrdered_of_uncrossed (image : TexImage) (tile : Tile) (h : crossedBounds tile.bounds = false) :
    loadTileOrdered image tile = loadTileRect image tile := by
  funext ls
  exact if_neg (by simp [h])

/-- The ports after LOAD_TILE are those after reading its runs: none where its bounds are crossed (R184, R341). -/
theorem loadTileOrdered_ports (image : TexImage) (tile : Tile) (ls : LoadState) :
    (loadTileOrdered image tile ls).ports =
      (readRuns (if crossedBounds tile.bounds then [] else tileRuns image tile) ls.ports).2 := by
  unfold loadTileOrdered
  split
  · rfl
  · exact loadTileRect_ports image tile ls

end Sys2Proof.Machine

namespace Sys2Proof

open Sys2Proof.Machine

/-- The decoder refuses, by name, an opcode outside the table (R145). -/
theorem decodeCmd_of_unknown (c : Dword) (h : opcodeOf c ∉ commandOpcodes) :
    decodeCmd c = .error (.unknownOpcode (opcodeOf c)) := by
  simp only [commandOpcodes, List.mem_cons, List.not_mem_nil, or_false, not_or] at h
  obtain ⟨h0, h1, h2, h3, h4, h5, h6, h7, h8, h9, h10, h11, h12, h13, h14, h15⟩ := h
  unfold decodeCmd
  simp only [h0, h1, h2, h3, h4, h5, h6, h7, h8, h9, h10, h11, h12, h13, h14, h15, if_false]

end Sys2Proof
end

