-- ==== Sys2Proof/Laws/Divide.lean ====
section
/-! SUPPORT. What the perspective divide does with a table entry (42_texcoord.md R263 to R265): the entry's shift, the range
of a product, and the code and quotient of one axis. -/

namespace Sys2Proof.Machine

/-- The normalising shift is at most 14 (R263). -/
theorem tcdivShift_le (i : Nat) : tcdivShift i ≤ 14 := by
  unfold tcdivShift
  cases h : (List.range 14).find? (fun k => i.testBit (14 - k)) with
  | none => simp
  | some k =>
    have := List.mem_range.mp (List.mem_of_find?_eq_some h)
    rw [Option.getD_some]
    omega

/-- The shift of a table entry is the normalising shift (R263). -/
theorem tcdivEntry_shift (i : Nat) : (tcdivEntry i % 16).toNat = tcdivShift i := by
  have := tcdivShift_le i
  unfold tcdivEntry
  simp only
  generalize tcdivShift i = q at *
  generalize asr _ 10 + _ = r
  omega

/-- The high bits of a 30-bit value from bit `k` on. -/
theorem and_topMask (u k : Nat) (hk : k ≤ 30) (hu : u < 2 ^ 30) : u &&& (2 ^ 30 - 2 ^ k) = u / 2 ^ k * 2 ^ k := by
  have e : 2 ^ 30 - 2 ^ k = (2 ^ (30 - k) - 1) <<< k := by
    rw [Nat.shiftLeft_eq, Nat.sub_mul, ← pow_add, show 30 - k + k = 30 by omega, one_mul]
  rw [e, ← Nat.shiftRight_eq_div_pow, ← Nat.shiftLeft_eq]
  apply Nat.eq_of_testBit_eq
  intro i
  rw [Nat.testBit_and, Nat.testBit_shiftLeft, Nat.testBit_two_pow_sub_one, Nat.testBit_shiftLeft, Nat.testBit_shiftRight]
  by_cases h : k ≤ i
  · rw [show k + (i - k) = i by omega]
    by_cases h' : i < 30
    · simp [h, show i - k < 30 - k by omega]
    · rw [Nat.testBit_eq_false_of_lt (lt_of_lt_of_le hu (Nat.pow_le_pow_right (by omega) (by omega)))]
      simp
  · simp [h]

/-- A product that fits 30 bits is out of range, its bits under the mask neither all 0 nor all 1, exactly where it lies
outside the range of the shift (R264). -/
theorem outOfRange_iff (n : Nat) (hn : n ≤ 14) (prod : Int) (h1 : -2 ^ 29 ≤ prod) (h2 : prod < 2 ^ 29) :
    (maskWith 30 prod (2 ^ 30 - (2 ^ 29) >>> n) ≠ 2 ^ 30 - (2 ^ 29) >>> n ∧
      maskWith 30 prod (2 ^ 30 - (2 ^ 29) >>> n) ≠ 0) ↔ ¬ (-(2 ^ 29 / 2 ^ n) ≤ prod ∧ prod < 2 ^ 29 / 2 ^ n) := by
  unfold maskWith zext
  rw [show (2 ^ 29) >>> n = 2 ^ (29 - n) by rw [Nat.shiftRight_eq_div_pow, Nat.pow_div (by omega) (by omega)],
    and_topMask _ _ (by omega) (by omega)]
  interval_cases n <;> norm_num <;> omega

/-- The code of a divide output stands above its quotient. -/
theorem satCode_append (k : BitVec 2) (q : BitVec 17) : satCode (k ++ q) = k := by
  apply BitVec.eq_of_getLsbD_eq
  intro i hi
  rw [satCode, BitVec.getLsbD_extractLsb', BitVec.getLsbD_append]
  simp [hi]

/-- The quotient of a divide output stands below its code. -/
theorem quotient_append (k : BitVec 2) (q : BitVec 17) : (k ++ q).setWidth 17 = q := by
  apply BitVec.eq_of_getLsbD_eq
  intro i hi
  rw [BitVec.getLsbD_setWidth, BitVec.getLsbD_append]
  simp [hi]

/-- Bit 29 of a value that fits 30 bits is its sign. -/
theorem bit29_iff (q : Int) (h : -2 ^ 29 ≤ q) (h' : q < 2 ^ 29) : bit 29 q = true ↔ q < 0 := by
  unfold bit asr
  rw [decide_eq_true_iff]
  norm_num
  omega

/-- The value of R264 whose bit 29 tells underflow from overflow has the sign of the product. -/
theorem shifted_bit29_iff (n : Nat) (prod : Int) (h1 : -2 ^ 29 ≤ prod) (h2 : prod < 2 ^ 29) :
    bit 29 (if n ≠ 14 then asr prod (13 - n) else prod) = true ↔ prod < 0 := by
  split
  · have hp : (0 : Int) < ((2 ^ (13 - n) : Nat) : Int) := by positivity
    have hq : prod < 0 ↔ asr prod (13 - n) < 0 := by
      unfold asr
      exact ⟨fun h => Int.ediv_neg_of_neg_of_pos h hp, fun h => by
        by_contra hn
        exact absurd h (not_lt.mpr (Int.ediv_nonneg (not_lt.mp hn) hp.le))⟩
    rw [hq]
    apply bit29_iff
    · show -2 ^ 29 ≤ prod / _
      rw [Int.le_ediv_iff_mul_le hp]
      nlinarith
    · show prod / _ < 2 ^ 29
      rw [Int.ediv_lt_iff_lt_mul hp]
      nlinarith
  · exact bit29_iff prod h1 h2

/-- The quotient of an in-range product: the product scaled by the entry's shift (R264). -/
theorem quotient_inRange (n : Nat) (hn : n ≤ 14) (prod : Int) (h1 : -(2 ^ 29 / 2 ^ n) ≤ prod) (h2 : prod < 2 ^ 29 / 2 ^ n) :
    (BitVec.ofInt 17 (if n ≠ 14 then (if n ≠ 14 then asr prod (13 - n) else prod) else prod * 2)).toInt =
      prod * 2 ^ n / 2 ^ 13 := by
  have e : (if n ≠ 14 then (if n ≠ 14 then asr prod (13 - n) else prod) else prod * 2) = prod * 2 ^ n / 2 ^ 13 ∧
      -2 ^ 16 ≤ prod * 2 ^ n / 2 ^ 13 ∧ prod * 2 ^ n / 2 ^ 13 < 2 ^ 16 := by
    unfold asr
    interval_cases n <;> norm_num at * <;> omega
  rw [e.1, BitVec.toInt_ofInt, Int.bmod_def]
  have := e.2
  norm_num at this ⊢
  split <;> omega

/-- One axis of the divide for a positive W (R264, R265): in range exactly within the bound of the entry's shift, with code 0
and the scaled product; code 1 below it, 2 above it. -/
theorem tcDivAxis_spec (e : Int) (c : Half) (n : Nat) (hs : (e % 16).toNat = n) (hn : n ≤ 14) (prod : Int)
    (hp : prod = c.toInt * (e / 16)) (h1 : -2 ^ 29 ≤ prod) (h2 : prod < 2 ^ 29) :
    (-(2 ^ 29 / 2 ^ n) ≤ prod → prod < 2 ^ 29 / 2 ^ n →
      satCode (tcDivAxis e false c) = 0 ∧ ((tcDivAxis e false c).setWidth 17).toInt = prod * 2 ^ n / 2 ^ 13) ∧
    (prod < -(2 ^ 29 / 2 ^ n) → satCode (tcDivAxis e false c) = 1) ∧
    (2 ^ 29 / 2 ^ n ≤ prod → satCode (tcDivAxis e false c) = 2) := by
  have ho := outOfRange_iff n hn prod h1 h2
  have hb := shifted_bit29_iff n prod h1 h2
  have hpos : (0 : Int) ≤ 2 ^ 29 / 2 ^ n := Int.ediv_nonneg (by norm_num) (by positivity)
  have hdef : tcDivAxis e false c =
      BitVec.ofNat 2 (if maskWith 30 prod (2 ^ 30 - (2 ^ 29) >>> n) ≠ 2 ^ 30 - (2 ^ 29) >>> n ∧
        maskWith 30 prod (2 ^ 30 - (2 ^ 29) >>> n) ≠ 0 then
          (if bit 29 (if n ≠ 14 then asr prod (13 - n) else prod) then 1 else 2) else 0) ++
      BitVec.ofInt 17 (if n ≠ 14 then (if n ≠ 14 then asr prod (13 - n) else prod) else prod * 2) := by
    subst hs hp
    rfl
  rw [hdef, satCode_append, quotient_append]
  refine ⟨fun ha hb' => ?_, fun ha => ?_, fun ha => ?_⟩
  · rw [if_neg (fun h => ho.mp h ⟨ha, hb'⟩)]
    exact ⟨rfl, quotient_inRange n hn prod ha hb'⟩
  · rw [if_pos (ho.mpr (fun h => absurd h.1 (not_le.mpr ha))),
      if_pos (hb.mpr (lt_of_lt_of_le ha (neg_nonpos.mpr hpos)))]
    rfl
  · rw [if_pos (ho.mpr (fun h => absurd h.2 (not_lt.mpr ha))),
      if_neg (fun h => absurd (hb.mp h) (not_lt.mpr (hpos.trans ha)))]
    rfl

end Sys2Proof.Machine
end

