-- ==== Sys2Proof/Laws/Draw.lean ====
section
/-! SUPPORT. What a pixel and a primitive append to the event history (20_memory.md R115; 47_coverage_dither_z.md R433, R441,
R442, R446): the requests of each stage, said once. -/

namespace Sys2Proof.Machine

/-- The draws of a stage that needs one or none. -/
def randIf (needed : Bool) : List Event := if needed then [.rand] else []

@[simp] theorem drawIf_events (b : Bool) (p : Ports) : (drawIf b p).2.events = p.events ++ randIf b := by
  cases b <;> simp [drawIf, randIf]

@[simp] theorem ditherDraw_events (m : OtherModes) (x y : BitVec 10) (p : Ports) :
    (ditherDraw m x y p).2.events = p.events ++ randIf (cdithDraws m) ++ randIf (adithDraws m) := by
  simp [ditherDraw]

@[simp] theorem noiseDraw_events (g : Settings) (p : Ports) :
    (noiseDraw g p).2.events = p.events ++ randIf (readsOperand g .noise) := by
  simp [noiseDraw]

@[simp] theorem depthStage_events (m : OtherModes) (x y : BitVec 10) (z : BitVec 18) (dz : BitVec 16) (p : Ports) :
    (depthStage m x y z dz p).2.events = p.events ++ (if m.zCompareEn then [.zRead x y] else []) := by
  unfold depthStage
  split <;> simp

@[simp] theorem memoryColor_events (m : OtherModes) (x y : BitVec 10) (p : Ports) :
    (memoryColor m x y p).2.2.events = p.events ++ (if m.imageReadEn then [.fbRead x y] else []) := by
  unfold memoryColor
  split <;> simp

/-- The events of the writes of an eligible pixel. -/
theorem emitWrites_events (m : OtherModes) (x y : BitVec 10) (c : Rgb) (cvg : BitVec 3) (z : BitVec 18) (dz : BitVec 16)
    (p : Ports) :
    (emitWrites m x y c cvg z dz p).events = p.events ++
      .fbWrite x y (BitVec.ofInt 8 c.r) (BitVec.ofInt 8 c.g) (BitVec.ofInt 8 c.b) cvg ::
        (if m.zUpdateEn then [.zWrite x y z dz] else []) := by
  unfold emitWrites
  split <;> simp_all [Ports.emit]

/-- The requests of a pixel from `combined` to its last read. -/
theorem backEnd_events (g : Settings) (pin : PixelIn) (adith : Int) (ps : PixelState) :
    (backEnd g pin adith ps).ports.events = ps.ports.events ++ randIf (thresholdDraws g.cfg) ++
      (if g.cfg.zCompareEn then [.zRead pin.x pin.y] else []) ++
      (if g.cfg.imageReadEn then [.fbRead pin.x pin.y] else []) := by
  show (memoryColor _ _ _ _).2.2.events = _
  rw [memoryColor_events, depthStage_events, drawIf_events]

/-- The ports after a pixel: the writes, or none. -/
theorem finishPixel_ports (g : Settings) (two : Bool) (pin : PixelIn) (dith : DitherVals) (ps : PixelState) :
    (finishPixel g two pin dith ps).ports =
      if eligible g pin.mask (backEnd g pin dith.adith ps) then
        (writePixel g two pin dith.cdith (backEnd g pin dith.adith ps)
          { ps.regs with
            pixel := (backEnd g pin dith.adith ps).color.pixel, memory := (backEnd g pin dith.adith ps).mem }).ports
      else (backEnd g pin dith.adith ps).ports := by
  unfold finishPixel
  simp only
  split <;> rfl

/-- The requests of a pixel from `combined` on: its reads, then, exactly where it is eligible, its writes. -/
theorem finishPixel_requests (g : Settings) (two : Bool) (pin : PixelIn) (dith : DitherVals) (ps : PixelState) :
    ∃ (r gr bl : BitVec 8) (c : BitVec 3),
      (finishPixel g two pin dith ps).ports.events = ps.ports.events ++ randIf (thresholdDraws g.cfg) ++
        (if g.cfg.zCompareEn then [.zRead pin.x pin.y] else []) ++
        (if g.cfg.imageReadEn then [.fbRead pin.x pin.y] else []) ++
        (if eligible g pin.mask (backEnd g pin dith.adith ps) then .fbWrite pin.x pin.y r gr bl c ::
          (if g.cfg.zUpdateEn then [.zWrite pin.x pin.y (depthSource g pin.z pin.dz).1 (depthSource g pin.z pin.dz).2]
            else []) else []) := by
  have hb := backEnd_events g pin dith.adith ps
  rw [finishPixel_ports]
  split
  · exact ⟨_, _, _, _, (emitWrites_events ..).trans (congrArg (· ++ _) hb)⟩
  · exact ⟨0, 0, 0, 0, hb.trans (List.append_nil _).symm⟩

/-- The requests of a pixel from `combined` on: its reads, then its writes or none. -/
theorem finishPixel_events (g : Settings) (two : Bool) (pin : PixelIn) (dith : DitherVals) (ps : PixelState) :
    ∃ writes : List Event,
      (finishPixel g two pin dith ps).ports.events = ps.ports.events ++ randIf (thresholdDraws g.cfg) ++
        (if g.cfg.zCompareEn then [.zRead pin.x pin.y] else []) ++
        (if g.cfg.imageReadEn then [.fbRead pin.x pin.y] else []) ++ writes ∧
      (writes = [] ∨ ∃ (r gr bl : BitVec 8) (c : BitVec 3), writes = .fbWrite pin.x pin.y r gr bl c ::
        (if g.cfg.zUpdateEn then [.zWrite pin.x pin.y (depthSource g pin.z pin.dz).1 (depthSource g pin.z pin.dz).2]
          else [])) := by
  obtain ⟨r, gr, bl, c, h⟩ := finishPixel_requests g two pin dith ps
  refine ⟨_, h, ?_⟩
  split
  · exact .inr ⟨r, gr, bl, c, rfl⟩
  · exact .inl rfl

/-- The final blender cycle changes `inv_pixel` only (R404, R406). -/
theorem blendFinal_regs (g : Settings) (c : Bool) (pix : Color) (pw be : Bool) (r : ColorRegs) :
    (blendFinal g c pix pw be r).1 = { r with invPixel := (blendFinal g c pix pw be r).1.invPixel } := by
  unfold blendFinal
  simp only
  split
  · rfl
  · split <;> rfl

/-- What the end of a pixel changes in the Color registers: `pixel`, `inv_pixel`, the memory colors, and in 2-cycle mode
`blended_pixel` (R402, R404, R407). -/
theorem finishPixel_regs (g : Settings) (two : Bool) (pin : PixelIn) (dith : DitherVals) (ps : PixelState) :
    ∃ (ip bp : Color),
      (finishPixel g two pin dith ps).regs =
        { ps.regs with
          pixel := (backEnd g pin dith.adith ps).color.pixel
          invPixel := ip
          blendedPixel := bp
          memory := (backEnd g pin dith.adith ps).mem
          preMemory := (backEnd g pin dith.adith ps).mem } ∧
      (two = false → bp = ps.regs.blendedPixel) := by
  unfold finishPixel
  simp only
  split
  · unfold writePixel blendPixel
    cases two
    · simp only [Bool.false_eq_true, if_false]
      unfold blendOneCycle
      rw [blendFinal_regs]
      exact ⟨_, _, rfl, fun _ => rfl⟩
    · simp only [if_true]
      unfold blendTwoCycle
      rw [blendFinal_regs]
      exact ⟨_, _, rfl, fun h => nomatch h⟩
  · exact ⟨_, _, rfl, fun _ => rfl⟩

/-- A fill pixel appends its `FbFill` (R249). -/
theorem drawPixels_fill (g : Settings) (m : Memory) (prim : Prim) (pins : List PixelIn) (ps : PixelState)
    (h : cycleType g.cfg = .fill) :
    drawPixels g m prim ps pins =
      ⟨ps.regs, { ps.ports with
        events := ps.ports.events ++ pins.map (fun pin => Event.fbFill pin.x pin.y g.fillColor) }⟩ := by
  induction pins generalizing ps with
  | nil => simp [drawPixels]
  | cons pin rest ih =>
    show drawPixels g m prim (drawPixel g m prim ps pin) rest = _
    rw [ih]
    unfold drawPixel
    rw [h]
    simp [drawFill, Ports.emit]

/-- A pixel appends to the history and reads no texture memory through the accessor. -/
theorem drawPixel_grows (g : Settings) (m : Memory) (prim : Prim) (ps : PixelState) (pin : PixelIn) :
    ∃ new : List Event, (drawPixel g m prim ps pin).ports.events = ps.ports.events ++ new ∧
      ∀ a : BitVec 24, Event.memRead a ∉ new := by
  have hr : ∀ (b : Bool) (a : BitVec 24), Event.memRead a ∉ randIf b := fun b a => by cases b <;> simp [randIf]
  have hfin : ∀ (two : Bool) (d : DitherVals) (q : PixelState), ∃ new : List Event,
      (finishPixel g two pin d q).ports.events = q.ports.events ++ new ∧ ∀ a : BitVec 24, Event.memRead a ∉ new := by
    intro two d q
    obtain ⟨w, hw, hc⟩ := finishPixel_events g two pin d q
    refine ⟨randIf (thresholdDraws g.cfg) ++ ((if g.cfg.zCompareEn then [.zRead pin.x pin.y] else []) ++
      ((if g.cfg.imageReadEn then [.fbRead pin.x pin.y] else []) ++ w)),
      hw.trans (by simp only [List.append_assoc]), fun a => ?_⟩
    have hwn : Event.memRead a ∉ w := by
      rcases hc with rfl | ⟨_, _, _, _, rfl⟩
      · simp
      · split <;> simp
    have hz : Event.memRead a ∉ (if g.cfg.zCompareEn then [Event.zRead pin.x pin.y] else []) := by split <;> simp
    have hf : Event.memRead a ∉ (if g.cfg.imageReadEn then [Event.fbRead pin.x pin.y] else []) := by split <;> simp
    simp only [List.mem_append, not_or]
    exact ⟨hr _ a, hz, hf, hwn⟩
  have hpre : ∀ q : Ports, ∃ new : List Event,
      (noiseDraw g (ditherDraw g.cfg pin.x pin.y q).2).2.events = q.events ++ new ∧
        ∀ a : BitVec 24, Event.memRead a ∉ new := fun q =>
    ⟨randIf (cdithDraws g.cfg) ++ (randIf (adithDraws g.cfg) ++ randIf (readsOperand g .noise)), by simp, fun a => by
      simp only [List.mem_append, not_or]
      exact ⟨hr _ a, hr _ a, hr _ a⟩⟩
  unfold drawPixel
  split
  · obtain ⟨n1, h1, a1⟩ := hpre ps.ports
    obtain ⟨n2, h2, a2⟩ := hfin false (ditherDraw g.cfg pin.x pin.y ps.ports).1
      ⟨frontOne g m prim pin (noiseDraw g (ditherDraw g.cfg pin.x pin.y ps.ports).2).1 ps.regs, _⟩
    exact ⟨n1 ++ n2, h2.trans ((congrArg (· ++ n2) h1).trans (List.append_assoc ..)),
      fun a ha => (List.mem_append.mp ha).elim (a1 a) (a2 a)⟩
  · obtain ⟨n1, h1, a1⟩ := hpre ps.ports
    obtain ⟨n2, h2, a2⟩ := hfin true (ditherDraw g.cfg pin.x pin.y ps.ports).1
      ⟨frontTwo g m prim pin (noiseDraw g (ditherDraw g.cfg pin.x pin.y ps.ports).2).1 ps.regs, _⟩
    exact ⟨n1 ++ n2, h2.trans ((congrArg (· ++ n2) h1).trans (List.append_assoc ..)),
      fun a ha => (List.mem_append.mp ha).elim (a1 a) (a2 a)⟩
  · unfold drawCopy
    simp only
    split
    · refine ⟨_, (congrArg (· ++ _) (Ports.rands_events _ _)).trans (List.append_assoc ..), fun a ha => ?_⟩
      rcases List.mem_append.mp ha with ha | ha
      · exact nomatch List.eq_of_mem_replicate ha
      · simp at ha
    · refine ⟨_, Ports.rands_events _ _, fun a ha => ?_⟩
      exact nomatch List.eq_of_mem_replicate ha
  · exact ⟨[.fbFill pin.x pin.y g.fillColor], rfl, fun a => by simp⟩

/-- Drawing pixels appends to the history and reads no texture memory through the accessor. -/
theorem drawPixels_grows (g : Settings) (m : Memory) (prim : Prim) (pins : List PixelIn) (ps : PixelState) :
    ∃ new : List Event, (drawPixels g m prim ps pins).ports.events = ps.ports.events ++ new ∧
      ∀ a : BitVec 24, Event.memRead a ∉ new := by
  induction pins generalizing ps with
  | nil => exact ⟨[], (List.append_nil _).symm, fun a => by simp⟩
  | cons pin rest ih =>
    obtain ⟨n1, h1, a1⟩ := drawPixel_grows g m prim ps pin
    obtain ⟨n2, h2, a2⟩ := ih (drawPixel g m prim ps pin)
    exact ⟨n1 ++ n2, h2.trans ((congrArg (· ++ n2) h1).trans (List.append_assoc ..)),
      fun a ha => (List.mem_append.mp ha).elim (a1 a) (a2 a)⟩

/-! ### `atomic_prim` (R39) -/

/-- The settings with another `atomic_prim`. -/
def Settings.withAtomicPrim (g : Settings) (b : Bool) : Settings := { g with cfg := { g.cfg with atomicPrim := b } }

theorem orderedPixels_atomicPrim (g : Settings) (b : Bool) (p : Prim) (y : Nat) (body : SpanBody) (x0 : Int)
    (xs : List Int) : orderedPixels (g.withAtomicPrim b) p y body x0 xs = orderedPixels g p y body x0 xs := by
  induction xs with
  | nil => rfl
  | cons x rest ih =>
    unfold orderedPixels
    simp only
    rw [ih]
    rfl

/-- `atomic_prim` has no effect on the pixels of a primitive. -/
theorem primPixels_atomicPrim (g : Settings) (b : Bool) (p : Prim) (old : SpanBuffer) :
    primPixels (g.withAtomicPrim b) p old = primPixels g p old := by
  unfold primPixels
  refine List.flatMap_congr (fun y _ => ?_)
  unfold spanPixels
  simp only [orderedPixels_atomicPrim]
  rfl

theorem texturePipeline_atomicPrim (g : Settings) (b : Bool) (m : Memory) (v : BitVec 19 × BitVec 19) (t : BitVec 3)
    (c : Bool) (prev : Color) :
    texturePipeline (g.withAtomicPrim b) m v t c prev = texturePipeline g m v t c prev := by rfl

theorem pixelLod_atomicPrim (g : Settings) (b : Bool) (p : Prim) (pin : PixelIn) :
    pixelLod (g.withAtomicPrim b) p pin = pixelLod g p pin := by rfl

theorem frontOne_atomicPrim (g : Settings) (b : Bool) (m : Memory) (p : Prim) (pin : PixelIn) (n : Int)
    (r : ColorRegs) : frontOne (g.withAtomicPrim b) m p pin n r = frontOne g m p pin n r := by
  unfold frontOne texelsOne
  simp only [texturePipeline_atomicPrim, pixelLod_atomicPrim]
  rfl

theorem frontTwo_atomicPrim (g : Settings) (b : Bool) (m : Memory) (p : Prim) (pin : PixelIn) (n : Int)
    (r : ColorRegs) : frontTwo (g.withAtomicPrim b) m p pin n r = frontTwo g m p pin n r := by
  unfold frontTwo texelsTwo
  simp only [texturePipeline_atomicPrim, pixelLod_atomicPrim]
  rfl

theorem backEnd_atomicPrim (g : Settings) (b : Bool) (pin : PixelIn) (a : Int) (ps : PixelState) :
    backEnd (g.withAtomicPrim b) pin a ps = backEnd g pin a ps := by rfl

theorem writePixel_atomicPrim (g : Settings) (b two : Bool) (pin : PixelIn) (c : Option Int) (e : BackEnd)
    (r : ColorRegs) : writePixel (g.withAtomicPrim b) two pin c e r = writePixel g two pin c e r := by rfl

theorem finishPixel_atomicPrim (g : Settings) (b two : Bool) (pin : PixelIn) (d : DitherVals) (ps : PixelState) :
    finishPixel (g.withAtomicPrim b) two pin d ps = finishPixel g two pin d ps := by
  unfold finishPixel
  simp only [backEnd_atomicPrim, writePixel_atomicPrim]
  rfl

/-- `atomic_prim` has no effect on what a pixel does. -/
theorem drawPixel_atomicPrim (g : Settings) (b : Bool) (m : Memory) (p : Prim) :
    drawPixel (g.withAtomicPrim b) m p = drawPixel g m p := by
  funext ps pin
  have h1 : drawOne (g.withAtomicPrim b) m p pin ps = drawOne g m p pin ps := by
    unfold drawOne
    simp only [frontOne_atomicPrim, finishPixel_atomicPrim]
    rfl
  have h2 : drawTwo (g.withAtomicPrim b) m p pin ps = drawTwo g m p pin ps := by
    unfold drawTwo
    simp only [frontTwo_atomicPrim, finishPixel_atomicPrim]
    rfl
  have h3 : drawCopy (g.withAtomicPrim b) m p pin ps = drawCopy g m p pin ps := by rfl
  unfold drawPixel
  rw [h1, h2, h3]
  rfl

/-- `atomic_prim` has no effect on drawing (R39). -/
theorem drawPrim_atomicPrim (s : State) (b : Bool) (p : Prim) :
    ({ s with settings := s.settings.withAtomicPrim b } : State).drawPrim p =
      { s.drawPrim p with settings := s.settings.withAtomicPrim b } := by
  unfold State.drawPrim drawPixels
  simp only
  rw [primPixels_atomicPrim, drawPixel_atomicPrim]
  rfl

end Sys2Proof.Machine
end

