-- ==== Sys2Proof/Laws/Encoding.lean ====
section
/-! SUPPORT. How the fields of an encoded command are read back: a field of an OR of fields is read field by field, a field
from its own place whole, from any other place 0. -/

namespace Sys2Proof

/-- A field of an OR is the OR of the fields. -/
theorem extract_or (a b : Dword) (lo n : Nat) :
    (a ||| b).extractLsb' lo n = a.extractLsb' lo n ||| b.extractLsb' lo n := by
  ext i hi
  simp

/-- Bit `i` of a field put at `lo`. -/
theorem getLsbD_put {n : Nat} (lo : Nat) (x : BitVec n) (i : Nat) :
    (put lo x).getLsbD i = (decide (lo ≤ i) && decide (i < 64) && x.getLsbD (i - lo)) := by
  unfold put
  rw [BitVec.getLsbD_shiftLeft, BitVec.getLsbD_setWidth]
  by_cases h : i < lo
  · simp [h, Nat.not_le.mpr h]
  · by_cases h2 : i < 64
    · have h3 : i - lo < 64 := by omega
      simp [h, h2, h3, Nat.not_lt.mp h]
    · simp [h2]

/-- A field read from where it was put is the field. -/
theorem extract_put_same {n : Nat} (lo : Nat) (x : BitVec n) (h : lo + n ≤ 64) :
    (put lo x).extractLsb' lo n = x := by
  apply BitVec.eq_of_getLsbD_eq
  intro i hi
  have h1 : lo + i < 64 := by omega
  rw [BitVec.getLsbD_extractLsb', getLsbD_put]
  simp [hi, h1]

/-- A field read from a place it does not touch is 0. -/
theorem extract_put_of_disjoint {n : Nat} (lo : Nat) (x : BitVec n) (lo' n' : Nat) (h : lo + n ≤ lo' ∨ lo' + n' ≤ lo) :
    (put lo x).extractLsb' lo' n' = 0#n' := by
  ext i hi
  rw [BitVec.getElem_extractLsb', getLsbD_put, BitVec.getElem_zero]
  rcases h with h | h
  · rw [BitVec.getLsbD_of_ge x _ (by omega)]
    simp
  · have : ¬ lo ≤ lo' + i := by omega
    simp [this]

/-- A bit of an OR is the OR of the bits. -/
theorem getLsbD_or_cmd (a b : Dword) (i : Nat) : (a ||| b).getLsbD i = (a.getLsbD i || b.getLsbD i) :=
  BitVec.getLsbD_or

/-- A flag read from where it was put. -/
theorem getLsbD_putFlag_same (lo : Nat) (b : Bool) (h : lo < 64) : (putFlag lo b).getLsbD lo = b := by
  unfold putFlag
  rw [getLsbD_put]
  cases b <;> simp [h]

/-- A bit outside a field is 0. -/
theorem getLsbD_put_of_out {n : Nat} (lo : Nat) (x : BitVec n) (i : Nat) (h : lo + n ≤ i ∨ i < lo) :
    (put lo x).getLsbD i = false := by
  rw [getLsbD_put]
  rcases h with h | h
  · rw [BitVec.getLsbD_of_ge x _ (by omega)]
    simp
  · have : ¬ lo ≤ i := by omega
    simp [this]

/-- A field away from a flag's place is 0. -/
theorem extract_putFlag_of_out (lo : Nat) (b : Bool) (lo' n' : Nat) (h : lo < lo' ∨ lo' + n' ≤ lo) :
    (putFlag lo b).extractLsb' lo' n' = 0#n' :=
  extract_put_of_disjoint lo _ lo' n' (by omega)

/-- A bit away from a flag's place is 0. -/
theorem getLsbD_putFlag_of_out (lo : Nat) (b : Bool) (i : Nat) (h : i ≠ lo) : (putFlag lo b).getLsbD i = false :=
  getLsbD_put_of_out lo _ i (by omega)

/-- The two words of a command are the command. -/
theorem words_of_cmd (c : Dword) : c.extractLsb' 32 32 ++ c.extractLsb' 0 32 = c := by
  apply BitVec.eq_of_getLsbD_eq
  intro i hi
  rw [BitVec.getLsbD_append, BitVec.getLsbD_extractLsb', BitVec.getLsbD_extractLsb']
  by_cases h : i < 32
  · simp [h]
  · have h1 : 32 + (i - 32) = i := by omega
    have h2 : i - 32 < 32 := by omega
    simp [h, h1, h2]

/-- A field in the second word of a command (R140). -/
theorem extract_words_low (w0 w1 : Word) (lo n : Nat) (h : lo + n ≤ 32) :
    (w0 ++ w1).extractLsb' lo n = w1.extractLsb' lo n := by
  apply BitVec.eq_of_getLsbD_eq
  intro i hi
  have hlt : lo + i < 32 := by omega
  rw [BitVec.getLsbD_extractLsb', BitVec.getLsbD_extractLsb', BitVec.getLsbD_append]
  simp [hlt]

/-- A field in the first word of a command (R140). -/
theorem extract_words_high (w0 w1 : Word) (lo n : Nat) (h : 32 ≤ lo) :
    (w0 ++ w1).extractLsb' lo n = w0.extractLsb' (lo - 32) n := by
  apply BitVec.eq_of_getLsbD_eq
  intro i hi
  have hlt : ¬ lo + i < 32 := by omega
  have he : lo + i - 32 = lo - 32 + i := by omega
  rw [BitVec.getLsbD_extractLsb', BitVec.getLsbD_extractLsb', BitVec.getLsbD_append]
  simp [hlt, he]

/-- Decoding an encoded command decodes its command word. -/
theorem decode_encode_cmd (i : Instr) : decode (encode i).1 (encode i).2 = decodeCmd (encodeCmd i) := by
  unfold decode encode
  rw [words_of_cmd]

/-- The texture width of a command is its field plus one (R142, R157). -/
theorem widthOf_toNat (c : Dword) : (widthOf c).toNat = (c.extractLsb' 32 10).toNat + 1 := by
  unfold widthOf
  generalize c.extractLsb' 32 10 = v
  have := v.isLt
  rw [BitVec.toNat_add, BitVec.toNat_setWidth, show BitVec.toNat (1 : BitVec 11) = 1 from rfl]
  omega

/-- The decoder gives no texture width outside 1..1024 (R47). -/
theorem widthOk_widthOf (c : Dword) : widthOk (widthOf c) = true := by
  have := (c.extractLsb' 32 10).isLt
  unfold widthOk
  rw [widthOf_toNat]
  simp
  omega

/-- Two words that agree under a mask agree on every field the mask holds whole. -/
theorem extract_of_masked {c c' m : Dword} (h : c &&& m = c' &&& m) (lo n : Nat)
    (hm : m.extractLsb' lo n = BitVec.allOnes n) : c.extractLsb' lo n = c'.extractLsb' lo n := by
  have := congrArg (fun v : Dword => v.extractLsb' lo n) h
  simp only [BitVec.extractLsb'_and, hm] at this
  simpa using this

/-- Two words that agree under a mask agree on every bit of the mask. -/
theorem getLsbD_of_masked {c c' m : Dword} (h : c &&& m = c' &&& m) (i : Nat) (hm : m.getLsbD i = true) :
    c.getLsbD i = c'.getLsbD i := by
  have := congrArg (fun v : Dword => v.getLsbD i) h
  simpa [hm] using this

end Sys2Proof
end

