-- ==== Sys2Proof/Laws/Host.lean ====
section
/-! SUPPORT. What a configuration write does (10_state.md R48; 45_combiner.md R380; 60_exceptions.md R470): which writes are
refused, and how a slot of `cc` is read back. -/

namespace Sys2Proof.Machine

/-- Every slot is listed. -/
theorem mem_allSlots (sl : Slot) : sl ∈ allSlots := by cases sl <;> decide

/-- A selector set is well formed where every slot accepts its operand (R380). -/
theorem CycleSel.wellFormed_iff (c : CycleSel) : c.wellFormed = true ↔ ∀ sl : Slot, sl.accepts (slotOf c sl) = true := by
  constructor
  · intro h sl
    simp only [CycleSel.wellFormed, Bool.and_eq_true] at h
    obtain ⟨⟨⟨⟨⟨⟨⟨h1, h2⟩, h3⟩, h4⟩, h5⟩, h6⟩, h7⟩, h8⟩ := h
    cases sl <;> assumption
  · intro h
    simp only [CycleSel.wellFormed, Bool.and_eq_true]
    exact ⟨⟨⟨⟨⟨⟨⟨h .rgbA, h .rgbB⟩, h .rgbC⟩, h .rgbD⟩, h .alphaA⟩, h .alphaB⟩, h .alphaC⟩, h .alphaD⟩

/-- No bad slot is found exactly in a well-formed selector set. -/
theorem badSlot?_eq_none_iff (c : CycleSel) : badSlot? c = none ↔ c.wellFormed = true := by
  rw [CycleSel.wellFormed_iff, badSlot?, List.find?_eq_none]
  constructor
  · intro h sl
    have := h (sl, slotOf c sl) (List.mem_map_of_mem (mem_allSlots sl))
    simpa using this
  · intro h p hp
    obtain ⟨sl, _, rfl⟩ := List.mem_map.mp hp
    simp [h sl]

/-- A bad slot that is found does not accept its operand. -/
theorem badSlot?_some {c : CycleSel} {p : Slot × Operand} (h : badSlot? c = some p) : p.1.accepts p.2 = false := by
  simpa using List.find?_some h

/-- A configuration write has no bad operand exactly where it is well formed (R470). -/
theorem cfgBadOperand_eq_none_iff (c : CfgWrite) : cfgBadOperand c = none ↔ c.wellFormed = true := by
  cases c with
  | ccSlot cyc sl op =>
    simp only [cfgBadOperand, CfgWrite.wellFormed]
    split <;> simp_all
  | ccAll cc =>
    simp only [cfgBadOperand, CfgWrite.wellFormed, CombinerSel.wellFormed, Bool.and_eq_true]
    rw [← badSlot?_eq_none_iff, ← badSlot?_eq_none_iff, Option.or_eq_none_iff]
  | _ => exact ⟨fun _ => rfl, fun _ => rfl⟩

/-- The bad operand a configuration write is refused for is in a slot that does not list it. -/
theorem cfgBadOperand_some {c : CfgWrite} {p : Slot × Operand} (h : cfgBadOperand c = some p) :
    p.1.accepts p.2 = false := by
  cases c with
  | ccSlot cyc sl op =>
    simp only [cfgBadOperand] at h
    split at h
    · cases h
    · next hn =>
      cases h
      simpa using hn
  | ccAll cc =>
    simp only [cfgBadOperand] at h
    rcases Option.or_eq_some_iff.mp h with h | ⟨_, h⟩ <;> exact badSlot?_some h
  | _ => cases h

/-- A slot is read back where it was written, and the others keep their operands. -/
theorem slotOf_setSlot (c : CycleSel) (sl sl' : Slot) (op : Operand) :
    slotOf (setSlot c sl op) sl' = if sl' = sl then op else slotOf c sl' := by
  cases sl <;> cases sl' <;> rfl

/-- The same for the two cycles of `cc`. -/
theorem slotOf_setCcSlot (cc : CombinerSel) (cyc cyc' : Bool) (sl sl' : Slot) (op : Operand) :
    slotOf (selectorsOf (setCcSlot cc cyc sl op) cyc') sl' =
      if cyc' = cyc ∧ sl' = sl then op else slotOf (selectorsOf cc cyc') sl' := by
  cases cyc <;> cases cyc' <;> simp [selectorsOf, setCcSlot, slotOf_setSlot]

/-- Writing an accepted operand keeps `cc` well formed. -/
theorem wellFormed_setCcSlot {cc : CombinerSel} (cyc : Bool) {sl : Slot} {op : Operand} (h : cc.wellFormed = true)
    (ha : sl.accepts op = true) : (setCcSlot cc cyc sl op).wellFormed = true := by
  have hset : ∀ c : CycleSel, c.wellFormed = true → (setSlot c sl op).wellFormed = true := fun c hc => by
    rw [CycleSel.wellFormed_iff] at hc ⊢
    intro sl'
    rw [slotOf_setSlot]
    split
    · next he => rw [he]; exact ha
    · exact hc sl'
  simp only [CombinerSel.wellFormed, Bool.and_eq_true] at h ⊢
  cases cyc
  · exact ⟨hset _ h.1, h.2⟩
  · exact ⟨h.1, hset _ h.2⟩

/-- An accepted configuration write keeps the combiner's operands in slots that list them. -/
theorem wellFormed_cfgSettings {g : Settings} {c : CfgWrite} (h : g.cc.wellFormed = true) (hc : c.wellFormed = true) :
    (cfgSettings g c).cc.wellFormed = true := by
  cases c with
  | ccSlot cyc sl op => exact wellFormed_setCcSlot cyc h hc
  | ccAll cc => exact hc
  | _ => exact h

/-- A configuration write does not change the texture image. -/
@[simp] theorem cfgSettings_texImage (g : Settings) (c : CfgWrite) : (cfgSettings g c).texImage = g.texImage := by
  cases c <;> rfl

end Sys2Proof.Machine
end

