-- ==== Sys2Proof/Laws/Memory.lean ====
section
/-! SUPPORT. TMEM: a write is read back at its address and nowhere else, and every write keeps the canonical form. -/

namespace Sys2Proof.Machine

/-! ### The canonical list -/

/-- What the canonical form says of a listed cell. -/
theorem Memory.wfFrom_cons {lo a : Nat} {v : Byte} {m : Memory} (h : Memory.wfFrom lo ((a, v) :: m) = true) :
    lo ≤ a ∧ a < 4096 ∧ v ≠ Memory.default ∧ Memory.wfFrom (a + 1) m = true := by
  simpa [Memory.wfFrom, and_assoc] using h

/-- A canonical list from a higher start is canonical from a lower one. -/
theorem Memory.wfFrom_mono {m : Memory} {lo lo' : Nat} (hle : lo' ≤ lo) (h : Memory.wfFrom lo m = true) :
    Memory.wfFrom lo' m = true := by
  cases m with
  | nil => rfl
  | cons c rest =>
    obtain ⟨h1, h2, h3, h4⟩ := Memory.wfFrom_cons h
    simp [Memory.wfFrom, h2, h3, h4, Nat.le_trans hle h1]

/-- Below the start of a canonical list every address reads as the default. -/
theorem Memory.read_of_lt {m : Memory} {lo a : Nat} (h : Memory.wfFrom lo m = true) (ha : a < lo) :
    m.read a = Memory.default := by
  induction m generalizing lo with
  | nil => rfl
  | cons c rest ih =>
    obtain ⟨h1, _, _, h4⟩ := Memory.wfFrom_cons h
    have hne : c.1 ≠ a := by omega
    simp only [Memory.read, hne, if_false]
    exact ih h4 (by omega)

/-- A write keeps the canonical form. -/
theorem Memory.wfFrom_write {m : Memory} {lo a : Nat} (v : Byte) (h : Memory.wfFrom lo m = true) (hlo : lo ≤ a)
    (ha : a < 4096) : Memory.wfFrom lo (m.write a v) = true := by
  induction m generalizing lo with
  | nil =>
    by_cases hv : v = Memory.default
    · simp [Memory.write, hv, Memory.wfFrom]
    · simp [Memory.write, hv, Memory.wfFrom, hlo, ha]
  | cons c rest ih =>
    obtain ⟨b, w⟩ := c
    obtain ⟨h1, h2, h3, h4⟩ := Memory.wfFrom_cons h
    unfold Memory.write
    by_cases hlt : a < b
    · by_cases hv : v = Memory.default
      · simpa [hlt, hv] using h
      · have : a + 1 ≤ b := hlt
        simp [hlt, hv, Memory.wfFrom, hlo, ha, h2, h3, h4, this]
    · by_cases heq : a = b
      · by_cases hv : v = Memory.default
        · simpa [heq, hv] using Memory.wfFrom_mono (by omega) h4
        · subst heq
          simp [hv, Memory.wfFrom, hlo, ha, h4]
      · have hrec := ih h4 (by omega)
        simp [hlt, heq, Memory.wfFrom, h1, h2, h3, hrec]

/-- Read after write. -/
theorem Memory.read_write {m : Memory} {lo : Nat} (a b : Nat) (v : Byte) (h : Memory.wfFrom lo m = true) :
    (m.write a v).read b = if b = a then v else m.read b := by
  induction m generalizing lo with
  | nil =>
    by_cases hv : v = Memory.default
    · by_cases hb : b = a <;> simp [Memory.write, hv, Memory.read, hb]
    · by_cases hb : b = a
      · simp [Memory.write, hv, Memory.read, hb]
      · simp [Memory.write, hv, Memory.read, hb, Ne.symm hb]
  | cons c rest ih =>
    obtain ⟨k, w⟩ := c
    obtain ⟨h1, h2, h3, h4⟩ := Memory.wfFrom_cons h
    unfold Memory.write
    by_cases hlt : a < k
    · have hka : k ≠ a := by omega
      by_cases hv : v = Memory.default
      · by_cases hb : b = a
        · subst hb
          have := Memory.read_of_lt h4 (show b < k + 1 by omega)
          simp [hlt, hv, Memory.read, hka, this]
        · simp [hlt, hv, hb]
      · by_cases hb : b = a
        · simp [hlt, hv, hb, Memory.read]
        · simp [hlt, hv, hb, Memory.read, Ne.symm hb]
    · by_cases heq : a = k
      · subst heq
        by_cases hv : v = Memory.default
        · by_cases hb : b = a
          · subst hb
            have := Memory.read_of_lt h4 (show b < b + 1 by omega)
            simp [hv, this]
          · simp [hv, hb, Memory.read, Ne.symm hb]
        · by_cases hb : b = a
          · simp [hv, hb, Memory.read]
          · simp [hv, hb, Memory.read, Ne.symm hb]
      · have hka : k ≠ a := fun e => heq e.symm
        simp only [hlt, heq, if_false, Memory.read]
        rw [ih h4]
        by_cases hb : b = a
        · subst hb
          simp [hka]
        · simp [hb]

/-! ### Bytes, words and double words -/

theorem wf_writeTmem8 {m : Memory} (h : m.wf = true) (a : Nat) (v : Byte) : (writeTmem8 m a v).wf = true :=
  Memory.wfFrom_write v h (Nat.zero_le _) (Nat.mod_lt _ (by decide))

theorem tmem8_writeTmem8 {m : Memory} (h : m.wf = true) (a b : Nat) (v : Byte) :
    tmem8 (writeTmem8 m a v) b = if b % 4096 = a % 4096 then v else tmem8 m b :=
  Memory.read_write _ _ v h

theorem wf_writeTmem16 {m : Memory} (h : m.wf = true) (w : Nat) (v : Half) : (writeTmem16 m w v).wf = true :=
  wf_writeTmem8 (wf_writeTmem8 h _ _) _ _

/-- The two bytes of a 16-bit write, the high one first (R101, R102). -/
theorem tmem8_writeTmem16 {m : Memory} (h : m.wf = true) (w b : Nat) (v : Half) :
    tmem8 (writeTmem16 m w v) b =
      if b % 4096 = 2 * (w % 2048) + 1 then v.extractLsb' 0 8
      else if b % 4096 = 2 * (w % 2048) then v.extractLsb' 8 8 else tmem8 m b := by
  unfold writeTmem16
  rw [tmem8_writeTmem8 (wf_writeTmem8 h _ _), tmem8_writeTmem8 h]
  have h1 : (2 * (w % 2048) + 1) % 4096 = 2 * (w % 2048) + 1 := by omega
  have h2 : (2 * (w % 2048)) % 4096 = 2 * (w % 2048) := by omega
  rw [h1, h2]

/-- A 16-bit word is read back at its own index and no other is changed. -/
theorem tmem16_writeTmem16 {m : Memory} (h : m.wf = true) (w x : Nat) (v : Half) :
    tmem16 (writeTmem16 m w v) x = if x % 2048 = w % 2048 then v else tmem16 m x := by
  unfold tmem16
  rw [tmem8_writeTmem16 h, tmem8_writeTmem16 h]
  have h1 : (2 * (x % 2048)) % 4096 = 2 * (x % 2048) := by omega
  have h2 : (2 * (x % 2048) + 1) % 4096 = 2 * (x % 2048) + 1 := by omega
  rw [h1, h2]
  have h3 : ¬ 2 * (x % 2048) = 2 * (w % 2048) + 1 := by omega
  have h4 : ¬ 2 * (x % 2048) + 1 = 2 * (w % 2048) := by omega
  by_cases hx : x % 2048 = w % 2048
  · have hc : halfOf (v.extractLsb' 8 8) (v.extractLsb' 0 8) = v := by
      unfold halfOf
      apply BitVec.eq_of_getLsbD_eq
      intro i hi
      rw [BitVec.getLsbD_append, BitVec.getLsbD_extractLsb', BitVec.getLsbD_extractLsb']
      by_cases hlt : i < 8
      · simp [hlt]
      · have e1 : 8 + (i - 8) = i := by omega
        have e2 : i - 8 < 8 := by omega
        simp [hlt, e1, e2]
    simp [hx, hc]
  · have h5 : ¬ 2 * (x % 2048) = 2 * (w % 2048) := by omega
    have h6 : ¬ 2 * (x % 2048) + 1 = 2 * (w % 2048) + 1 := by omega
    rw [if_neg h3, if_neg h5, if_neg h6, if_neg h4, if_neg hx]

theorem wf_writeTmem64 {m : Memory} (h : m.wf = true) (q : Nat) (v : Dword) : (writeTmem64 m q v).wf = true :=
  wf_writeTmem16 (wf_writeTmem16 (wf_writeTmem16 (wf_writeTmem16 h _ _) _ _) _ _) _ _

/-- A 64-bit write changes the eight bytes of its double word only. -/
theorem tmem8_writeTmem64_of_out {m : Memory} (h : m.wf = true) (q b : Nat) (v : Dword)
    (hb : b % 4096 / 8 ≠ q % 512) : tmem8 (writeTmem64 m q v) b = tmem8 m b := by
  unfold writeTmem64
  have hw := wf_writeTmem16 h (4 * (q % 512)) (v.extractLsb' 48 16)
  have hw2 := wf_writeTmem16 hw (4 * (q % 512) + 1) (v.extractLsb' 32 16)
  have hw3 := wf_writeTmem16 hw2 (4 * (q % 512) + 2) (v.extractLsb' 16 16)
  simp only []
  rw [tmem8_writeTmem16 hw3, if_neg (by omega), if_neg (by omega), tmem8_writeTmem16 hw2, if_neg (by omega),
    if_neg (by omega), tmem8_writeTmem16 hw, if_neg (by omega), if_neg (by omega), tmem8_writeTmem16 h,
    if_neg (by omega), if_neg (by omega)]

/-- The four 16-bit words of a 64-bit write, the first the most significant (R101, R102). -/
theorem tmem16_writeTmem64 {m : Memory} (h : m.wf = true) (q : Nat) (v : Dword) (x : Nat) :
    tmem16 (writeTmem64 m q v) x =
      if x % 2048 = 4 * (q % 512) + 3 then v.extractLsb' 0 16
      else if x % 2048 = 4 * (q % 512) + 2 then v.extractLsb' 16 16
      else if x % 2048 = 4 * (q % 512) + 1 then v.extractLsb' 32 16
      else if x % 2048 = 4 * (q % 512) then v.extractLsb' 48 16 else tmem16 m x := by
  unfold writeTmem64
  simp only
  have h1 := wf_writeTmem16 h (4 * (q % 512)) (v.extractLsb' 48 16)
  have h2 := wf_writeTmem16 h1 (4 * (q % 512) + 1) (v.extractLsb' 32 16)
  have h3 := wf_writeTmem16 h2 (4 * (q % 512) + 2) (v.extractLsb' 16 16)
  rw [tmem16_writeTmem16 h3, tmem16_writeTmem16 h2, tmem16_writeTmem16 h1, tmem16_writeTmem16 h]
  have e : ∀ i, i < 4 → (4 * (q % 512) + i) % 2048 = 4 * (q % 512) + i := by
    intro i hi
    omega
  rw [e 3 (by omega), e 2 (by omega), e 1 (by omega), show (4 * (q % 512)) % 2048 = 4 * (q % 512) by omega]

/-- A double word is its four 16-bit words. -/
theorem dword_of_halves (v : Dword) :
    v.extractLsb' 48 16 ++ v.extractLsb' 32 16 ++ v.extractLsb' 16 16 ++ v.extractLsb' 0 16 = v := by
  apply BitVec.eq_of_getLsbD_eq
  intro i hi
  simp only [BitVec.getLsbD_append, BitVec.getLsbD_extractLsb']
  by_cases a : i < 16
  · simp [a]
  · by_cases b : i < 32
    · have : i - 16 < 16 := by omega
      have e : 16 + (i - 16) = i := by omega
      simp [a, this, e]
    · by_cases c : i < 48
      · have n1 : ¬ i - 16 < 16 := by omega
        have n2 : i - 16 - 16 < 16 := by omega
        have e : 32 + (i - 16 - 16) = i := by omega
        simp [a, n1, n2, e]
      · have n1 : ¬ i - 16 < 16 := by omega
        have n2 : ¬ i - 16 - 16 < 16 := by omega
        have n3 : i - 16 - 16 - 16 < 16 := by omega
        have e : 48 + (i - 16 - 16 - 16) = i := by omega
        simp [a, n1, n2, n3, e]

/-- A double word is read back at its own index and no other is changed (R101, R102). -/
theorem tmem64_writeTmem64 {m : Memory} (h : m.wf = true) (q x : Nat) (v : Dword) :
    tmem64 (writeTmem64 m q v) x = if x % 512 = q % 512 then v else tmem64 m x := by
  unfold tmem64
  simp only [tmem16_writeTmem64 h]
  have e : ∀ i, i < 4 → (4 * (x % 512) + i) % 2048 = 4 * (x % 512) + i := by
    intro i hi
    omega
  have e0 : (4 * (x % 512)) % 2048 = 4 * (x % 512) := by omega
  simp only [e 3 (by omega), e 2 (by omega), e 1 (by omega), e0]
  by_cases hx : x % 512 = q % 512
  · rw [hx]
    simp
    exact dword_of_halves v
  · have n : ∀ i j, i < 4 → j < 4 → 4 * (x % 512) + i ≠ 4 * (q % 512) + j := by
      intro i j hi hj
      omega
    have n' := fun j hj => n 0 j (by omega) hj
    have n'' := fun i hi => n i 0 hi (by omega)
    simp only [Nat.add_zero] at n' n''
    have n2 : 4 * (x % 512) ≠ 4 * (q % 512) := by omega
    simp only [n 3 3 (by omega) (by omega), n 3 2 (by omega) (by omega), n 3 1 (by omega) (by omega),
      n 2 3 (by omega) (by omega), n 2 2 (by omega) (by omega), n 2 1 (by omega) (by omega),
      n 1 3 (by omega) (by omega), n 1 2 (by omega) (by omega), n 1 1 (by omega) (by omega), n' 3 (by omega),
      n' 2 (by omega), n' 1 (by omega), n'' 3 (by omega), n'' 2 (by omega), n'' 1 (by omega), n2, hx, if_false]

theorem wf_writeBytes {m : Memory} (h : m.wf = true) (ws : List (BitVec 12 × Byte)) : (writeBytes m ws).wf = true := by
  unfold writeBytes
  induction ws generalizing m with
  | nil => exact h
  | cons p rest ih => exact ih (wf_writeTmem8 h _ _)

end Sys2Proof.Machine
end

