-- ==== Sys2Proof/Laws/Loads.lean ====
section
/-! SUPPORT. What the TMEM writes of the loads do: they keep the canonical form and change no byte outside the addresses
Safety names. -/

namespace Sys2Proof.Machine

/-! ### Texels -/

theorem wf_storeSplit {m : Memory} (h : m.wf = true) (w v : Nat) : (storeSplit m w v).wf = true :=
  wf_writeTmem16 (wf_writeTmem16 h _ _) _ _

/-- A 16-bit write changes no byte outside its word. -/
theorem tmem8_writeTmem16_of_out {m : Memory} (h : m.wf = true) (w b : Nat) (v : Half)
    (hb : b % 4096 ∉ wordBytes w) : tmem8 (writeTmem16 m w v) b = tmem8 m b := by
  simp only [wordBytes, List.mem_cons, List.not_mem_nil, or_false, not_or] at hb
  rw [tmem8_writeTmem16 h, if_neg hb.2, if_neg hb.1]

/-- A split write changes no byte outside its two words. -/
theorem tmem8_storeSplit_of_out {m : Memory} (h : m.wf = true) (w b v : Nat)
    (hb : b % 4096 ∉ wordBytes w ++ wordBytes (w + 0x400)) : tmem8 (storeSplit m w v) b = tmem8 m b := by
  rw [List.mem_append, not_or] at hb
  unfold storeSplit
  rw [tmem8_writeTmem16_of_out (wf_writeTmem16 h _ _) _ _ _ hb.2, tmem8_writeTmem16_of_out h _ _ _ hb.1]

theorem wf_storeTexel {m : Memory} (h : m.wf = true) (size : BitVec 2) (tile : Tile) (s t v : Nat) :
    (storeTexel size tile m s t v).wf = true := by
  unfold storeTexel
  split
  · exact wf_writeTmem8 h _ _
  · split
    · exact wf_writeTmem16 h _ _
    · exact wf_storeSplit h _ _

/-- A texel store changes no byte outside the texel's. -/
theorem tmem8_storeTexel_of_out {m : Memory} (h : m.wf = true) (size : BitVec 2) (tile : Tile) (s t v b : Nat)
    (hb : b % 4096 ∉ texelBytes size tile s t) : tmem8 (storeTexel size tile m s t v) b = tmem8 m b := by
  unfold storeTexel
  unfold texelBytes at hb
  split
  · next h1 =>
    rw [if_pos h1, List.mem_singleton] at hb
    rw [tmem8_writeTmem8 h, if_neg hb]
  · next h1 =>
    rw [if_neg h1] at hb
    split
    · next h2 =>
      rw [if_pos h2] at hb
      exact tmem8_writeTmem16_of_out h _ _ _ hb
    · next h2 =>
      rw [if_neg h2] at hb
      exact tmem8_storeSplit_of_out h _ _ _ hb

/-! ### Rows and rectangles -/

theorem wf_storeRow {m : Memory} (h : m.wf = true) (size : BitVec 2) (tile : Tile) (t n s : Nat) (bs : List Byte) :
    (storeRow size tile t n s bs m).wf = true := by
  induction n generalizing s bs m with
  | zero => exact h
  | succ n ih => exact ih (wf_storeTexel h _ _ _ _ _) _ _

/-- A row store changes no byte outside its texels'. -/
theorem tmem8_storeRow_of_out {m : Memory} (h : m.wf = true) (size : BitVec 2) (tile : Tile) (t n s : Nat)
    (bs : List Byte) (b : Nat) (hb : ∀ k < n, b % 4096 ∉ texelBytes size tile (s + k) t) :
    tmem8 (storeRow size tile t n s bs m) b = tmem8 m b := by
  induction n generalizing s bs m with
  | zero => rfl
  | succ n ih =>
    rw [storeRow, ih (wf_storeTexel h _ _ _ _ _) (s + 1) _ (fun k hk => by
      have := hb (k + 1) (by omega)
      rwa [show s + (k + 1) = s + 1 + k by omega] at this)]
    exact tmem8_storeTexel_of_out h _ _ _ _ _ _ (hb 0 (by omega))

/-- A fold of operations that each keep a property keeps it. -/
theorem foldl_keeps {α β : Type} (P : α → Prop) (f : α → β → α) (hf : ∀ a b, P a → P (f a b)) (a : α) (bs : List β)
    (h : P a) : P (bs.foldl f a) := by
  induction bs generalizing a with
  | nil => exact h
  | cons b rest ih => exact ih (f a b) (hf a b h)

/-- A fold of operations that each keep a property, over the members of a list, keeps it. -/
theorem foldl_keeps_mem {α β : Type} (P : α → Prop) (f : α → β → α) (bs : List β)
    (hf : ∀ a b, b ∈ bs → P a → P (f a b)) (a : α) (h : P a) : P (bs.foldl f a) := by
  induction bs generalizing a with
  | nil => exact h
  | cons b rest ih =>
    exact ih (fun a' b' hb' => hf a' b' (List.mem_cons_of_mem _ hb')) (f a b) (hf a b (List.mem_cons_self ..) h)

theorem wf_loadTileRect (image : TexImage) (tile : Tile) (ls : LoadState) (h : ls.tmem.wf = true) :
    (loadTileRect image tile ls).tmem.wf = true := by
  unfold loadTileRect
  exact foldl_keeps (fun l : LoadState => l.tmem.wf = true) _ (fun l j hl => wf_storeRow hl _ _ _ _ _ _) _ _ h

/-- A rectangle load changes no byte outside the texels it stores. -/
theorem tmem8_loadTileRect_of_out (image : TexImage) (tile : Tile) (ls : LoadState) (h : ls.tmem.wf = true) (b : Nat)
    (hb : b % 4096 ∉ tileRectBytes image tile) : tmem8 (loadTileRect image tile ls).tmem b = tmem8 ls.tmem b := by
  unfold loadTileRect
  refine (foldl_keeps_mem (fun l : LoadState => l.tmem.wf = true ∧ tmem8 l.tmem b = tmem8 ls.tmem b) _ _ ?_ ls
    ⟨h, rfl⟩).2
  intro l j hj hl
  refine ⟨wf_storeRow hl.1 _ _ _ _ _ _, ?_⟩
  rw [← hl.2]
  unfold loadRow
  refine tmem8_storeRow_of_out hl.1 _ _ _ _ _ _ _ (fun k hk => ?_)
  intro hmem
  refine hb (List.mem_flatMap.mpr ⟨j, hj, List.mem_flatMap.mpr ⟨k, List.mem_range.mpr hk, ?_⟩⟩)
  simpa using hmem

/-! ### Blocks -/

theorem wf_storeBlockWord {m : Memory} (h : m.wf = true) (size : BitVec 2) (tile : Tile) (dxt j : Nat) (v : Dword) :
    (storeBlockWord size tile dxt j v m).wf = true := by
  unfold storeBlockWord
  split
  · exact wf_storeSplit (wf_storeSplit h _ _) _ _
  · exact wf_writeTmem64 h _ _

/-- A source word of a block load changes no byte outside those it is stored to. -/
theorem tmem8_storeBlockWord_of_out {m : Memory} (h : m.wf = true) (size : BitVec 2) (tile : Tile) (dxt j b : Nat)
    (v : Dword) (hb : b % 4096 ∉ blockWordBytes size tile dxt j) :
    tmem8 (storeBlockWord size tile dxt j v m) b = tmem8 m b := by
  unfold storeBlockWord
  unfold blockWordBytes at hb
  split
  · next h3 =>
    rw [if_pos h3] at hb
    simp only [List.flatMap_cons, List.flatMap_nil, List.append_nil, List.mem_append, not_or] at hb
    rw [tmem8_storeSplit_of_out (wf_storeSplit h _ _) _ _ _ (by
        rw [List.mem_append, not_or]; exact hb.2),
      tmem8_storeSplit_of_out h _ _ _ (by rw [List.mem_append, not_or]; exact hb.1)]
  · next h3 =>
    rw [if_neg h3] at hb
    refine tmem8_writeTmem64_of_out h _ _ _ (fun e => hb (List.mem_map.mpr ⟨b % 8, List.mem_range.mpr ?_, ?_⟩))
    · omega
    · rw [← e]
      omega

theorem wf_storeBlock {m : Memory} (h : m.wf = true) (size : BitVec 2) (tile : Tile) (dxt n j : Nat) (bs : List Byte) :
    (storeBlock size tile dxt n j bs m).wf = true := by
  induction n generalizing j bs m with
  | zero => exact h
  | succ n ih => exact ih (wf_storeBlockWord h _ _ _ _ _) _ _

/-- A block store changes no byte outside its words'. -/
theorem tmem8_storeBlock_of_out {m : Memory} (h : m.wf = true) (size : BitVec 2) (tile : Tile) (dxt n j : Nat)
    (bs : List Byte) (b : Nat) (hb : ∀ k < n, b % 4096 ∉ blockWordBytes size tile dxt (j + k)) :
    tmem8 (storeBlock size tile dxt n j bs m) b = tmem8 m b := by
  induction n generalizing j bs m with
  | zero => rfl
  | succ n ih =>
    rw [storeBlock, ih (wf_storeBlockWord h _ _ _ _ _) (j + 1) _ (fun k hk => by
      have := hb (k + 1) (by omega)
      rwa [show j + (k + 1) = j + 1 + k by omega] at this)]
    exact tmem8_storeBlockWord_of_out h _ _ _ _ _ _ (hb 0 (by omega))

theorem wf_loadBlockLinear (image : TexImage) (tile : Tile) (sl tl sh dxt : BitVec 12) (ls : LoadState)
    (h : ls.tmem.wf = true) : (loadBlockLinear image tile sl tl sh dxt ls).tmem.wf = true :=
  wf_storeBlock h _ _ _ _ _ _

/-- A block load changes no byte outside the words it stores. -/
theorem tmem8_loadBlockLinear_of_out (image : TexImage) (tile : Tile) (sl tl sh dxt : BitVec 12) (ls : LoadState)
    (h : ls.tmem.wf = true) (b : Nat) (hb : b % 4096 ∉ blockBytes image tile sl sh dxt) :
    tmem8 (loadBlockLinear image tile sl tl sh dxt ls).tmem b = tmem8 ls.tmem b := by
  unfold loadBlockLinear
  refine tmem8_storeBlock_of_out h _ _ _ _ _ _ _ (fun k hk hmem => ?_)
  refine hb (List.mem_flatMap.mpr ⟨k, List.mem_range.mpr hk, ?_⟩)
  simpa using hmem

/-! ### Texels of a block of 32-bit texels (R342, R344) -/

/-- XOR with 0 or 2 moves a word within its group of four. -/
theorem xor_parts (x b : Nat) (hb : b = 0 ∨ b = 2) : (x ^^^ b) / 4 = x / 4 ∧ (x ^^^ b) % 4 = (x % 4 + b) % 4 := by
  have h1 : (x ^^^ b) / 2 ^ 2 = x / 2 ^ 2 ^^^ b / 2 ^ 2 := Nat.xor_div_two_pow
  have h2 : (x ^^^ b) % 2 ^ 2 = x % 2 ^ 2 ^^^ b % 2 ^ 2 := Nat.xor_mod_two_pow
  norm_num at h1 h2
  rw [h1, h2]
  have key : ∀ r, r < 4 → r ^^^ 2 = (r + 2) % 4 := by decide
  rcases hb with rfl | rfl
  · simp
  · exact ⟨by simp, key _ (Nat.mod_lt _ (by omega))⟩

theorem blockWord32_lt (tile : Tile) (dxt k : Nat) : blockWord32 tile dxt k < 1024 := Nat.mod_lt _ (by omega)

/-- The texels of a block of at most 512 words stand at different words. -/
theorem blockWord32_inj (tile : Tile) (dxt k k' : Nat) (hk : k < 1024) (hk' : k' < 1024)
    (h : blockWord32 tile dxt k = blockWord32 tile dxt k') : k = k' := by
  unfold blockWord32 at h
  generalize hb : (if dxtOdd dxt (k / 4) = true then 2 else 0) = b at h
  generalize hb' : (if dxtOdd dxt (k' / 4) = true then 2 else 0) = b' at h
  have h1 := xor_parts (4 * tile.shape.tmem.toNat + k) b (by rw [← hb]; split <;> simp)
  have h2 := xor_parts (4 * tile.shape.tmem.toNat + k') b' (by rw [← hb']; split <;> simp)
  have e : k / 4 = k' / 4 := by omega
  have : b = b' := by rw [← hb, ← hb', e]
  have h3 : b = 0 ∨ b = 2 := by rw [← hb]; split <;> simp
  omega

/-- What a word holds after a 32-bit texel is stored (R344). -/
theorem tmem16_storeSplit {m : Memory} (h : m.wf = true) (w v x : Nat) : tmem16 (storeSplit m w v) x =
    if x % 2048 = (w + 0x400) % 2048 then BitVec.ofNat 16 v
    else if x % 2048 = w % 2048 then BitVec.ofNat 16 (v / 65536) else tmem16 m x := by
  unfold storeSplit
  rw [tmem16_writeTmem16 (wf_writeTmem16 h _ _), tmem16_writeTmem16 h]

/-! ### Palettes -/

theorem wf_storeEntry {m : Memory} (h : m.wf = true) (w : Nat) (v : Half) : (storeEntry m w v).wf = true :=
  wf_writeTmem16 (wf_writeTmem16 (wf_writeTmem16 (wf_writeTmem16 h _ _) _ _) _ _) _ _

/-- A palette entry is read back at its four words, and no other word changes. -/
theorem tmem16_storeEntry {m : Memory} (h : m.wf = true) (w x : Nat) (v : Half) :
    tmem16 (storeEntry m w v) x =
      if x % 2048 = w % 2048 ∨ x % 2048 = (w + 1) % 2048 ∨ x % 2048 = (w + 2) % 2048 ∨ x % 2048 = (w + 3) % 2048 then v
      else tmem16 m x := by
  unfold storeEntry
  have h1 := wf_writeTmem16 h w v
  have h2 := wf_writeTmem16 h1 (w + 1) v
  have h3 := wf_writeTmem16 h2 (w + 2) v
  rw [tmem16_writeTmem16 h3, tmem16_writeTmem16 h2, tmem16_writeTmem16 h1, tmem16_writeTmem16 h]
  by_cases e3 : x % 2048 = (w + 3) % 2048
  · simp [e3]
  · by_cases e2 : x % 2048 = (w + 2) % 2048
    · simp [e2]
    · by_cases e1 : x % 2048 = (w + 1) % 2048
      · simp [e1]
      · simp [e1, e2, e3]

/-- A palette entry changes no byte outside its copies'. -/
theorem tmem8_storeEntry_of_out {m : Memory} (h : m.wf = true) (w b : Nat) (v : Half)
    (hb : b % 4096 ∉ (List.range 4).flatMap (fun i => wordBytes (w + i))) : tmem8 (storeEntry m w v) b = tmem8 m b := by
  have hall : ∀ i < 4, b % 4096 ∉ wordBytes (w + i) := fun i hi hm =>
    hb (List.mem_flatMap.mpr ⟨i, List.mem_range.mpr hi, hm⟩)
  unfold storeEntry
  have h1 := wf_writeTmem16 h w v
  have h2 := wf_writeTmem16 h1 (w + 1) v
  have h3 := wf_writeTmem16 h2 (w + 2) v
  rw [tmem8_writeTmem16_of_out h3 _ _ _ (hall 3 (by omega)), tmem8_writeTmem16_of_out h2 _ _ _ (hall 2 (by omega)),
    tmem8_writeTmem16_of_out h1 _ _ _ (hall 1 (by omega)), tmem8_writeTmem16_of_out h _ _ _ (by simpa using hall 0 (by omega))]

theorem wf_storeEntries {m : Memory} (h : m.wf = true) (tile : Tile) (n k : Nat) (bs : List Byte) :
    (storeEntries tile n k bs m).wf = true := by
  induction n generalizing k bs m with
  | zero => exact h
  | succ n ih => exact ih (wf_storeEntry h _ _) _ _

/-- The palette stores change no byte outside the entries' copies. -/
theorem tmem8_storeEntries_of_out {m : Memory} (h : m.wf = true) (tile : Tile) (n k : Nat) (bs : List Byte) (b : Nat)
    (hb : ∀ i < n, b % 4096 ∉ entryBytes tile (k + i)) : tmem8 (storeEntries tile n k bs m) b = tmem8 m b := by
  induction n generalizing k bs m with
  | zero => rfl
  | succ n ih =>
    rw [storeEntries, ih (wf_storeEntry h _ _) (k + 1) _ (fun i hi => by
      have := hb (i + 1) (by omega)
      rwa [show k + (i + 1) = k + 1 + i by omega] at this)]
    exact tmem8_storeEntry_of_out h _ _ _ (hb 0 (by omega))

theorem wf_loadTlutEntries (image : TexImage) (tile : Tile) (ls : LoadState) (h : ls.tmem.wf = true) :
    (loadTlutEntries image tile ls).tmem.wf = true :=
  wf_storeEntries h _ _ _ _

/-- A palette load changes no byte outside the copies it stores. -/
theorem tmem8_loadTlutEntries_of_out (image : TexImage) (tile : Tile) (ls : LoadState) (h : ls.tmem.wf = true) (b : Nat)
    (hb : b % 4096 ∉ tlutBytes tile) : tmem8 (loadTlutEntries image tile ls).tmem b = tmem8 ls.tmem b := by
  unfold loadTlutEntries
  refine tmem8_storeEntries_of_out h _ _ _ _ _ (fun i hi hmem => ?_)
  refine hb (List.mem_flatMap.mpr ⟨i, List.mem_range.mpr hi, ?_⟩)
  simpa using hmem

theorem wf_loadBankSort (image : TexImage) (tile : Tile) (ls : LoadState) (h : ls.tmem.wf = true) :
    (loadBankSort image tile ls).tmem.wf = true :=
  wf_writeBytes h _

end Sys2Proof.Machine
end

