-- ==== Sys2Proof/Laws/PerInstr.lean ====
section
/-! SUPPORT. The per-instruction family `OpcodeField`: the command word an instruction encodes to carries its opcode in
`cmd[61:56]` (30_encoding.md R140, R144), whatever its operands. -/

namespace Sys2Proof.Laws

/-- The encoded command word carries the instruction's opcode. -/
def OpcodeField.Statement (i : Instr) : Prop := opcodeOf (encodeCmd i) = i.opcode

/-- The opcode is read back where no operand field reaches it. -/
theorem opcodeField_of_body (i : Instr) (h : i.body.extractLsb' 56 6 = 0#6) : OpcodeField.Statement i := by
  show (put 56 i.opcode ||| i.body).extractLsb' 56 6 = i.opcode
  rw [extract_or, extract_put_same 56 i.opcode (by omega), h]
  simp

/-- The OR of two words that leave the opcode 0 leaves it 0. -/
theorem opcode_or {a b : Dword} (ha : a.extractLsb' 56 6 = 0#6) (hb : b.extractLsb' 56 6 = 0#6) :
    (a ||| b).extractLsb' 56 6 = 0#6 := by
  rw [extract_or, ha, hb]
  rfl

/-- A field below bit 56 leaves the opcode 0. -/
theorem opcode_put {n : Nat} (lo : Nat) (x : BitVec n) (h : lo + n ≤ 56) : (put lo x).extractLsb' 56 6 = 0#6 :=
  extract_put_of_disjoint lo x 56 6 (.inl h)

/-- A flag below bit 56 leaves the opcode 0. -/
theorem opcode_flag (lo : Nat) (b : Bool) (h : lo < 56) : (putFlag lo b).extractLsb' 56 6 = 0#6 :=
  extract_putFlag_of_out lo b 56 6 (.inl h)

/-- The fields of the tile commands lie below the opcode. -/
theorem tileBody_opcode (t : BitVec 3) (sl tl sh lo : BitVec 12) : (tileBody t sl tl sh lo).extractLsb' 56 6 = 0#6 :=
  (opcode_or (opcode_or (opcode_or (opcode_or (opcode_put 44 sl (by decide)) (opcode_put 32 tl (by decide)))
    (opcode_put 24 t (by decide))) (opcode_put 12 sh (by decide))) (opcode_put 0 lo (by decide)))

theorem OpcodeField.nop : OpcodeField.Statement .nop := opcodeField_of_body _ rfl

theorem OpcodeField.syncLoad : OpcodeField.Statement .syncLoad := opcodeField_of_body _ rfl

theorem OpcodeField.syncPipe : OpcodeField.Statement .syncPipe := opcodeField_of_body _ rfl

theorem OpcodeField.syncTile : OpcodeField.Statement .syncTile := opcodeField_of_body _ rfl

theorem OpcodeField.syncFull : OpcodeField.Statement .syncFull := opcodeField_of_body _ rfl

theorem OpcodeField.setConvert (k : ConvertConsts) : OpcodeField.Statement (.setConvert k) :=
  opcodeField_of_body _ (opcode_or (opcode_or (opcode_or (opcode_or (opcode_or (opcode_put 45 k.k0 (by decide))
    (opcode_put 36 k.k1 (by decide))) (opcode_put 27 k.k2 (by decide))) (opcode_put 18 k.k3 (by decide))) (opcode_put
    9 k.k4 (by decide))) (opcode_put 0 k.k5 (by decide)))

theorem OpcodeField.setPrimDepth (z : BitVec 15) (dz : BitVec 16) : OpcodeField.Statement (.setPrimDepth z dz) :=
  opcodeField_of_body _ (opcode_or (opcode_put 16 z (by decide)) (opcode_put 0 dz (by decide)))

/-- The fields of SET_OTHER_MODES' first word lie below the opcode. -/
theorem modesHigh_opcode (m : OtherModes) : (modesHigh m).extractLsb' 56 6 = 0#6 :=
  (opcode_or (opcode_or (opcode_or (opcode_or (opcode_or (opcode_or (opcode_or (opcode_or (opcode_or (opcode_or
    (opcode_or (opcode_or (opcode_or (opcode_or (opcode_or (opcode_flag 55 m.atomicPrim (by decide)) (opcode_put 52
    m.cycleType (by decide))) (opcode_flag 51 m.perspTexEn (by decide))) (opcode_flag 50 m.detailTexEn (by decide)))
    (opcode_flag 49 m.sharpenTexEn (by decide))) (opcode_flag 48 m.texLodEn (by decide))) (opcode_flag 47 m.enTlut (by
    decide))) (opcode_flag 46 m.tlutType (by decide))) (opcode_flag 45 m.sampleType (by decide))) (opcode_flag 44
    m.midTexel (by decide))) (opcode_flag 43 m.biLerp0 (by decide))) (opcode_flag 42 m.biLerp1 (by decide)))
    (opcode_flag 41 m.convertOne (by decide))) (opcode_flag 40 m.keyEn (by decide))) (opcode_put 38 m.rgbDitherSel (by
    decide))) (opcode_put 36 m.alphaDitherSel (by decide)))

/-- The fields of SET_OTHER_MODES' second word lie below the opcode. -/
theorem modesLow_opcode (m : OtherModes) : (modesLow m).extractLsb' 56 6 = 0#6 :=
  (opcode_or (opcode_or (opcode_or (opcode_or (opcode_or (opcode_or (opcode_or (opcode_or (opcode_or (opcode_or
    (opcode_or (opcode_or (opcode_or (opcode_or (opcode_or (opcode_or (opcode_or (opcode_or (opcode_or (opcode_or
    (opcode_put 30 m.bM1a0 (by decide)) (opcode_put 28 m.bM1a1 (by decide))) (opcode_put 26 m.bM1b0 (by decide)))
    (opcode_put 24 m.bM1b1 (by decide))) (opcode_put 22 m.bM2a0 (by decide))) (opcode_put 20 m.bM2a1 (by decide)))
    (opcode_put 18 m.bM2b0 (by decide))) (opcode_put 16 m.bM2b1 (by decide))) (opcode_flag 14 m.forceBlend (by
    decide))) (opcode_flag 13 m.alphaCvgSelect (by decide))) (opcode_flag 12 m.cvgTimesAlpha (by decide))) (opcode_put
    10 m.zMode (by decide))) (opcode_put 8 m.cvgDest (by decide))) (opcode_flag 7 m.colorOnCvg (by decide)))
    (opcode_flag 6 m.imageReadEn (by decide))) (opcode_flag 5 m.zUpdateEn (by decide))) (opcode_flag 4 m.zCompareEn
    (by decide))) (opcode_flag 3 m.antialiasEn (by decide))) (opcode_flag 2 m.zSourceSel (by decide))) (opcode_flag 1
    m.ditherAlphaEn (by decide))) (opcode_flag 0 m.alphaCompareEn (by decide)))

theorem OpcodeField.setOtherModes (m : OtherModes) : OpcodeField.Statement (.setOtherModes m) :=
  opcodeField_of_body _ (opcode_or (modesHigh_opcode m) (modesLow_opcode m))

theorem OpcodeField.loadTlut (t : BitVec 3) (b : TileBounds) : OpcodeField.Statement (.loadTlut t b) :=
  opcodeField_of_body _ (tileBody_opcode t b.sl b.tl b.sh b.th)

theorem OpcodeField.setTileSize (t : BitVec 3) (b : TileBounds) : OpcodeField.Statement (.setTileSize t b) :=
  opcodeField_of_body _ (tileBody_opcode t b.sl b.tl b.sh b.th)

theorem OpcodeField.loadBlock (t : BitVec 3) (sl tl sh dxt : BitVec 12) :
    OpcodeField.Statement (.loadBlock t sl tl sh dxt) :=
  opcodeField_of_body _ (tileBody_opcode t sl tl sh dxt)

theorem OpcodeField.loadTile (t : BitVec 3) (b : TileBounds) : OpcodeField.Statement (.loadTile t b) :=
  opcodeField_of_body _ (tileBody_opcode t b.sl b.tl b.sh b.th)

theorem OpcodeField.setTile (t : BitVec 3) (d : TileShape) : OpcodeField.Statement (.setTile t d) :=
  opcodeField_of_body _ (opcode_or (opcode_or (opcode_or (opcode_or (opcode_or (opcode_or (opcode_or (opcode_or
    (opcode_or (opcode_or (opcode_or (opcode_or (opcode_or (opcode_put 53 d.format (by decide)) (opcode_put 51 d.size
    (by decide))) (opcode_put 41 d.line (by decide))) (opcode_put 32 d.tmem (by decide))) (opcode_put 24 t (by
    decide))) (opcode_put 20 d.palette (by decide))) (opcode_flag 19 d.ct (by decide))) (opcode_flag 18 d.mt (by
    decide))) (opcode_put 14 d.maskT (by decide))) (opcode_put 10 d.shiftT (by decide))) (opcode_flag 9 d.cs (by
    decide))) (opcode_flag 8 d.ms (by decide))) (opcode_put 4 d.maskS (by decide))) (opcode_put 0 d.shiftS (by
    decide)))

theorem OpcodeField.fillRectangle (xl yl xh yh : BitVec 12) : OpcodeField.Statement (.fillRectangle xl yl xh yh) :=
  opcodeField_of_body _ (opcode_or (opcode_or (opcode_or (opcode_put 44 xl (by decide)) (opcode_put 32 yl (by
    decide))) (opcode_put 12 xh (by decide))) (opcode_put 0 yh (by decide)))

theorem OpcodeField.setFillColor (v : Word) : OpcodeField.Statement (.setFillColor v) :=
  opcodeField_of_body _ (opcode_put 0 v (by decide))

theorem OpcodeField.setTextureImage (f : BitVec 3) (z : BitVec 2) (w : BitVec 11) (a : BitVec 24) :
    OpcodeField.Statement (.setTextureImage f z w a) :=
  opcodeField_of_body _ (opcode_or (opcode_or (opcode_or (opcode_put 53 f (by decide)) (opcode_put 51 z (by decide)))
    (opcode_put 32 ((w - 1).setWidth 10) (by decide))) (opcode_put 0 a (by decide)))

end Sys2Proof.Laws
end

