-- ==== Sys2Proof/Laws/Ranges.lean ====
section
/-! SUPPORT. The ranges the stages produce (10_state.md R63; 44_texture_filter.md R367; 45_combiner.md R385, R388;
46_blender.md R411): nine-bit combiner values, and 0..255 in the registers the blender works on. -/

namespace Sys2Proof.Machine

/-! ### Lanes -/

/-- A small non-negative integer survives a 32-bit lane. -/
theorem toInt_ofInt_lane {v : Int} (h0 : 0 ≤ v) (h1 : v ≤ 0x7FFFFFFF) : (BitVec.ofInt 32 v).toInt = v := by
  rw [BitVec.toInt_ofInt]
  apply Int.bmod_eq_of_le <;> omega

/-- A Color register made of integers in a range holds that range. -/
theorem within_ofInts {bound r g b a : Int} (hb : bound ≤ 0x7FFFFFFF) (hr : 0 ≤ r ∧ r ≤ bound) (hg : 0 ≤ g ∧ g ≤ bound)
    (hbl : 0 ≤ b ∧ b ≤ bound) (ha : 0 ≤ a ∧ a ≤ bound) : (Color.ofInts r g b a).within bound := by
  unfold Color.within Color.ofInts Color.lane Color.alpha
  simp only
  rw [toInt_ofInt_lane hr.1 (by omega), toInt_ofInt_lane hg.1 (by omega), toInt_ofInt_lane hbl.1 (by omega),
    toInt_ofInt_lane ha.1 (by omega)]
  exact ⟨hr, hg, hbl, ha⟩

/-- The zero register is in every range. -/
theorem within_zero {bound : Int} (h : 0 ≤ bound) : Color.zero.within bound := by
  unfold Color.within Color.zero Color.lane Color.alpha
  simp [h]

/-- A constant color is in 0..255. -/
theorem within_colorOfRgba8 (c : Rgba8) : (colorOfRgba8 c).within 255 := by
  have h1 := c.r.isLt
  have h2 := c.g.isLt
  have h3 := c.b.isLt
  have h4 := c.a.isLt
  exact within_ofInts (by omega) (by omega) (by omega) (by omega) (by omega)

/-! ### Combiner -/

/-- A right shift of a non-negative integer is non-negative (R11). -/
theorem asr_nonneg {v : Int} (n : Nat) (h : 0 ≤ v) : 0 ≤ asr v n := Int.ediv_nonneg h (Int.natCast_nonneg _)

/-- `zext_n` lies in `0 .. 2^n - 1` (R11). -/
theorem zext_bounds (n : Nat) (v : Int) : 0 ≤ zext n v ∧ zext n v < ((2 ^ n : Nat) : Int) := by
  have h : (0 : Int) < ((2 ^ n : Nat) : Int) := by exact_mod_cast Nat.two_pow_pos n
  exact ⟨Int.emod_nonneg _ (by omega), Int.emod_lt_of_pos _ h⟩

/-- A combiner lane is a nine-bit value (R383). -/
theorem combineLane_bounds (a b c d : Int) : 0 ≤ combineLane a b c d ∧ combineLane a b c d ≤ 0x1FF := by
  have h := zext_bounds 17 ((ext9 a - ext9 b) * sext 9 c + ext9 d * 256 + 0x80)
  unfold combineLane asr
  norm_num at h ⊢
  omega

/-- `clamp9` gives 0..255 (R384). -/
theorem clamp9_bounds (v : Int) : 0 ≤ clamp9 v ∧ clamp9 v ≤ 255 := by
  have h := (zext_bounds 9 v).1
  unfold clamp9
  simp only
  split
  · omega
  · split <;> omega

/-- `combined` holds nine-bit values (R385). -/
theorem within_combineCycle (g : Settings) (sel : CycleSel) (i : CombInputs) :
    (combineCycle g sel i).within 0x1FF :=
  within_ofInts (by omega) (combineLane_bounds ..) (combineLane_bounds ..) (combineLane_bounds ..)
    (combineLane_bounds ..)

/-- The blender's input pixel lies in 0..255 (R388). -/
theorem within_clampPixel (c : Color) : (clampPixel c).within 255 :=
  within_ofInts (by omega) (clamp9_bounds _) (clamp9_bounds _) (clamp9_bounds _) (clamp9_bounds _)

/-- Chroma key keeps the pixel in 0..255 (R389). -/
theorem within_chromaKey (g : Settings) (combined pixel : Color) (h : pixel.within 255) :
    (chromaKey g combined pixel).1.within 255 := by
  unfold chromaKey
  split
  · exact within_colorOfRgba8 _
  · exact h

/-! ### Coverage and dither -/

theorem cvgCount_le (mask : BitVec 8) : cvgCount mask ≤ 8 := by
  have h := List.length_filter_le (fun i => mask.getLsbD i) (List.range 8)
  simpa [cvgCount] using h

/-- A dither value for alpha is never negative (R432). -/
theorem adith_nonneg (m : OtherModes) (x y : Nat) (cr ar : Int) : 0 ≤ (ditherTable m x y cr ar).adith := by
  unfold ditherTable
  simp only
  split
  · exact Int.natCast_nonneg _
  · split
    · exact (zext_bounds _ _).1
    · split
      · split <;> exact (zext_bounds _ _).1
      · exact Int.le_refl 0

/-- The alpha of R423 stays in 0..255. -/
theorem coverageAlpha_bounds (m : OtherModes) (alpha : Int) (cvg : Nat) (adith : Int) (h0 : 0 ≤ alpha)
    (h1 : alpha ≤ 255) (ha : 0 ≤ adith) :
    0 ≤ (coverageAlpha m alpha cvg adith).1 ∧ (coverageAlpha m alpha cvg adith).1 ≤ 255 := by
  unfold coverageAlpha
  have ht : 0 ≤ asr (alpha * cvg + 4) 3 := by
    have : 0 ≤ alpha * (cvg : Int) := Int.mul_nonneg h0 (Int.natCast_nonneg _)
    exact asr_nonneg 3 (by omega)
  simp only
  split
  · split <;> omega
  · split <;> omega

/-- The blender's input pixel after R423 lies in 0..255. -/
theorem within_pixelColor (g : Settings) (mask : BitVec 8) (adith : Int) (combined : Color) (ha : 0 ≤ adith) :
    (pixelColor g mask adith combined).pixel.within 255 := by
  have hk := within_chromaKey g combined _ (within_clampPixel combined)
  have hc := coverageAlpha_bounds g.cfg (chromaKey g combined (clampPixel combined)).1.alpha (cvgCount mask) adith
    hk.2.2.2.1 hk.2.2.2.2 ha
  unfold pixelColor
  refine ⟨hk.1, hk.2.1, hk.2.2.1, ?_⟩
  show 0 ≤ (BitVec.ofInt 32 _).toInt ∧ (BitVec.ofInt 32 _).toInt ≤ 255
  rw [toInt_ofInt_lane hc.1 (by omega)]
  exact hc

/-! ### Blender -/

/-- From operands in 0..255 the blend equation gives 0..255. -/
theorem blendLane_bounds (shift : Bool) {p a m b : Int} (hp : 0 ≤ p) (ha : 0 ≤ a) (hm : 0 ≤ m) (hb : 0 ≤ b) :
    0 ≤ blendLane shift p a m b ∧ blendLane shift p a m b ≤ 255 := by
  unfold blendLane
  have hfa : 0 ≤ asr a 3 := asr_nonneg 3 ha
  have hfb : 0 ≤ asr b 3 := asr_nonneg 3 hb
  have hn : 0 ≤ p * asr a 3 + m * (asr b 3 + 1) :=
    Int.add_nonneg (Int.mul_nonneg hp hfa) (Int.mul_nonneg hm (by omega))
  simp only
  split
  · have := asr_nonneg 5 hn
    omega
  · have : 0 ≤ (p * asr a 3 + m * (asr b 3 + 1)) / (asr a 3 + asr b 3 + 1) := Int.ediv_nonneg hn (by omega)
    omega

/-- A blend colour operand lies in 0..255. -/
theorem within_blendColorOperand (g : Settings) (pix mem : Color) (code : BitVec 2) (hp : pix.within 255)
    (hm : mem.within 255) : (blendColorOperand g pix mem code).within 255 := by
  unfold blendColorOperand
  split
  · exact hp
  · split
    · exact hm
    · split <;> exact within_colorOfRgba8 _

/-- `inv_pixel.a` takes a value in 0..255 and nothing else of the registers changes (R404). -/
theorem inRange_setInvPixel (r : ColorRegs) (a : Int) (h : r.InRange) : (setInvPixel r a).InRange := by
  obtain ⟨h1, h2, h3, h4, h5⟩ := h
  refine ⟨h1, h2, h3, ⟨h4.1, h4.2.1, h4.2.2.1, ?_⟩, h5⟩
  have hz := zext_bounds 8 (compl a)
  norm_num at hz
  unfold setInvPixel Color.alpha
  simp only
  rw [toInt_ofInt_lane hz.1 (by omega)]
  omega

/-- The first alpha operand is never negative. -/
theorem blendAlphaOperand_nonneg (g : Settings) (r : ColorRegs) (code : BitVec 2) (h : r.InRange) :
    0 ≤ blendAlphaOperand g r code := by
  obtain ⟨_, hs, hp, _⟩ := h
  unfold blendAlphaOperand
  split
  · exact hp.2.2.2.1
  · split
    · exact Int.natCast_nonneg _
    · split
      · exact hs.2.2.2.1
      · exact Int.le_refl 0

/-- The second alpha operand is never negative. -/
theorem blendInvOperand_nonneg (r : ColorRegs) (code : BitVec 2) (h : r.InRange) : 0 ≤ blendInvOperand r code := by
  obtain ⟨_, _, _, hi, _, hm, _⟩ := h
  unfold blendInvOperand
  split
  · exact hi.2.2.2.1
  · split
    · exact hm.2.2.2.1
    · split <;> decide

/-- The final blender cycle keeps the register ranges (R406). -/
theorem inRange_blendFinal (g : Settings) (cycle1 : Bool) (pix : Color) (prewrap blendEn : Bool) (r : ColorRegs)
    (h : r.InRange) : (blendFinal g cycle1 pix prewrap blendEn r).1.InRange := by
  unfold blendFinal
  simp only
  split
  · exact h
  · split
    · exact h
    · exact inRange_setInvPixel r _ h

/-- The first blender cycle of 2-cycle mode keeps the register ranges (R407). -/
theorem inRange_blendFirst (g : Settings) (r : ColorRegs) (h : r.InRange) : (blendFirst g r).InRange := by
  have hi := inRange_setInvPixel r (blendAlphaOperand g r (blendSel g.cfg false).a) h
  have ha := blendAlphaOperand_nonneg g r (blendSel g.cfg false).a h
  have hb := blendInvOperand_nonneg _ (blendSel g.cfg false).b hi
  have hP := within_blendColorOperand g r.pixel r.preMemory (blendSel g.cfg false).p h.2.2.1 h.2.2.2.2.2.2
  have hM := within_blendColorOperand g r.pixel r.preMemory (blendSel g.cfg false).m h.2.2.1 h.2.2.2.2.2.2
  refine ⟨hi.1, hi.2.1, hi.2.2.1, hi.2.2.2.1, ?_, hi.2.2.2.2.2⟩
  exact within_ofInts (by omega) (blendLane_bounds true hP.1.1 ha hM.1.1 hb)
    (blendLane_bounds true hP.2.1.1 ha hM.2.1.1 hb) (blendLane_bounds true hP.2.2.1.1 ha hM.2.2.1.1 hb) h.2.2.1.2.2.2

/-- The blender keeps the register ranges. -/
theorem inRange_blendPixel (g : Settings) (two prewrap blendEn : Bool) (r : ColorRegs) (h : r.InRange) :
    (blendPixel g two prewrap blendEn r).1.InRange := by
  unfold blendPixel
  split
  · exact inRange_blendFinal g true _ _ _ _ (inRange_blendFirst g r h)
  · exact inRange_blendFinal g false _ _ _ _ h

/-! ### Pixels -/

/-- The memory color lies in 0..255 (R402). -/
theorem within_memoryColor (m : OtherModes) (x y : BitVec 10) (p : Ports) : (memoryColor m x y p).1.within 255 := by
  unfold memoryColor
  split
  · have h1 := (p.fbRead x y).1.mr.isLt
    have h2 := (p.fbRead x y).1.mg.isLt
    have h3 := (p.fbRead x y).1.mb.isLt
    have h4 := (p.fbRead x y).1.memcvg.isLt
    exact within_ofInts (by omega) (by omega) (by omega) (by omega) (by omega)
  · exact within_ofInts (by omega) (by omega) (by omega) (by omega) (by omega)

/-- The end of a pixel keeps the register ranges. -/
theorem inRange_finishPixel (g : Settings) (two : Bool) (pin : PixelIn) (dith : DitherVals) (ps : PixelState)
    (hd : 0 ≤ dith.adith) (h : ps.regs.InRange) : (finishPixel g two pin dith ps).regs.InRange := by
  have hp : (backEnd g pin dith.adith ps).color.pixel.within 255 :=
    within_pixelColor g pin.mask dith.adith ps.regs.combined hd
  have hm : (backEnd g pin dith.adith ps).mem.within 255 := within_memoryColor g.cfg pin.x pin.y _
  obtain ⟨h1, h2, _, h4, h5, _, h7⟩ := h
  have hr : ColorRegs.InRange { ps.regs with
      pixel := (backEnd g pin dith.adith ps).color.pixel, memory := (backEnd g pin dith.adith ps).mem } :=
    ⟨h1, h2, hp, h4, h5, hm, h7⟩
  unfold finishPixel
  simp only
  split
  · obtain ⟨b1, b2, b3, b4, b5, b6, _⟩ := inRange_blendPixel g two
      (prewrapOf (backEnd g pin dith.adith ps).color.cvg (backEnd g pin dith.adith ps).memcvg)
      (blendEnOf g.cfg (prewrapOf (backEnd g pin dith.adith ps).color.cvg (backEnd g pin dith.adith ps).memcvg)
        (backEnd g pin dith.adith ps).farther) _ hr
    exact ⟨b1, b2, b3, b4, b5, b6, hm⟩
  · exact ⟨h1, h2, hp, h4, h5, hm, hm⟩

/-- A pixel with a clamped shade keeps the register ranges. -/
theorem inRange_drawPixel (g : Settings) (m : Memory) (prim : Prim) (ps : PixelState) (pin : PixelIn)
    (hs : pin.shade.within 255) (h : ps.regs.InRange) : (drawPixel g m prim ps pin).regs.InRange := by
  obtain ⟨_, _, h3, h4, h5, h6, h7⟩ := h
  unfold drawPixel
  split
  · exact inRange_finishPixel g false pin _ _ (adith_nonneg ..)
      ⟨within_combineCycle .., hs, h3, h4, h5, h6, h7⟩
  · exact inRange_finishPixel g true pin _ _ (adith_nonneg ..)
      ⟨within_combineCycle .., hs, h3, h4, h5, h6, h7⟩
  · exact ⟨by assumption, by assumption, h3, h4, h5, h6, h7⟩
  · exact ⟨by assumption, by assumption, h3, h4, h5, h6, h7⟩

/-- The shade of a pixel of a primitive lies in 0..255 (R246). -/
theorem within_shade_pixelIn (g : Settings) (p : Prim) (y : Nat) (body : SpanBody) (xstart x : Int) (n : Option Int) :
    (pixelIn g p y body xstart x n).shade.within 255 := by
  unfold pixelIn
  simp only
  split
  · refine within_ofInts (by omega) ?_ ?_ ?_ ?_ <;> unfold clamp255 <;> omega
  · exact within_zero (by omega)

/-- Every pixel of an ordered span is one `pixelIn` of a pixel inside the clip rectangle. -/
theorem mem_orderedPixels {g : Settings} {p : Prim} {y : Nat} {body : SpanBody} {xstart : Int} {xs : List Int}
    {pin : PixelIn} (h : pin ∈ orderedPixels g p y body xstart xs) :
    ∃ (x : Int) (n : Option Int), insideClip g.clip x y = true ∧ pin = pixelIn g p y body xstart x n := by
  induction xs with
  | nil => exact absurd h (List.not_mem_nil)
  | cons x rest ih =>
    unfold orderedPixels at h
    simp only at h
    split at h
    · next hc =>
      rcases List.mem_cons.mp h with h | h
      · exact ⟨x, _, hc, h⟩
      · exact ih h
    · exact ih h

/-- Every pixel of a primitive is one `pixelIn` of a written scanline, inside the clip rectangle. -/
theorem mem_primPixels {g : Settings} {p : Prim} {old : SpanBuffer} {pin : PixelIn} (h : pin ∈ primPixels g p old) :
    ∃ (y : Nat) (body : SpanBody) (xstart x : Int) (n : Option Int), y ∈ scanlines g p ∧
      scanlineValid g p y = true ∧ insideClip g.clip x y = true ∧ pin = pixelIn g p y body xstart x n := by
  obtain ⟨y, hy, hp⟩ := List.mem_flatMap.mp h
  unfold spanPixels at hp
  split at hp
  · next hv =>
    obtain ⟨x, n, hc, he⟩ := mem_orderedPixels hp
    refine ⟨y, _, _, x, n, hy, ?_, hc, he⟩
    by_contra hn
    simp [spanEntry, hn] at hv
  · exact absurd hp (List.not_mem_nil)

/-- Drawing pixels of a primitive keeps the register ranges. -/
theorem inRange_drawPixels (g : Settings) (m : Memory) (prim : Prim) (pins : List PixelIn) (ps : PixelState)
    (hs : ∀ pin ∈ pins, pin.shade.within 255) (h : ps.regs.InRange) : (drawPixels g m prim ps pins).regs.InRange := by
  induction pins generalizing ps with
  | nil => exact h
  | cons pin rest ih =>
    exact ih _ (fun q hq => hs q (List.mem_cons_of_mem _ hq))
      (inRange_drawPixel g m prim ps pin (hs pin (List.mem_cons_self ..)) h)

end Sys2Proof.Machine
end

