-- ==== Sys2Proof/Laws/Rectangle.lean ====
section
/-! SUPPORT. The pixels of a rectangle of whole-pixel corners (41_edge_walker.md R232, R240 to R245): its corners, its
scanlines, and its spans as intervals. -/

namespace Sys2Proof.Machine

/-! ### Intervals -/

/-- The members of `0 .. n-1` in an interval are the interval. -/
theorem filter_range_interval (lo hi n : Nat) (h : hi ≤ n) :
    (List.range n).filter (fun x => decide (lo ≤ x ∧ x < hi)) = List.range' lo (hi - lo) := by
  induction n generalizing hi with
  | zero =>
    have : hi - lo = 0 := by omega
    simp [this]
  | succ n ih =>
    rw [List.range_succ, List.filter_append]
    by_cases hn : lo ≤ n ∧ n < hi
    · have hh : hi = n + 1 := by omega
      have e : (List.range n).filter (fun x => decide (lo ≤ x ∧ x < hi)) =
          (List.range n).filter (fun x => decide (lo ≤ x ∧ x < n)) := by
        refine List.filter_congr (fun x hx => ?_)
        have := List.mem_range.mp hx
        simp only [decide_eq_decide]
        omega
      rw [e, ih n (Nat.le_refl n), List.filter_singleton, decide_eq_true hn, hh, Nat.succ_sub hn.1, List.range'_concat]
      simp
      omega
    · rw [List.filter_singleton, decide_eq_false hn]
      rcases Nat.lt_or_ge n hi with h1 | h1
      · have e : (List.range n).filter (fun x => decide (lo ≤ x ∧ x < hi)) = [] := by
          refine List.filter_eq_nil_iff.mpr (fun x hx => ?_)
          have := List.mem_range.mp hx
          simp only [decide_eq_true_eq]
          omega
        rw [e, show hi - lo = 0 by omega]
        rfl
      · rw [ih hi h1]
        simp

/-- A range of pixels from a non-negative one is the interval of naturals. -/
theorem pixelRange_nat (lo stop : Nat) (hi : Int) (h : hi = (stop : Int) - 1) :
    pixelRange lo hi = (List.range' lo (stop - lo)).map (fun x => ((x : Nat) : Int)) := by
  unfold pixelRange
  have e : (hi - (lo : Int) + 1).toNat = stop - lo := by omega
  rw [e, List.range'_eq_map_range, List.map_map]
  exact List.map_congr_left (fun i _ => by simp)

/-! ### Corners of a rectangle command -/

/-- A 10.2 corner as an s15.16 word. -/
theorem corner_toInt (v : BitVec 12) : (v.setWidth 32 <<< 14).toInt = 16384 * (v.toNat : Int) := by
  have h := v.isLt
  rw [BitVec.toInt_eq_toNat_of_lt] <;>
    rw [BitVec.toNat_shiftLeft, BitVec.toNat_setWidth, Nat.shiftLeft_eq] <;> norm_num <;> omega

/-- A 10.2 corner as an s11.2 value. -/
theorem edge_toInt (v : BitVec 12) : (v.setWidth 14).toInt = (v.toNat : Int) := by
  have h := v.isLt
  rw [BitVec.toInt_eq_toNat_of_lt] <;> rw [BitVec.toNat_setWidth] <;> norm_num <;> omega

/-- A whole-pixel corner has no fraction bits as an s15.16 word. -/
theorem corner_fraction (v : BitVec 12) (h : v.toNat % 4 = 0) : (v.setWidth 32 <<< 14).extractLsb' 0 16 = 0#16 := by
  have hv := v.isLt
  apply BitVec.eq_of_toNat_eq
  rw [BitVec.extractLsb'_toNat, BitVec.toNat_shiftLeft, BitVec.toNat_setWidth, Nat.shiftLeft_eq]
  norm_num
  omega

/-- A whole-pixel edge has no fraction bits as an s11.2 value. -/
theorem edge_fraction (v : BitVec 12) (h : v.toNat % 4 = 0) : (v.setWidth 14).extractLsb' 0 2 = 0#2 := by
  have hv := v.isLt
  apply BitVec.eq_of_toNat_eq
  rw [BitVec.extractLsb'_toNat, BitVec.toNat_setWidth]
  norm_num
  omega

/-- The corners of a FILL_RECTANGLE with whole-pixel operands (R240, R241). -/
theorem wholeCorners_rectangle (xl yl xh yh : BitVec 12) (h1 : xh.toNat % 4 = 0) (h2 : yh.toNat % 4 = 0)
    (h3 : xl.toNat % 4 = 0) (h4 : yl.toNat % 4 = 0) :
    wholeCorners (rectanglePrimitive xh yh xl yl) =
      some ⟨(xh.toNat / 4 : Nat), (yh.toNat / 4 : Nat), (xl.toNat / 4 : Nat), (yl.toNat / 4 : Nat)⟩ := by
  unfold wholeCorners
  rw [if_pos ⟨rfl, rfl, rfl, rfl, rfl, corner_fraction xh h1, corner_fraction xl h3, edge_fraction yh h2,
    edge_fraction yl h4⟩]
  show some (⟨asr (xh.setWidth 32 <<< 14).toInt 16, asr (yh.setWidth 14).toInt 2,
    asr (xl.setWidth 32 <<< 14).toInt 16, asr (yl.setWidth 14).toInt 2⟩ : Corners) = _
  rw [corner_toInt, corner_toInt, edge_toInt, edge_toInt]
  unfold asr
  congr 2 <;> norm_num <;> omega

/-- A FILL_RECTANGLE is empty exactly where its operands cross (R242). -/
theorem rectEmpty_rectangle (xl yl xh yh : BitVec 12) :
    rectEmpty (rectanglePrimitive xh yh xl yl) = decide (xl.toNat < xh.toNat ∨ yl.toNat < yh.toNat) := by
  show (decide _ && (decide ((xl.setWidth 32 <<< 14).toInt < (xh.setWidth 32 <<< 14).toInt) ||
    decide ((yl.setWidth 14).toInt < (yh.setWidth 14).toInt))) = _
  rw [corner_toInt, corner_toInt, edge_toInt, edge_toInt]
  have e1 : ((16384 * (xl.toNat : Int) < 16384 * (xh.toNat : Int)) ↔ xl.toNat < xh.toNat) := by omega
  have e2 : (((yl.toNat : Int)) < (yh.toNat : Int) ↔ yl.toNat < yh.toNat) := by omega
  simp only [e1, e2]
  simp [rectanglePrimitive]

/-- The lower edge `yl | 3` of a whole-pixel rectangle (R187). -/
theorem lowerEdge_toInt (v : BitVec 12) (h : v.toNat % 4 = 0) : (v.setWidth 14 ||| 3#14).toInt = (v.toNat : Int) + 3 := by
  have hv := v.isLt
  have e : (v.setWidth 14 ||| 3#14).toNat = v.toNat + 3 := by
    rw [BitVec.toNat_or, BitVec.toNat_setWidth, Nat.mod_eq_of_lt (by omega)]
    have := Nat.two_pow_add_eq_or_of_lt (show 3 < 2 ^ 2 by omega) (v.toNat / 4)
    have hm : 2 ^ 2 * (v.toNat / 4) = v.toNat := by omega
    rw [hm] at this
    exact this.symm
  rw [BitVec.toInt_eq_toNat_of_lt (by rw [e]; omega), e]
  omega

/-! ### Cycle types -/

/-- The cycle types whose rectangles include their lower and right edges are copy and fill (R32, R187). -/
theorem fillOrCopy_eq (m : OtherModes) : fillOrCopy m = (cycleType m == .copy || cycleType m == .fill) := by
  unfold fillOrCopy cycleType
  generalize m.cycleType = c
  revert c
  decide

/-! ### Spans -/

/-- The largest of some bounds is one of them, and none is above it. -/
theorem maxOf_spec (l : List Int) (hne : l ≠ []) : maxOf l ∈ l ∧ ∀ x ∈ l, x ≤ maxOf l := by
  induction l with
  | nil => exact absurd rfl hne
  | cons a rest ih =>
    cases rest with
    | nil => exact ⟨List.mem_singleton.mpr rfl, fun x hx => (List.mem_singleton.mp hx).le⟩
    | cons b rest =>
      obtain ⟨h1, h2⟩ := ih (by simp)
      refine ⟨?_, fun x hx => ?_⟩
      · show max a (maxOf (b :: rest)) ∈ _
        rcases max_choice a (maxOf (b :: rest)) with h | h
        · rw [h]; exact List.mem_cons_self ..
        · rw [h]; exact List.mem_cons_of_mem _ h1
      · show x ≤ max a (maxOf (b :: rest))
        rcases List.mem_cons.mp hx with rfl | hx
        · exact le_max_left ..
        · exact (h2 x hx).trans (le_max_right ..)

/-- The least of some bounds is one of them, and none is below it. -/
theorem minOf_spec (l : List Int) (hne : l ≠ []) : minOf l ∈ l ∧ ∀ x ∈ l, minOf l ≤ x := by
  induction l with
  | nil => exact absurd rfl hne
  | cons a rest ih =>
    cases rest with
    | nil => exact ⟨List.mem_singleton.mpr rfl, fun x hx => (List.mem_singleton.mp hx).ge⟩
    | cons b rest =>
      obtain ⟨h1, h2⟩ := ih (by simp)
      refine ⟨?_, fun x hx => ?_⟩
      · show min a (minOf (b :: rest)) ∈ _
        rcases min_choice a (minOf (b :: rest)) with h | h
        · rw [h]; exact List.mem_cons_self ..
        · rw [h]; exact List.mem_cons_of_mem _ h1
      · show min a (minOf (b :: rest)) ≤ x
        rcases List.mem_cons.mp hx with rfl | hx
        · exact min_le_left ..
        · exact (min_le_right ..).trans (h2 x hx)

/-- The largest of equal bounds. -/
theorem maxOf_const (v : Int) (l : List Int) (hne : l ≠ []) (h : ∀ x ∈ l, x = v) : maxOf l = v :=
  h _ (maxOf_spec l hne).1

/-- The least of equal bounds. -/
theorem minOf_const (v : Int) (l : List Int) (hne : l ≠ []) (h : ∀ x ∈ l, x = v) : minOf l = v :=
  h _ (minOf_spec l hne).1

/-- The pixels of an ordered span are those inside the clip rectangle, each one `pixelIn` (R243, R245). -/
theorem orderedPixels_coords (g : Settings) (p : Prim) (y : Nat) (body : SpanBody) (xstart : Int) (xs : List Int)
    (hw : (wholeCorners p).isSome = true) :
    (orderedPixels g p y body xstart xs).map (fun q => (q.x, q.y, q.mask)) =
      (xs.filter (fun x => insideClip g.clip x y)).map (fun x => (BitVec.ofInt 10 x, BitVec.ofNat 10 y, 0xFF)) := by
  induction xs with
  | nil => rfl
  | cons x rest ih =>
    unfold orderedPixels
    simp only
    rw [List.filter_cons]
    split
    · rw [List.map_cons, List.map_cons, ih]
      simp [pixelIn, hw]
    · exact ih

/-- Inserting adds one member. -/
theorem insertBy_perm (key : Int → Nat) (x : Int) (l : List Int) : (insertBy key x l).Perm (x :: l) := by
  induction l with
  | nil => exact .refl _
  | cons y rest ih =>
    unfold insertBy
    split
    · exact (ih.cons y).trans (.swap x y rest)
    · exact .refl _

/-- Inserting members one by one keeps them all. -/
theorem foldl_insertBy_perm (key : Int → Nat) (l acc : List Int) :
    (l.foldl (fun acc x => insertBy key x acc) acc).Perm (l ++ acc) := by
  induction l generalizing acc with
  | nil => exact .refl _
  | cons x rest ih =>
    exact (ih _).trans (((insertBy_perm key x acc).append_left rest).trans List.perm_middle)

/-- The order of R245 leaves no pixel of the span out and adds none. -/
theorem pixelOrder_perm (g : Settings) (p : Prim) (y : Nat) (body : SpanBody) :
    (pixelOrder g p y body).Perm (pixelRange body.lx body.rx) := by
  unfold pixelOrder
  split
  · exact .refl _
  · exact (foldl_insertBy_perm _ _ []).trans (by rw [List.append_nil])

/-- The order of R245 is increasing x for the primitives it, or program P4, says so of. -/
theorem pixelOrder_rising (g : Settings) (p : Prim) (y : Nat) (body : SpanBody) (h : risingOrder g p = true) :
    pixelOrder g p y body = pixelRange body.lx body.rx := if_pos h

/-- A rearranged list of naturals, as integers, is a rearranged list of naturals. -/
theorem perm_natCast {l : List Int} {ns : List Nat} (h : l.Perm (ns.map (fun x => ((x : Nat) : Int)))) :
    ∃ xs : List Nat, xs.Perm ns ∧ l = xs.map (fun x => ((x : Nat) : Int)) := by
  refine ⟨l.map Int.toNat, (h.map Int.toNat).trans (.of_eq ?_), ?_⟩ <;> rw [List.map_map]
  · exact (List.map_congr_left (fun x _ => Int.toNat_natCast x)).trans (List.map_id ns)
  refine (List.map_id l).symm.trans (List.map_congr_left (fun x hx => ?_))
  obtain ⟨n, _, rfl⟩ := List.mem_map.mp (h.mem_iff.mp hx)
  simp

/-- The pixels of a valid scanline of a rectangle of whole-pixel corners: the columns of the rectangle that lie inside
the clip rectangle, each once, in increasing x for `risingOrder` (R241, R243, R245). -/
theorem spanPixels_wholeCorners (g : Settings) (p : Prim) (y : Nat) (b : SpanBuffer) (c : Corners)
    (hc : wholeCorners p = some c)
    (left stop : Nat) (hl : c.left = left) (hr : (if fillOrCopy g.cfg then c.right else c.right - 1) = (stop : Int) - 1)
    (hstop : stop ≤ 1024) (hv : scanlineValid g p y = true) :
    ∃ xs : List Nat,
      xs.Perm ((List.range 1024).filter (fun x => decide ((left ≤ x ∧ x < stop) ∧ insideClip g.clip x y = true))) ∧
      (risingOrder g p = true →
        xs = (List.range 1024).filter (fun x => decide ((left ≤ x ∧ x < stop) ∧ insideClip g.clip x y = true))) ∧
      (spanPixels g p y (spanEntry g p b y)).map (fun q => (q.x, q.y, q.mask)) =
        xs.map (fun x => (BitVec.ofNat 10 x, BitVec.ofNat 10 y, 0xFF)) := by
  have hsub : subScanlines g p y ≠ [] := by
    intro h0; unfold scanlineValid at hv; rw [h0] at hv; simp at hv
  have hb : ∀ k, subBounds g p y k = ((left : Int), (stop : Int) - 1) := by
    intro k; unfold subBounds; rw [hc]; simp only; rw [hr, hl]
  have hlx : (spanBody g p y).lx = left := by
    refine maxOf_const _ _ (by simpa using hsub) (fun x hx => ?_)
    obtain ⟨k, _, rfl⟩ := List.mem_map.mp hx
    show (subBounds _ _ _ _).1 = _; rw [hb]
  have hrx : (spanBody g p y).rx = (stop : Int) - 1 := by
    refine minOf_const _ _ (by simpa using hsub) (fun x hx => ?_)
    obtain ⟨k, _, rfl⟩ := List.mem_map.mp hx
    show (subBounds _ _ _ _).2 = _; rw [hb]
  have hrange : pixelRange (spanBody g p y).lx (spanBody g p y).rx =
      (List.range' left (stop - left)).map (fun x => ((x : Nat) : Int)) := by
    rw [hlx, hrx]; exact pixelRange_nat _ _ _ rfl
  have hcols : (List.range' left (stop - left)).filter (fun x : Nat => insideClip g.clip x y) =
      (List.range 1024).filter (fun x => decide ((left ≤ x ∧ x < stop) ∧ insideClip g.clip x y = true)) := by
    rw [← filter_range_interval left stop 1024 hstop, List.filter_filter]
    refine List.filter_congr (fun x _ => ?_)
    simp [Bool.and_comm, Bool.decide_and]
  obtain ⟨xs, hp, he⟩ := perm_natCast (hrange ▸ pixelOrder_perm g p y (spanBody g p y))
  refine ⟨xs.filter (fun x : Nat => insideClip g.clip x y),
    (hp.filter _).trans (by rw [hcols]), fun h => ?_, ?_⟩
  · rw [pixelOrder_rising g p y _ h, hrange] at he
    rw [← hcols, List.map_injective_iff.mpr Nat.cast_injective he]
  · unfold spanEntry
    rw [if_pos hv]
    unfold spanPixels
    simp only [if_true]
    rw [orderedPixels_coords _ _ _ _ _ _ (by rw [hc]; rfl), he, List.filter_map, List.map_map]
    simp [Function.comp_def]

/-- A scanline that is not valid has no pixel (R232, R242). -/
theorem spanPixels_invalid (g : Settings) (p : Prim) (y : Nat) (b : SpanBuffer) (hv : scanlineValid g p y = false) :
    spanPixels g p y (spanEntry g p b y) = [] := by
  unfold spanPixels spanEntry; rw [hv]; rfl

end Sys2Proof.Machine
end

