-- ==== Sys2Proof/Laws/Spans.lean ====
section
/-! SUPPORT. What the edge walk does to the span buffer (10_state.md R66; 41_edge_walker.md R232): it keeps the canonical form, and what an
entry reads as after it. -/

namespace Sys2Proof.Machine

/-- A buffer ordered from a higher scanline is ordered from a lower one. -/
theorem entriesOk_mono {m : List (Nat × SpanEntry)} {lo lo' : Nat} (hle : lo' ≤ lo) (h : SpanBuffer.entriesOk lo m) :
    SpanBuffer.entriesOk lo' m := by
  cases m with
  | nil => exact trivial
  | cons p rest => exact ⟨Nat.le_trans hle h.1, h.2⟩

/-- Dropping entries keeps the order. -/
theorem entriesOk_filter (q : Nat × SpanEntry → Bool) {m : List (Nat × SpanEntry)} {lo : Nat}
    (h : SpanBuffer.entriesOk lo m) : SpanBuffer.entriesOk lo (m.filter q) := by
  induction m generalizing lo with
  | nil => exact trivial
  | cons p rest ih =>
    obtain ⟨h1, h2, h3, h4⟩ := h
    rw [List.filter_cons]
    split
    · exact ⟨h1, h2, h3, ih h4⟩
    · exact entriesOk_mono (Nat.le_succ_of_le h1) (ih h4)

/-- Entries above a scanline are ordered from the next one on. -/
theorem entriesOk_above (hi : Nat) {m : List (Nat × SpanEntry)} {lo : Nat} (h : SpanBuffer.entriesOk lo m) :
    SpanBuffer.entriesOk (hi + 1) (m.filter (fun e => decide (hi < e.1))) := by
  induction m generalizing lo with
  | nil => exact trivial
  | cons p rest ih =>
    obtain ⟨h1, h2, h3, h4⟩ := h
    rw [List.filter_cons]
    split
    · next hp =>
      have hp' : hi < p.1 := by simpa using hp
      exact ⟨hp', h2, h3, entriesOk_filter _ h4⟩
    · exact ih h4

/-- An ordered list below a bound, followed by an ordered list from that bound on. -/
theorem entriesOk_append {a b : List (Nat × SpanEntry)} {lo mid : Nat} (ha : SpanBuffer.entriesOk lo a)
    (hlt : ∀ e ∈ a, e.1 < mid) (hb : SpanBuffer.entriesOk mid b) (hle : lo ≤ mid) : SpanBuffer.entriesOk lo (a ++ b) := by
  induction a generalizing lo with
  | nil => exact entriesOk_mono hle hb
  | cons p rest ih =>
    obtain ⟨h1, h2, h3, h4⟩ := ha
    exact ⟨h1, h2, h3, ih h4 (fun e he => hlt e (List.mem_cons_of_mem _ he)) (hlt p (List.mem_cons_self ..))⟩

/-- A block of consecutive scanlines, its default entries dropped, is in canonical form. -/
theorem entriesOk_block (f : Nat → SpanEntry) (lo n : Nat) (hle : lo + n ≤ Config.spanCount) :
    SpanBuffer.entriesOk lo (((List.range' lo n).map (fun y => (y, f y))).filter
      (fun e => decide (e.2 ≠ SpanEntry.default))) := by
  induction n generalizing lo with
  | zero => exact trivial
  | succ n ih =>
    rw [List.range'_succ, List.map_cons, List.filter_cons]
    split
    · next h => exact ⟨Nat.le_refl _, by omega, of_decide_eq_true h, ih (lo + 1) (by omega)⟩
    · exact entriesOk_mono (Nat.le_succ lo) (ih (lo + 1) (by omega))

/-- What `putEntries` does with a block of consecutive scanlines that is not empty. -/
theorem putEntries_block (old : List (Nat × SpanEntry)) (f : Nat → SpanEntry) (lo n : Nat) :
    putEntries old (List.range' lo (n + 1)) f =
      old.filter (fun e => decide (e.1 < lo)) ++
        ((List.range' lo (n + 1)).map (fun y => (y, f y))).filter (fun e => decide (e.2 ≠ SpanEntry.default)) ++
        old.filter (fun e => decide (lo + n < e.1)) := by
  unfold putEntries
  rw [show (List.range' lo (n + 1)).head? = some lo by rw [List.range'_succ]; rfl,
    show (List.range' lo (n + 1)).getLast? = some (lo + n) by rw [List.range'_concat]; simp]

/-- Writing a block of consecutive scanlines keeps the canonical form. -/
theorem entriesOk_putEntries {old : List (Nat × SpanEntry)} (f : Nat → SpanEntry) (h : SpanBuffer.entriesOk 0 old)
    (lo n : Nat) (hle : lo + n ≤ Config.spanCount ∨ n = 0) :
    SpanBuffer.entriesOk 0 (putEntries old (List.range' lo n) f) := by
  rcases n with _ | n
  · exact h
  have hle' : lo + (n + 1) ≤ Config.spanCount := hle.resolve_right (by omega)
  rw [putEntries_block, List.append_assoc]
  refine entriesOk_append (mid := lo) (entriesOk_filter _ h) (fun e he => ?_) ?_ (Nat.zero_le _)
  · simpa using (List.mem_filter.mp he).2
  · refine entriesOk_append (mid := lo + n + 1) (entriesOk_block f lo (n + 1) hle') (fun e he => ?_)
      (entriesOk_above _ h) (by omega)
    obtain ⟨y, hy, rfl⟩ := List.mem_map.mp (List.mem_filter.mp he).1
    obtain ⟨i, hi, rfl⟩ := List.mem_range'.mp hy
    show lo + 1 * i < lo + n + 1
    omega

/-- The edge walk keeps the span buffer in canonical form. -/
theorem entriesOk_edgeWalk (g : Settings) (p : Prim) (old : SpanBuffer) (h : SpanBuffer.entriesOk 0 old.entries) :
    SpanBuffer.entriesOk 0 (edgeWalk g p old).entries := by
  refine entriesOk_putEntries _ h _ _ ?_
  have : (min (asr (lowerEdge g.cfg p).yl.toInt 2 + 1) (Config.spanCount : Int)).toNat ≤ Config.spanCount := by omega
  omega

/-! ### Reading an entry after the walk -/

/-- Dropping entries of other scanlines does not change the one found. -/
theorem find?_filter_of_key {m : List (Nat × SpanEntry)} (q : Nat → Bool) (y : Nat) (hq : q y = true) :
    (m.filter (fun e => q e.1)).find? (fun e => e.1 = y) = m.find? (fun e => e.1 = y) := by
  rw [List.find?_filter]
  congr 1
  funext e
  by_cases h : e.1 = y
  · simp [h, hq]
  · simp [h]

/-- A list without scanline `y` has no entry for it. -/
theorem find?_eq_none_of_key {m : List (Nat × SpanEntry)} {y : Nat} (h : ∀ e ∈ m, e.1 ≠ y) :
    m.find? (fun e => e.1 = y) = none :=
  List.find?_eq_none.mpr (fun e he => by simpa using h e he)

/-- A block without its default entries reads at each of its scanlines as what was written there. -/
theorem find?_block (f : Nat → SpanEntry) (lo n y : Nat) (h : lo ≤ y) (h' : y < lo + n) :
    (((List.range' lo n).map (fun z => (z, f z))).filter (fun e => decide (e.2 ≠ SpanEntry.default))).find?
      (fun e => e.1 = y) = if f y = SpanEntry.default then none else some (y, f y) := by
  have hmem : (y, f y) ∈ (List.range' lo n).map (fun z => (z, f z)) :=
    List.mem_map.mpr ⟨y, List.mem_range'.mpr ⟨y - lo, by omega, by omega⟩, rfl⟩
  have hkey : ∀ e ∈ (List.range' lo n).map (fun z => (z, f z)), e.1 = y → e = (y, f y) := fun e he hy => by
    obtain ⟨z, _, rfl⟩ := List.mem_map.mp he
    cases hy
    rfl
  split
  · next hd =>
    refine find?_eq_none_of_key (fun e he hy => ?_)
    obtain ⟨h1, h2⟩ := List.mem_filter.mp he
    rw [hkey e h1 hy] at h2
    simp [hd] at h2
  · next hd =>
    cases hf : (((List.range' lo n).map (fun z => (z, f z))).filter
        (fun e => decide (e.2 ≠ SpanEntry.default))).find? (fun e => e.1 = y) with
    | none =>
      have := List.find?_eq_none.mp hf (y, f y) (List.mem_filter.mpr ⟨hmem, by simpa using hd⟩)
      simp at this
    | some e =>
      have h1 := List.mem_of_find?_eq_some hf
      have h2 := List.find?_some hf
      rw [hkey e (List.mem_filter.mp h1).1 (by simpa using h2)]

/-- What an entry of the span buffer holds after a block of consecutive scanlines was written. -/
theorem entry_putEntries (old : SpanBuffer) (f : Nat → SpanEntry) (delta : Attrs) (lo n y : Nat) :
    (SpanBuffer.mk (putEntries old.entries (List.range' lo n) f) delta).entry y =
      if y ∈ List.range' lo n then f y else old.entry y := by
  rcases n with _ | n
  · simp [putEntries, SpanBuffer.entry]
  have hm : y ∈ List.range' lo (n + 1) ↔ lo ≤ y ∧ y < lo + (n + 1) := by
    rw [List.mem_range']
    constructor
    · rintro ⟨i, hi, rfl⟩; omega
    · rintro ⟨h1, h2⟩; exact ⟨y - lo, by omega, by omega⟩
  unfold SpanBuffer.entry
  rw [putEntries_block, List.find?_append, List.find?_append]
  have hblk : ¬ (lo ≤ y ∧ y < lo + (n + 1)) →
      (((List.range' lo (n + 1)).map (fun z => (z, f z))).filter
        (fun e => decide (e.2 ≠ SpanEntry.default))).find? (fun e => e.1 = y) = none := fun hn =>
    find?_eq_none_of_key (fun e he hy => by
      obtain ⟨z, hz, rfl⟩ := List.mem_map.mp (List.mem_filter.mp he).1
      obtain ⟨i, hi, rfl⟩ := List.mem_range'.mp hz
      simp only at hy
      omega)
  have hlo : ¬ y < lo → (old.entries.filter (fun e => decide (e.1 < lo))).find? (fun e => e.1 = y) = none := fun hn =>
    find?_eq_none_of_key (fun e he hy => by
      have := (List.mem_filter.mp he).2
      simp only [decide_eq_true_eq] at this
      omega)
  have hhi : ¬ lo + n < y → (old.entries.filter (fun e => decide (lo + n < e.1))).find? (fun e => e.1 = y) = none :=
    fun hn => find?_eq_none_of_key (fun e he hy => by
      have := (List.mem_filter.mp he).2
      simp only [decide_eq_true_eq] at this
      omega)
  by_cases h1 : y < lo
  · rw [if_neg (by rw [hm]; omega), hblk (by omega), hhi (by omega),
      find?_filter_of_key (fun z => decide (z < lo)) y (by simpa using h1)]
    simp
  · rw [hlo h1]
    by_cases h2 : y < lo + (n + 1)
    · rw [if_pos (by rw [hm]; omega), find?_block f lo (n + 1) y (by omega) h2, hhi (by omega)]
      split
      · next hd => simp [hd]
      · simp
    · rw [if_neg (by rw [hm]; omega), hblk (by omega),
        find?_filter_of_key (fun z => decide (lo + n < z)) y (by simp; omega)]
      simp

/-- What an entry of the span buffer holds after the edge walk (R66, R231, R232). -/
theorem entry_edgeWalk (g : Settings) (p : Prim) (old : SpanBuffer) (y : Nat) :
    (edgeWalk g p old).entry y = if y ∈ scanlines g p then spanEntry g p old y else old.entry y :=
  entry_putEntries old _ _ _ _ y

/-- The scanlines a primitive writes, as an interval (R232, R251). -/
theorem writesScanline_iff (g : Settings) (p : Prim) (y : Nat) : writesScanline g p y ↔ y ∈ scanlines g p := by
  unfold writesScanline scanlines asr
  rw [List.mem_range']
  norm_num
  constructor
  · rintro ⟨h1, h2, h3⟩
    exact ⟨y - (max (p.yh.toInt / 4) 0).toNat, by omega, by omega⟩
  · rintro ⟨i, h1, h2⟩
    omega

/-- The sub-scanlines in range are those the walk reduces over (R231, R234). -/
theorem subLineInRange_iff (g : Settings) (p : Prim) (y : Nat) (k : Fin 4) :
    subLineInRange g p y k ↔ k ∈ subScanlines g p y := by
  unfold subLineInRange subScanlines rangeTop rangeEnd
  simp [List.mem_finRange]

/-! ### Attributes along a span -/

/-- A stepped attribute is the exact sum where that fits the format (R235); elsewhere it is a free value (log 38). -/
theorem stepWord_toInt {e d : Word} {n : Int} (lo : -2 ^ 31 ≤ e.toInt + n * d.toInt)
    (hi : e.toInt + n * d.toInt < 2 ^ 31) : (stepWord e d n).toInt = e.toInt + n * d.toInt := by
  unfold stepWord
  rw [if_pos ⟨lo, hi⟩, BitVec.toInt_ofInt]
  exact Int.bmod_eq_of_le (by omega) (by omega)

end Sys2Proof.Machine
end

