-- ==== Sys2Proof/Laws/Step.lean ====
section
/-! SUPPORT. What a step and a command can do, said once: later proofs take a step apart with these and unfold nothing. -/

namespace Sys2Proof.Machine

/-- What a step that answers a next state was: no entry delivered, or one entry of each kind. -/
theorem step_cases {s t : State} (h : step s = .next t) :
    s.refused = false ∧
    ((s.inbox = [] ∧ t = s) ∨
      (∃ (w0 w1 : Word) (rest : List HostEntry) (i : Instr) (u : State), s.inbox = .exec w0 w1 :: rest ∧
        decode w0 w1 = .ok i ∧ exec i { s with inbox := rest } = .next u ∧ t = u.countCommand) ∨
      (∃ rest : List HostEntry, s.inbox = .init :: rest ∧ t = hostInit { s with inbox := rest }) ∨
      (∃ (c : CfgWrite) (rest : List HostEntry), s.inbox = .cfg c :: rest ∧ cfgBadOperand c = none ∧
        t = State.configure { s with inbox := rest } (cfgRegisters c) (cfgSettings s.settings c)) ∨
      (∃ (p : Prim) (rest : List HostEntry), s.inbox = .prim p :: rest ∧ t = State.drawPrim { s with inbox := rest } p) ∨
      (∃ rest : List HostEntry, s.inbox = .readCrashed :: rest ∧ t = hostReadCrashed { s with inbox := rest })) := by
  unfold step at h
  by_cases hr : s.refused = true
  · rw [if_pos hr] at h
    exact absurd h (by simp)
  rw [if_neg hr] at h
  refine ⟨Bool.eq_false_iff.mpr hr, ?_⟩
  rcases hi : s.inbox with _ | ⟨e, rest⟩
  · rw [hi] at h
    exact .inl ⟨rfl, (Host.Outcome.next.inj h).symm⟩
  rw [hi] at h
  cases e with
  | exec w0 w1 =>
    simp only [stepEntry, stepExec] at h
    rcases hd : decode w0 w1 with err | i
    · rw [hd] at h
      exact absurd h (by simp)
    · rw [hd] at h
      rcases he : exec i { s with inbox := rest } with u | f | r
      · simp only [he] at h
        exact .inr (.inl ⟨w0, w1, rest, i, u, rfl, hd, he, (Host.Outcome.next.inj h).symm⟩)
      · exact nomatch f
      · simp only [he] at h
        exact absurd h (by simp)
  | init => exact .inr (.inr (.inl ⟨rest, rfl, (Host.Outcome.next.inj h).symm⟩))
  | cfg c =>
    simp only [stepEntry, hostCfg] at h
    rcases hc : cfgBadOperand c with _ | p
    · rw [hc] at h
      exact .inr (.inr (.inr (.inl ⟨c, rest, rfl, hc, (Host.Outcome.next.inj h).symm⟩)))
    · rw [hc] at h
      exact absurd h (by simp)
  | prim p => exact .inr (.inr (.inr (.inr (.inl ⟨p, rest, rfl, (Host.Outcome.next.inj h).symm⟩))))
  | readCrashed => exact .inr (.inr (.inr (.inr (.inr ⟨rest, rfl, (Host.Outcome.next.inj h).symm⟩))))

/-- What a load may be: it keeps TMEM canonical, and appends word-aligned reads and traces to the history. -/
structure LoadOk (f : LoadState → LoadState) : Prop where
  wf : ∀ ls : LoadState, ls.tmem.wf = true → (f ls).tmem.wf = true
  grows : ∀ ls : LoadState, ∃ new : List Event, (f ls).ports.events = ls.ports.events ++ new ∧
    ∀ a : BitVec 24, Event.memRead a ∈ new → a.toNat % 4 = 0

/-- The accessor words that cover a run are word-aligned (R110, R111). -/
theorem coveringWords_aligned (addr : BitVec 24) (n : Nat) (a : BitVec 24) (h : a ∈ coveringWords addr n) :
    a.toNat % 4 = 0 := by
  unfold coveringWords at h
  split at h
  · exact absurd h (List.not_mem_nil)
  · obtain ⟨j, _, rfl⟩ := List.mem_map.mp h
    rw [BitVec.toNat_ofNat]
    omega

/-- Reading a run appends aligned reads and a trace. -/
theorem Ports.readRun_grows (p : Ports) (addr : BitVec 24) (n : Nat) :
    ∃ new : List Event, (p.readRun addr n).2.events = p.events ++ new ∧
      ∀ a : BitVec 24, Event.memRead a ∈ new → a.toNat % 4 = 0 := by
  refine ⟨_, (Ports.readRun_events p addr n).trans (List.append_assoc ..), fun a ha => ?_⟩
  rcases List.mem_append.mp ha with ha | ha
  · obtain ⟨b, hb, he⟩ := List.mem_map.mp ha
    cases he
    exact coveringWords_aligned addr n _ hb
  · split at ha
    · exact absurd ha (List.not_mem_nil)
    · simp at ha

/-- Reading runs in order appends aligned reads and traces. -/
theorem readRuns_grows (runs : List (BitVec 24 × Nat)) (p : Ports) :
    ∃ new : List Event, (readRuns runs p).2.events = p.events ++ new ∧
      ∀ a : BitVec 24, Event.memRead a ∈ new → a.toNat % 4 = 0 := by
  induction runs generalizing p with
  | nil => exact ⟨[], (List.append_nil _).symm, fun a ha => absurd ha (List.not_mem_nil)⟩
  | cons r rest ih =>
    obtain ⟨n1, h1, a1⟩ := Ports.readRun_grows p r.1 r.2
    obtain ⟨n2, h2, a2⟩ := ih (p.readRun r.1 r.2).2
    refine ⟨n1 ++ n2, ?_, fun a ha => (List.mem_append.mp ha).elim (a1 a) (a2 a)⟩
    show (readRuns rest (p.readRun r.1 r.2).2).2.events = _
    rw [h2, h1, List.append_assoc]

theorem loadOk_tileOrdered (image : TexImage) (tile : Tile) : LoadOk (loadTileOrdered image tile) where
  wf := fun ls h => by
    unfold loadTileOrdered
    split
    · exact h
    · exact wf_loadTileRect image tile ls h
  grows := fun ls => by
    rw [loadTileOrdered_ports]
    exact readRuns_grows _ _

theorem loadOk_block (image : TexImage) (tile : Tile) (sl tl sh dxt : BitVec 12) :
    LoadOk (loadBlockLinear image tile sl tl sh dxt) where
  wf := wf_loadBlockLinear image tile sl tl sh dxt
  grows := fun ls => Ports.readRun_grows ls.ports _ _

theorem loadOk_tlut (image : TexImage) (tile : Tile) : LoadOk (loadTlutEntries image tile) where
  wf := wf_loadTlutEntries image tile
  grows := fun ls => Ports.readRun_grows ls.ports _ _

theorem loadOk_bankSort (image : TexImage) (tile : Tile) : LoadOk (loadBankSort image tile) where
  wf := wf_loadBankSort image tile
  grows := fun ls => readRuns_grows _ ls.ports

/-- What a command that answers a next state can do: a load writes a tile's bounds and runs a checked load;
FILL_RECTANGLE draws; SYNC_FULL emits its event; every other command changes the settings and the marks `unset` only, and
keeps the combiner's operands and a texture width that is well formed. -/
theorem exec_cases {i : Instr} {s t : State} (h : exec i s = .next t) :
    (isLoad i = true ∧ ∃ (tile : BitVec 3) (b : TileBounds) (f : LoadState → LoadState), LoadOk f ∧
      t = (s.setBounds tile b).loadChecked f) ∨
    (∃ xl yl xh yh : BitVec 12, i = .fillRectangle xl yl xh yh ∧ t = s.drawPrim (rectanglePrimitive xh yh xl yl)) ∨
    (i = .syncFull ∧ t = s.emit (.fullSync s.cmdIndex)) ∨
    (isLoad i = false ∧ t = { s with settings := t.settings, unset := t.unset } ∧ t.settings.cc = s.settings.cc ∧
      (i.wellFormed = true → widthOk s.settings.texImage.width = true → widthOk t.settings.texImage.width = true)) := by
  cases i with
  | nop => cases h; exact .inr (.inr (.inr ⟨rfl, rfl, rfl, fun _ w => w⟩))
  | syncLoad => cases h; exact .inr (.inr (.inr ⟨rfl, rfl, rfl, fun _ w => w⟩))
  | syncPipe => cases h; exact .inr (.inr (.inr ⟨rfl, rfl, rfl, fun _ w => w⟩))
  | syncTile => cases h; exact .inr (.inr (.inr ⟨rfl, rfl, rfl, fun _ w => w⟩))
  | syncFull => cases h; exact .inr (.inr (.inl ⟨rfl, rfl⟩))
  | setConvert k => cases h; exact .inr (.inr (.inr ⟨rfl, rfl, rfl, fun _ w => w⟩))
  | setPrimDepth z dz => cases h; exact .inr (.inr (.inr ⟨rfl, rfl, rfl, fun _ w => w⟩))
  | setOtherModes m => cases h; exact .inr (.inr (.inr ⟨rfl, rfl, rfl, fun _ w => w⟩))
  | loadTlut tile b =>
    cases h
    refine .inl ⟨rfl, tile, b, _, ?_, rfl⟩
    split
    · exact loadOk_tlut _ _
    · exact loadOk_bankSort _ _
  | setTileSize tile b => cases h; exact .inr (.inr (.inr ⟨rfl, rfl, rfl, fun _ w => w⟩))
  | loadBlock tile sl tl sh dxt => cases h; exact .inl ⟨rfl, tile, _, _, loadOk_block _ _ _ _ _ _, rfl⟩
  | loadTile tile b => cases h; exact .inl ⟨rfl, tile, b, _, loadOk_tileOrdered _ _, rfl⟩
  | setTile tile d => cases h; exact .inr (.inr (.inr ⟨rfl, rfl, rfl, fun _ w => w⟩))
  | fillRectangle xl yl xh yh => cases h; exact .inr (.inl ⟨xl, yl, xh, yh, rfl, rfl⟩)
  | setFillColor v => cases h; exact .inr (.inr (.inr ⟨rfl, rfl, rfl, fun _ w => w⟩))
  | setTextureImage f z w a => cases h; exact .inr (.inr (.inr ⟨rfl, rfl, rfl, fun hw _ => hw⟩))

end Sys2Proof.Machine
end

