-- ==== Sys2Proof/Laws/Texels.lean ====
section
/-! SUPPORT. Texels as loads store them and fetches read them (43_tmem_fetch.md R314, R341, R344): a stored texel is read
back, and a raw texel depends on its own bytes only. -/

namespace Sys2Proof.Machine

/-- A big-endian value of n bytes is below 256^n. -/
theorem beValue_lt (bs : List Byte) : beValue bs < 256 ^ bs.length := by
  have : ∀ (bs : List Byte) (acc : Nat), bs.foldl (fun acc b => acc * 256 + b.toNat) acc < (acc + 1) * 256 ^ bs.length := by
    intro bs
    induction bs with
    | nil => intro acc; simp
    | cons b r ih =>
      intro acc
      refine Nat.lt_of_lt_of_le (ih _) ?_
      have hb : b.toNat < 256 := b.isLt
      rw [List.length_cons, Nat.pow_succ, Nat.mul_comm (256 ^ _) 256, ← Nat.mul_assoc]
      refine Nat.mul_le_mul_right _ ?_
      show acc * 256 + b.toNat + 1 ≤ _
      omega
  simpa [beValue] using this bs 0

/-- A raw texel depends on its own bytes only (R341). -/
theorem rawTexel_congr {m m' : Memory} (tile : Tile) (s t : Nat) (hs : tile.shape.size ≠ 0)
    (h : ∀ a, a % 4096 ∈ texelBytes tile.shape.size tile s t → tmem8 m a = tmem8 m' a) :
    rawTexel false m tile s t = rawTexel false m' tile s t := by
  unfold rawTexel
  rw [if_neg hs, if_neg hs]
  unfold texelBytes at h
  have h16 : ∀ w, (∀ a, a % 4096 ∈ wordBytes w → tmem8 m a = tmem8 m' a) → tmem16 m w = tmem16 m' w := by
    intro w hw
    unfold tmem16
    have e1 := hw (2 * (w % 2048)) (by rw [Nat.mod_eq_of_lt (by omega)]; simp [wordBytes])
    have e2 := hw (2 * (w % 2048) + 1) (by rw [Nat.mod_eq_of_lt (by omega)]; simp [wordBytes])
    rw [e1, e2]
  split
  · next h1 =>
    rw [if_pos h1] at h
    rw [h _ (by simp [byteModulus])]
  · next h1 =>
    rw [if_neg h1] at h
    split
    · next h2 => rw [if_pos h2] at h; rw [h16 _ h]
    · next h2 =>
      rw [if_neg h2] at h
      rw [h16 _ (fun a ha => h a (List.mem_append_left _ ha)), h16 _ (fun a ha => h a (List.mem_append_right _ ha))]

/-- A stored texel is read back, at the same tile and coordinates (R341). -/
theorem rawTexel_storeTexel {m : Memory} (hw : m.wf = true) (tile : Tile) (s t v : Nat) (hs : tile.shape.size ≠ 0)
    (hv : v < 256 ^ bytesPerTexel tile.shape.size) :
    rawTexel false (storeTexel tile.shape.size tile m s t v) tile s t = v := by
  unfold rawTexel storeTexel
  rw [if_neg hs]
  have hc : ∀ z : BitVec 2, z ≠ 0 → z = 1 ∨ z = 2 ∨ z = 3 := by decide
  rcases hc _ hs with h | h | h <;> simp only [h] at hv ⊢
  · have : v < 256 := hv
    simp [byteModulus, tmem8_writeTmem8 hw]
    omega
  · have : v < 65536 := hv
    simp [tmem16_writeTmem16 hw]
    omega
  · have : v < 256 ^ 4 := hv
    simp [storeSplit]
    rw [tmem16_writeTmem16 (wf_writeTmem16 hw _ _), tmem16_writeTmem16 hw, tmem16_writeTmem16 (wf_writeTmem16 hw _ _)]
    have hl : word32Addr tile s t < 0x400 := Nat.mod_lt _ (by decide)
    rw [if_neg (by omega), if_pos rfl, if_pos rfl]
    rw [BitVec.toNat_append, BitVec.toNat_ofNat, BitVec.toNat_ofNat, Nat.shiftLeft_eq, Nat.mul_comm,
      ← Nat.two_pow_add_eq_or_of_lt (by omega)]
    norm_num at this ⊢
    omega

end Sys2Proof.Machine
end

