-- ==== Sys2Proof/Tests/Slice0.lean ====
section
/-! SUPPORT. Tests: a word of every command written out from its layout, the WellFormed smoke, one-step behaviour from the
vectors of 95_test_vectors.md, and for every statement with hypotheses a state and operands that meet them. -/

namespace Sys2Proof.Tests

set_option Elab.async false

open Sys2Proof Sys2Proof.Machine

/-! ### Words of 95_test_vectors.md §2.1: one for every command -/

theorem test_decode_nop : decode 0x00000000 0x00000000 = .ok .nop := by decide +kernel

theorem test_decode_syncs :
    decode 0x26000000 0 = .ok .syncLoad ∧ decode 0x27FFFFFF 0xFFFFFFFF = .ok .syncPipe ∧
      decode 0x28000000 0 = .ok .syncTile ∧ decode 0x29000000 0 = .ok .syncFull := by decide +kernel

theorem test_decode_setConvert :
    decode 0x2C3FF007 0xF801007F = .ok (.setConvert ⟨0x1FF, 0x100, 0xFF, 0, 0x80, 0x7F⟩) := by decide +kernel

theorem test_decode_setPrimDepth : decode 0x2E000000 0x12340001 = .ok (.setPrimDepth 0x1234 1) := by decide +kernel

theorem test_decode_setOtherModes :
    decode 0x2F000CF0 0x00500000 = .ok (.setOtherModes { modesZero with
      biLerp0 := true, biLerp1 := true, rgbDitherSel := 3, alphaDitherSel := 3, bM2a0 := 1, bM2a1 := 1 }) ∧
    decode 0x2F300000 0 = .ok (.setOtherModes { modesZero with cycleType := 3 }) := by decide +kernel

theorem test_decode_loads :
    decode 0x30000000 0x07004000 = .ok (.loadTlut 7 ⟨0, 0, 4, 0⟩) ∧
      decode 0x33000000 0x070FF200 = .ok (.loadBlock 7 0 0 255 512) ∧
      decode 0x34004008 0x0200C010 = .ok (.loadTile 2 ⟨4, 8, 12, 16⟩) := by decide +kernel

theorem test_decode_setTileSize : decode 0x32000000 0x0003C03C = .ok (.setTileSize 0 ⟨0, 0, 60, 60⟩) := by decide +kernel

theorem test_decode_setTile :
    decode 0x35680500 0x015D3D51 = .ok (.setTile 1 ⟨3, 1, 2, 0x100, 5, true, true, 4, 15, false, true, 5, 1⟩) := by
  decide +kernel

theorem test_decode_fillRectangle : decode 0x36010020 0x00003004 = .ok (.fillRectangle 16 32 3 4) := by decide +kernel

theorem test_decode_setFillColor : decode 0x37000000 0xFFFF0001 = .ok (.setFillColor 0xFFFF0001) := by decide +kernel

theorem test_decode_setTextureImage :
    decode 0x3D10000F 0x00100000 = .ok (.setTextureImage 0 2 16 0x100000) ∧
      decode 0x3D1003FF 0 = .ok (.setTextureImage 0 2 1024 0) := by decide +kernel

theorem test_decode_refuses :
    decode 0x01000000 0 = .error (.unknownOpcode 0x01) ∧ decode 0x3C000000 0 = .error (.unknownOpcode 0x3C) := by
  decide +kernel

theorem test_encode_words :
    encode (.setTile 1 ⟨3, 1, 2, 0x100, 5, true, true, 4, 15, false, true, 5, 1⟩) = (0x35680500, 0x015D3D51) ∧
      encode (.setTextureImage 0 2 1024 0) = (0x3D1003FF, 0) ∧
      encode (.setOtherModes { modesZero with cycleType := 3 }) = (0x2F300000, 0) ∧
      encode (.loadBlock 7 0 0 255 512) = (0x33000000, 0x070FF200) := by decide +kernel

/-- The table's numbering: bit 0 of the word is bit 0 of `w1`. -/
theorem test_table_word :
    decodeTableWord 64 0x37000000FFFF0001 = some (.setFillColor 0xFFFF0001) ∧
      ∃ t : State, step (State.reset.withFetchWord 64 0x37000000FFFF0001) = .next t ∧ t.settings.fillColor = 0xFFFF0001 :=
  ⟨by decide +kernel, _, rfl, by decide +kernel⟩

/-! ### WellFormed smoke -/

theorem test_wellFormed_width_low : (Instr.setTextureImage 0 2 0 0).wellFormed = false := by decide +kernel

theorem test_wellFormed_width_high : (Instr.setTextureImage 0 2 1025 0).wellFormed = false := by decide +kernel

theorem test_wellFormed_slot :
    (CfgWrite.ccSlot false .rgbD .noise).wellFormed = false ∧
      (CfgWrite.ccAll ⟨{ cycleSelZero with alphaC := .one }, cycleSelZero⟩).wellFormed = false := by decide +kernel

/-! ### Small states -/

/-- The state after a command, the state itself if it stops. -/
def after (i : Instr) (s : State) : State :=
  match exec i s with
  | .next t => t
  | _ => s

/-- Reset with a texture image, and the host's next MemRead answers. -/
def withImage (size : BitVec 2) (width : BitVec 11) (address : BitVec 24) (answers : List Word) : State :=
  { State.reset with
    settings := { Settings.reset with texImage := ⟨0, size, width, address⟩ }
    ports := { State.reset.ports with memAnswers := answers } }

/-- Reset with a cycle type and the clip rectangle (0, 0) to (16, 16) in pixels. -/
def withCycle (cycle : BitVec 2) : State :=
  { State.reset with
    settings := { Settings.reset with cfg := { modesZero with cycleType := cycle }, clip := ⟨0, 0, 64, 64⟩ } }

/-- Reset with entries delivered. -/
def withInbox (es : List HostEntry) (s : State) : State := { s with inbox := es }

/-- A 16-bit tile shape. -/
def shape16 (line tmem : BitVec 9) : TileShape := { Tile.zero.shape with size := 2, line := line, tmem := tmem }

/-! ### Behaviour, one step each -/

/-- V-LOAD-1, 95 §2.4: rows, odd rows swapped. -/
theorem test_loadTile_rows :
    let s := (withImage 2 16 0x100000 [0x00010203, 0x20212223]).setShape 0 (shape16 4 0)
    let t := after (.loadTile 0 ⟨0, 0, 4, 4⟩) s
    t.ports.events = [.memRead 0x100000, .trace 0x100000 4, .memRead 0x100020, .trace 0x100020 4] ∧
      [0, 1, 18, 19].map (tmem16 t.tmem) = [0x0001, 0x0203, 0x2021, 0x2223] := by decide +kernel

/-- R184: bounds crossed within one texel load none (log 37). -/
theorem test_loadTile_crossed :
    let s := (withImage 2 16 0x100000 []).setShape 0 (shape16 4 0)
    after (.loadTile 0 ⟨3, 0, 1, 4⟩) s = s.setBounds 0 ⟨3, 0, 1, 4⟩ := by decide +kernel

/-- V-LOAD-2: an unaligned source row. -/
theorem test_loadTile_unaligned :
    let s := (withImage 2 1 0x100002 [0x00010203, 0x04050607]).setShape 0 (shape16 4 0)
    let t := after (.loadTile 0 ⟨0, 0, 4, 0⟩) s
    t.ports.events = [.memRead 0x100000, .memRead 0x100004, .trace 0x100002 4] ∧
      [0, 1].map (tmem16 t.tmem) = [0x0203, 0x0405] := by decide +kernel

/-- V-LOAD-3, cut to two words with dxt = 2048: word 1 is an odd row, its halves swapped. -/
theorem test_loadBlock_dxt :
    let s := (withImage 2 16 0x100000 [0x00010203, 0x04050607, 0x20212223, 0x24252627]).setShape 7 (shape16 0 0)
    let t := after (.loadBlock 7 0 0 7 2048) s
    (List.range 8).map (tmem16 t.tmem) = [0x0001, 0x0203, 0x0405, 0x0607, 0x2425, 0x2627, 0x2021, 0x2223] ∧
      t.settings.tile 7 = ⟨shape16 0 0, ⟨0, 0, 7, 2048⟩⟩ := by decide +kernel

/-- V-LOAD-5: entries four times each. -/
theorem test_loadTlut_copies :
    let s := (withImage 2 1 0x200000 [0x12345678]).setShape 7 (shape16 0 256)
    let t := after (.loadTlut 7 ⟨0, 0, 4, 0⟩) s
    t.ports.events = [.memRead 0x200000, .trace 0x200000 4] ∧
      (List.range 8).map (fun k => tmem16 t.tmem (0x400 + k)) =
        [0x1234, 0x1234, 0x1234, 0x1234, 0x5678, 0x5678, 0x5678, 0x5678] := by decide +kernel

/-- V-FAULT-1: the bounds are written, the flag set, the event recorded. -/
theorem test_load_fault :
    let t := after (.loadTile 2 ⟨4, 8, 12, 16⟩) { State.reset with cmdIndex := 1 }
    (t.settings.tile 2).bounds = ⟨4, 8, 12, 16⟩ ∧ t.crashed = true ∧ t.ports.events = [.fault .load4Bit 1] ∧
      t.tmem = [] := by decide +kernel

/-- W7 and V-FILL: both corners included, rows in order, the clip's own corner excluded. -/
theorem test_fill_rectangle :
    let t := after (.fillRectangle 64 4 56 0) { withCycle 3 with settings := { (withCycle 3).settings with fillColor := 7 } }
    t.ports.events = [.fbFill 14 0 7, .fbFill 15 0 7, .fbFill 14 1 7, .fbFill 15 1 7] := by decide +kernel

/-- V-FILL in the 1-cycle type: the lower-right corner's row and column excluded; in program P4's order. -/
theorem test_cycle_rectangle :
    (primPixels (withCycle 0).settings (rectanglePrimitive 0 0 8 4) ⟨[], attrsZero⟩).map (fun p => (p.x, p.y)) =
      [(0, 0), (1, 0)] := by decide +kernel

/-- 95 §2.3: SYNC_FULL records the index of the command, which then advances. -/
theorem test_syncFull_index :
    let s := withInbox [.exec 0x29000000 0] { State.reset with cmdIndex := 5 }
    ∃ t : State, step s = .next t ∧ t.ports.events = [.fullSync 5] ∧ t.cmdIndex = 6 := ⟨_, rfl, rfl, rfl⟩

/-- 95 §2.3: derived fields of tiles and the convert factors. -/
theorem test_derived :
    clampDiffOf 40 8 = 1016 ∧ [0x1FF, 0x100, 0xFF, 0].map convertFactor = [-1, -511, 511, 1] := by decide +kernel

/-! ### Stages -/

/-- 95 §2.2: Sat16. -/
theorem test_sat16 :
    [0x40000, 0x20000, 0x60000, 0x08000, 0x10000, 0x18000, 0x1FFFF, 0x07FFF].map sat16 =
      [0x7FFF, 0x8000, 0x7FFF, 0x7FFF, 0x8000, 0x8000, 0xFFFF, 0x7FFF] := by decide +kernel

/-- 95 §2.2, V-DIV-1, 2, 3b, 5, 6, 7, 8, from the entries of the candidate tables whose shifts are
0, 14, 0, 1 and 6. -/
theorem test_tcDivAxis :
    [tcDivAxis 0x20000 false 0x1234, tcDivAxis 0x20000 false 0xFFFF, tcDivAxis 0x4000E true 0x0010,
      tcDivAxis 0x40000 false 0x0100, tcDivAxis 0x40001 false 0x0100, tcDivAxis 0x40006 false 0x4000,
      tcDivAxis 0x40006 false 0xC000] = [0x01234, 0x1FFFF, 0x40000, 0x00200, 0x00400, 0x40000, 0x20000] ∧
    [0x7FFF, 0x4000, 0x2000, 0x0100, 0].map tcdivShift = [0, 0, 1, 6, 14] := by decide +kernel

/-- R235: `E + n * dE` at the top and the bottom of the s15.16 range. -/
theorem test_stepWord :
    [stepWord 0x7FFE8000 0x00008000 2, stepWord 0x80010000 0xFFFF0000 1, stepWord 0x00010000 0x00008000 (-3)] =
      [0x7FFF8000, 0x80000000, 0xFFFF8000] := by decide +kernel

/-- 95 §2.5: V-MAP-3, 4, 6, 7, 10. -/
theorem test_mapAxis :
    let ax : TileAxis := ⟨0, 0, 60, false, 0, true, 15, 0⟩
    [(mapAxis { ax with shift := 15 } 0x4000).pos,
      (mapAxis { ax with mirror := true, mask := 2, maskClamped := 2, clampEn := false } 0x0A0).pos,
      (mapAxis { ax with mask := 3, maskClamped := 3, clampEn := false } 0x800).pos,
      (mapAxis { ax with mask := 3, maskClamped := 3 } 0x800).pos, (mapAxis ax 0x20000).pos, (mapAxis ax 0x0B0).frac] =
    [0, 2, 0, 7, 0, 0x10] := by decide +kernel

/-- 95 §2.6: V-LOD-2, 4, 9, 10. -/
theorem test_lodSignals :
    let m := { modesZero with sharpenTexEn := true }
    lodSignals modesZero 0 7 ⟨0, 0, 0x60, 0, 0, 0⟩ = ⟨false, false, 1, 0x80⟩ ∧
      lodSignals m 0 7 ⟨0, 0, 0x10, 0, 0, 0⟩ = ⟨true, false, 0, 0x180⟩ ∧
      lodTiles modesZero 0 2 (lodSignals modesZero 0 2 ⟨0, 0, 0x100, 0, 0, 0⟩) = (2, 2) ∧
      (lodSignals modesZero 0 7 ⟨0x100, 0, 0x80, 0, 0x100, 0⟩).lodFrac = 0xFC := by decide +kernel

/-- 95 §2.7: V-ADDR-1, 3, 4, 6, 7, 8. -/
theorem test_texel_addresses :
    let tile (size : BitVec 2) (line tmem : BitVec 9) : Tile := ⟨{ shape16 line tmem with size := size }, ⟨0, 0, 0, 0⟩⟩
    wordAddr (tile 2 4 0) 0 1 = 18 ∧ byteAddr (tile 1 2 0x10) 3 1 = 151 ∧ nibbleAddr (tile 0 1 0) 5 1 = 29 ∧
      word32Addr (tile 3 2 0) 1 1 = 11 ∧ byteAddr (tile 1 0 0x120) 0 0 % byteModulus true = 0x100 ∧
      wordAddr (tile 2 0 0x1FF) 8 0 % 2048 = 4 := by decide +kernel

/-- 95 §2.7: decoders. -/
theorem test_decoders :
    decodeRgba16 0x1234 = colorOfNats 0x10 0x42 0xD6 0 ∧ decodeRgba32 0x11223344 = colorOfNats 0x11 0x22 0x33 0x44 ∧
      decodeIa4 0x6 = grey 0x6D 0 ∧ decodeIa8 0x5A = grey 0x55 0xAA ∧ decodeIa16 0xC040 = grey 0xC0 0x40 ∧
      decodeI4 0x7 = grey 0x77 0x77 := by decide +kernel

/-- R51, R330: with the palette on, formats 5 to 7 take no palette index at any size (log 35); formats 0 to 4 do. -/
theorem test_paletteIndex :
    let tile (format : BitVec 3) (size : BitVec 2) : Tile :=
      ⟨{ shape16 0 0 with format := format, size := size, palette := 2 }, ⟨0, 0, 0, 0⟩⟩
    [paletteIndex (tile 5 0) 3, paletteIndex (tile 7 1) 3, paletteIndex (tile 4 0) 3, paletteIndex (tile 4 1) 0x43,
      paletteIndex (tile 2 2) 3] = [none, none, some 0x23, some 0x43, none] := by decide +kernel

/-- Every span entry holds its value at reset (log 7). -/
theorem test_reset_spans :
    State.reset.spans.entry 0 = SpanEntry.default ∧ State.reset.spans.entry 1023 = SpanEntry.default := by decide +kernel

/-- 95 §2.8: bilinear filter, mid-texel and not, and the convert filter. -/
theorem test_filter :
    let quad := (⟨grey 10 10, grey 20 20, grey 30 30, grey 40 40⟩ : Quad)
    (bilinear modesZero 31 31 quad).r = 39 ∧
      (bilinear { modesZero with midTexel := true } 16 16 ⟨grey 0 0, grey 0 0, grey 0 0, grey 255 255⟩).r = 64 ∧
      convertFilter ⟨0, 0, 0, 0, 0, 0⟩ (colorOfNats 200 100 50 0) = colorOfNats 50 51 51 50 := by decide +kernel

/-- 95 §2.9: combiner lanes and their clamp. -/
theorem test_combiner :
    [combineLane 255 0 255 0, combineLane 200 100 128 50, combineLane 0 255 255 0, combineLane 0x180 0 255 0] =
        [0xFE, 0x64, 0x102, 0x181] ∧
      [0xFE, 0x102, 0x181, 0x17E].map clamp9 = [0xFE, 255, 0, 255] := by decide +kernel

/-- 95 §2.10: the blend equation. -/
theorem test_blender :
    [blendLane false 200 0x80 0 0x7F, blendLane false 200 255 40 0, blendLane true 200 128 100 127,
      blendLane true 255 255 255 255] = [100, 195, 150, 255] := by decide +kernel

/-- 95 §2.11: coverage destination and antialiased alpha. -/
theorem test_coverage :
    [0, 1, 2, 3].map (fun d => coverageOut { modesZero with cvgDest := d } false 5 4) = [4, 1, 7, 4] ∧
      coverageAlpha { modesZero with cvgTimesAlpha := true } 128 8 3 = (131, 4) := by decide +kernel

/-- 95 §2.11 and W5: the dither gate, both directions and the boundary. -/
theorem test_dither :
    [ditherChannel 3 0x42, ditherChannel 3 0x45, ditherChannel 3 0x43, ditherChannel 7 250] = [0x48, 0x45, 0x48, 255] := by
  decide +kernel

/-- 95 §2.12: depth test in the ordinary and the decal mode. -/
theorem test_depth :
    depthTest modesZero 100 0 ⟨200, 0⟩ = (true, false) ∧ depthTest modesZero 300 0 ⟨200, 0⟩ = (false, true) ∧
      depthTest { modesZero with zMode := 3 } 105 3 ⟨100, 8⟩ = (true, true) ∧
      depthTest { modesZero with zMode := 3 } 120 3 ⟨100, 8⟩ = (false, true) := by decide +kernel

/-! ### Witnesses: for every statement with hypotheses, a state and operands that meet them

Each `witness_<statement>` is for the statement of that name in Certificates/Slice0/Obligations.lean, or for those its text
names. -/

theorem witness_DecodeEncode :
    (Instr.setTextureImage 0 2 1 0).wellFormed = true ∧ (Instr.setTextureImage 7 3 1024 0xFFFFFF).wellFormed = true := by
  decide +kernel

theorem witness_IgnoredBits :
    let c : Dword := 0x35680500015D3D51
    let c' : Dword := 0xF5680500F95D3D51
    c ≠ c' ∧ c &&& (opcodeMask ||| fieldMask (opcodeOf c)) = c' &&& (opcodeMask ||| fieldMask (opcodeOf c)) := by
  decide +kernel

theorem witness_DecodeSound :
    decode 0x3D1003FF 0 = .ok (.setTextureImage 0 2 1024 0) ∧ opcodeOf (0x01000000#32 ++ 0#32) ∉ commandOpcodes ∧
      opcodeOf (0x3D000000#32 ++ 0#32) ∈ commandOpcodes := by decide +kernel

theorem witness_UnknownOpcodeRefused :
    let s := withInbox [.exec 0x3C000000 0] .reset
    s.refused = false ∧ s.inbox = [.exec 0x3C000000 0] ∧ opcodeOf (0x3C000000#32 ++ 0#32) ∉ commandOpcodes := by
  decide +kernel

theorem witness_StepRunsDecoded :
    let s := withInbox [.exec 0x29000000 0, .init] .reset
    s.refused = false ∧ s.inbox = .exec 0x29000000 0 :: [.init] ∧ decode 0x29000000 0 = .ok .syncFull := by
  decide +kernel

/-- SetTileWrites, SetTileSizeWrites: another tile. -/
theorem witness_other_tile : (1 : BitVec 3) ≠ 0 := by decide

/-- SetFillColorWrites, SetPrimDepthWrites, SetTextureImageWrites: their words. -/
theorem witness_register_opcodes :
    opcodeOf (0x37000000#32 ++ 0xFFFFFFFF#32) = 0x37 ∧ opcodeOf (0x2E000000#32 ++ 0xFFFF0000#32) = 0x2E ∧
      opcodeOf (0x3D1003FF#32 ++ 0#32) = 0x3D := by decide +kernel

theorem witness_LoadsFault : State.reset.settings.texImage.size = 0 := by decide +kernel

/-- LoadTileCompletes, LoadBlockCompletes, LoadTlutCompletes: the sizes, and a byte outside the stored ones. -/
theorem witness_loads_complete :
    let s := fun size => withImage size 16 0x100000 []
    (s 1).settings.texImage.size ≠ 0 ∧ (s 2).settings.texImage.size ≠ 0 ∧ (s 3).settings.texImage.size ≠ 0 ∧
      (s 2).tmem.wf = true ∧
      4095 % 4096 ∉ tileRectBytes (s 2).settings.texImage ⟨shape16 4 0, ⟨0, 0, 4, 4⟩⟩ ∧
      4095 % 4096 ∉ blockBytes (s 2).settings.texImage ⟨shape16 0 0, ⟨0, 0, 7, 2048⟩⟩ 0 7 2048 ∧
      4095 % 4096 ∉ tlutBytes ⟨shape16 0 256, ⟨0, 0, 4, 0⟩⟩ := by decide +kernel

theorem witness_LoadTileReadBack :
    ∃ s t : State, s.settings.texImage.size ≠ 0 ∧ s.tmem.wf = true ∧ (0#12).toNat ≤ (4#12).toNat ∧
      (s.settings.tile 0).shape.size = s.settings.texImage.size ∧
      (tileRectBytes s.settings.texImage ⟨(s.settings.tile 0).shape, ⟨0, 0, 4, 4⟩⟩).Nodup ∧
      exec (.loadTile 0 ⟨0, 0, 4, 4⟩) s = .next t ∧ 1 < texelCount (0 / 4) (4 / 4) :=
  ⟨(withImage 2 16 0x100000 [0x00010203, 0x20212223]).setShape 0 (shape16 4 0), _, by decide +kernel, by decide +kernel, by decide,
    by decide +kernel, by decide +kernel, rfl, by decide⟩

/-- A block of 512 words, of 16-bit and of 32-bit texels, and a texel of each half of a word. -/
theorem witness_LoadBlockStores :
    (∃ s t : State, s.settings.texImage.size = 2 ∧ s.tmem.wf = true ∧ blockWords s.settings.texImage 0 2047 = 512 ∧
      exec (.loadBlock 7 0 0 2047 2048) s = .next t) ∧
    (∃ s t : State, s.settings.texImage.size = 3 ∧ s.tmem.wf = true ∧ blockWords s.settings.texImage 0 1023 = 512 ∧
      exec (.loadBlock 7 0 0 1023 2048) s = .next t) ∧
    (511 < 512 ∧ (0 < 2 ∧ 1022 = 2 * 511 + 0) ∧ 1 < 2 ∧ 1023 = 2 * 511 + 1) :=
  ⟨⟨withImage 2 16 0x100000 [], _, by decide +kernel, by decide +kernel, by decide +kernel, rfl⟩,
    ⟨withImage 3 16 0x100000 [], _, by decide +kernel, by decide +kernel, by decide +kernel, rfl⟩, by decide⟩

theorem witness_LoadTlutStores :
    ∃ s t : State, s.settings.texImage.size = 2 ∧ s.tmem.wf = true ∧ texelCount (0 / 4) (2044 / 4) = 512 ∧
      exec (.loadTlut 7 ⟨0, 0, 2044, 0⟩) s = .next t :=
  ⟨withImage 2 16 0x200000 [], _, by decide +kernel, by decide +kernel, by decide, rfl⟩

theorem witness_LoadTlutOtherSizes :
    (withImage 1 1 0 []).settings.texImage.size = 1 ∧ (withImage 3 1 0 []).settings.texImage.size = 3 := by decide +kernel

/-- Each kind of empty load: columns, rows, and a block of no texel. -/
theorem witness_EmptyLoads :
    (withImage 2 16 0 []).settings.texImage.size ≠ 0 ∧ (3#12).toNat / 4 < (4#12).toNat / 4 ∧
      (3#12).toNat < (4#12).toNat ∧ (1#12).toNat < (3#12).toNat := by decide +kernel

/-- DrawsComplete: a delivered primitive. -/
theorem witness_DrawsComplete (p : Prim) :
    (withInbox [.prim p] .reset).refused = false ∧ (withInbox [.prim p] .reset).inbox = .prim p :: [] := ⟨rfl, rfl⟩

/-- FillModeRectangle, CycleRectanglePixels, FillModePrimitive, PixelRequests, MemoryColor, PixelColorFrame: the cycle
types, with and without `image_read_en`, and whole-pixel corners at the ends of their range. -/
theorem witness_cycle_types :
    cycleType (withCycle 0).settings.cfg = .one ∧ cycleType (withCycle 1).settings.cfg = .two ∧
      cycleType (withCycle 2).settings.cfg = .copy ∧ cycleType (withCycle 3).settings.cfg = .fill ∧
      (withCycle 0).settings.cfg.imageReadEn = false ∧
      (let m := { modesZero with imageReadEn := true }; cycleType m = .one ∧ m.imageReadEn = true) ∧ (0#12).toNat % 4 = 0 ∧ (0xFFC#12).toNat % 4 = 0 := by
  decide +kernel

theorem witness_EmptyRectangle :
    ((4#12).toNat < (5#12).toNat ∧ (0#12).toNat < (0xFFF#12).toNat) ∧
      2 ∈ scanlines (withCycle 3).settings (rectanglePrimitive 8 8 4 12) ∧
      5 ∉ scanlines (withCycle 3).settings (rectanglePrimitive 8 8 4 12) := by decide +kernel

theorem witness_PixelsInsideClip :
    ∃ pin : PixelIn, pin ∈ primPixels (withCycle 0).settings (rectanglePrimitive 0 0 4 4) ⟨[], attrsZero⟩ :=
  ⟨_, List.mem_cons_self⟩

theorem witness_NoPerspectivePassThrough : modesZero.perspTexEn = false := rfl

/-- A `W` that is not positive at both ends of its range, and positive ones; a zero coordinate has a product in range
whatever the seed tables hold. -/
theorem witness_PerspectiveOverflowCode :
    ({ modesZero with perspTexEn := true }.perspTexEn = true ∧ (0x0000#16).toInt ≤ 0 ∧ (0x8000#16).toInt ≤ 0) ∧
      (0 < (1#16).toInt ∧ 0 < (0x7FFF#16).toInt) ∧
      ∀ W : Nat, let prod := (0#16).toInt * (tcdivEntry W / 16); -2 ^ 29 ≤ prod ∧ prod < 2 ^ 29 :=
  ⟨by decide, by decide, fun _ => by simp⟩

/-- The axis and the coordinates of each clause of the clamp property, at the ends of its range. -/
theorem witness_ClampProperty :
    let ax : TileAxis := ⟨0, 16, 60, false, 0, true, 11, 0⟩
    ax.mask = 0 ∧ ax.clampEn = true ∧ ax.lo < 4096 ∧ ((ax.lo : Int) ≤ 128 / 8 ∧ (128 : Int) / 8 < ax.hi) ∧
      ((ax.lo : Int) ≤ 479 / 8 ∧ (479 : Int) / 8 < ax.hi) ∧ (ax.hi : Int) ≤ 480 / 8 ∧ (127 : Int) / 8 < ax.lo ∧
      (-32768 : Int) / 8 < ax.lo ∧ (ax.hi : Int) ≤ 32767 / 8 := by decide +kernel

theorem witness_WrapBound :
    let ax : TileAxis := ⟨0, 0, 60, true, 1, false, 15, 1⟩
    (0 < ax.mask ∧ ax.mask ≤ 15) ∧ 0 < { ax with mask := 15 }.mask ∧ { ax with mask := 15 }.mask ≤ 15 := by decide

/-- With the palette off, and with it on over a TMEM whose copies agree. -/
theorem witness_QuadInvariant :
    modesZero.enTlut = false ∧ { modesZero with enTlut := true }.enTlut = true ∧
      ∀ e k : Nat, e < 256 → k < 4 → tlutEntry [] e k = tlutEntry [] e 0 := ⟨rfl, rfl, fun _ _ _ _ => rfl⟩

/-- BlendRange, CoverageDestination, DitherChannel: the ends of the ranges. -/
theorem witness_stage_ranges :
    ((0 : Int) ≤ 255 ∧ (255 : Int) ≤ 255) ∧ 8 ≤ 8 ∧ 7 ≤ 7 ∧ ((0 : Int) ≤ 7 ∧ (7 : Int) ≤ 7) := by decide

/-- TmemViews, TmemCanonical. -/
theorem witness_Tmem :
    Memory.wf [] = true ∧ Memory.wf [(0, 1), (4095, 0xFF)] = true ∧ (8 : Nat) % 4096 / 8 ≠ 0 % 512 := by decide +kernel

/-- InitResets, ReadCrashedReplies. -/
theorem witness_host_entries :
    (withInbox [.init] .reset).refused = false ∧ (withInbox [.init] .reset).inbox = [.init] ∧
      (withInbox [.readCrashed] .reset).refused = false ∧ (withInbox [.readCrashed] .reset).inbox = [.readCrashed] := by
  decide +kernel

theorem witness_CfgWrites (c : CfgWrite) :
    (withInbox [.cfg c] .reset).refused = false ∧ (withInbox [.cfg c] .reset).inbox = .cfg c :: [] ∧
      Slot.rgbC.accepts .lodFrac = true ∧ (⟨cycleSelZero, cycleSelZero⟩ : CombinerSel).wellFormed = true ∧
      (true, Slot.rgbA) ≠ (true, Slot.rgbC) ∧ (false, Slot.rgbC) ≠ (true, Slot.rgbC) :=
  ⟨rfl, rfl, by decide +kernel, by decide +kernel, by decide, by decide⟩

theorem witness_BadOperandRefused :
    (CfgWrite.ccSlot true .rgbC .one).wellFormed = false ∧ (CfgWrite.ccSlot false .rgbD .noise).wellFormed = false := by
  decide +kernel

/-- A crashed machine steps on (CrashedSticky). -/
theorem witness_CrashedSticky :
    ∃ s t : State, step s = .next t ∧ s.inbox.head? ≠ some .init ∧ s.crashed = true :=
  ⟨withInbox [.exec 0 0] { State.reset with crashed := true }, _, rfl, by decide, rfl⟩

/-- A load of a 4-bit image sets the flag (OnlyLoadsFault). -/
theorem witness_OnlyLoadsFault :
    ∃ s t : State, step s = .next t ∧ s.crashed = false ∧ t.crashed = true :=
  ⟨withInbox [.exec 0x34004008 0x0200C010] .reset, _, rfl, rfl, rfl⟩

theorem witness_CrashedGatesNothing :
    ∃ t : State, exec (.loadTile 2 ⟨4, 8, 12, 16⟩) .reset = .next t ∧ t.crashed = true := ⟨_, rfl, rfl⟩

/-- A load and INIT each change TMEM (OnlyLoadsWriteTmem). -/
theorem witness_OnlyLoadsWriteTmem :
    (∃ s t : State, step s = .next t ∧ tmem16 t.tmem 0x400 ≠ tmem16 s.tmem 0x400) ∧
      ∃ s t : State, step s = .next t ∧ s.inbox.head? = some .init ∧ t.tmem ≠ s.tmem :=
  ⟨⟨withInbox [.exec 0x30000000 0x07000000] ((withImage 2 1 0 [0x12345678]).setShape 7 (shape16 0 256)), _, rfl,
      by decide +kernel⟩,
    ⟨withInbox [.init] { State.reset with tmem := [(0, 1)] }, _, rfl, rfl, by decide⟩⟩

/-- A rectangle, a primitive and INIT each change a Color register (OnlyDrawsWriteColors). -/
theorem witness_OnlyDrawsWriteColors :
    (∃ s t : State, step s = .next t ∧ s.inbox.head? = some (.exec 0x36004004 0) ∧ t.regs.memory ≠ s.regs.memory) ∧
      (∃ s t : State, step s = .next t ∧ s.inbox.head? = some (.prim (rectanglePrimitive 0 0 4 4)) ∧
        t.regs.memory ≠ s.regs.memory) ∧
      ∃ s t : State, step s = .next t ∧ s.inbox.head? = some .init ∧ t.regs.shade ≠ s.regs.shade :=
  ⟨⟨withInbox [.exec 0x36004004 0] (withCycle 0), _, rfl, rfl, by decide +kernel⟩,
    ⟨withInbox [.prim (rectanglePrimitive 0 0 4 4)] (withCycle 0), _, rfl, rfl, by decide +kernel⟩,
    ⟨withInbox [.init] { State.reset with regs := { ColorRegs.zero with shade := ⟨1, 0, 0, 0⟩ } }, _, rfl, rfl,
      by decide +kernel⟩⟩

/-- A step of every kind of entry, and of none (IndexCountsCommands, HistoryGrows). -/
theorem witness_steps :
    (∃ t : State, step (withInbox [.exec 0x29000000 0] .reset) = .next t) ∧
      (∃ t : State, step (withInbox [.init] { State.reset with cmdIndex := 5 }) = .next t) ∧
      (∃ t : State, step (withInbox [.readCrashed] .reset) = .next t) ∧ step .reset = .next .reset :=
  ⟨⟨_, rfl⟩, ⟨_, rfl⟩, ⟨_, rfl⟩, rfl⟩

/-- A step from a state of the invariant (StepKeepsInv). -/
theorem witness_StepKeepsInv :
    ∃ s t : State, s.Inv ∧ step s = .next t ∧ t.tmem ≠ s.tmem := by
  refine ⟨withInbox [.init] { State.reset with tmem := [(0, 1)] }, _, ⟨rfl, rfl, rfl, ?_, trivial⟩, rfl, by decide⟩
  simp [ColorRegs.InRange, Color.within, Color.lane, Color.alpha, withInbox, State.reset, ColorRegs.zero, Color.zero]

end Sys2Proof.Tests
end

section
/-! What one entry does to the state's flags and counters (10_state.md R60, R61, R62, R75): first what a command keeps,
then what a step keeps. -/

namespace Sys2Proof.Machine

/-! ### The checked load -/

@[simp] theorem State.loadChecked_regs (s : State) (f : LoadState → LoadState) : (s.loadChecked f).regs = s.regs := by
  rw [s.loadChecked_frame f]

@[simp] theorem State.loadChecked_cmdIndex (s : State) (f : LoadState → LoadState) :
    (s.loadChecked f).cmdIndex = s.cmdIndex := by
  rw [s.loadChecked_frame f]

/-- A checked load may set `crashed` and never clears it (R461). -/
theorem State.loadChecked_keeps_crashed (s : State) (f : LoadState → LoadState) (hc : s.crashed = true) :
    (s.loadChecked f).crashed = true := by
  by_cases hsize : s.settings.texImage.size = 0
  · rw [s.loadChecked_fault f hsize, raiseConfigFault_crashed]
  · rw [s.loadChecked_load f hsize, State.load_crashed, hc]

/-! ### A command -/

/-- No command clears `crashed` (R60). -/
theorem exec_keeps_crashed {i : Instr} {s t : State} (h : exec i s = .next t) (hc : s.crashed = true) :
    t.crashed = true := by
  obtain ⟨_, tile, b, f, _, rfl⟩ | ⟨xl, yl, xh, yh, _, rfl⟩ | ⟨_, rfl⟩ | ⟨_, hframe, _⟩ := exec_cases h
  · exact State.loadChecked_keeps_crashed _ f hc
  · exact hc
  · exact hc
  · rw [hframe]; exact hc

/-- No command moves `cmd_index`: the step counts, not the command (R75). -/
theorem exec_cmdIndex {i : Instr} {s t : State} (h : exec i s = .next t) : t.cmdIndex = s.cmdIndex := by
  obtain ⟨_, tile, b, f, _, rfl⟩ | ⟨xl, yl, xh, yh, _, rfl⟩ | ⟨_, rfl⟩ | ⟨_, hframe, _⟩ := exec_cases h
  · rw [State.loadChecked_cmdIndex, State.setBounds_cmdIndex]
  · rw [State.drawPrim_cmdIndex]
  · rw [State.emit_cmdIndex]
  · rw [hframe]

/-- A command keeps the Color registers, or it is FILL_RECTANGLE (R62). -/
theorem exec_regs_or_fillRectangle {i : Instr} {s t : State} (h : exec i s = .next t) :
    t.regs = s.regs ∨ ∃ xl yl xh yh : BitVec 12, i = .fillRectangle xl yl xh yh := by
  obtain ⟨_, tile, b, f, _, rfl⟩ | ⟨xl, yl, xh, yh, hi, _⟩ | ⟨_, rfl⟩ | ⟨_, hframe, _⟩ := exec_cases h
  · exact .inl (by rw [State.loadChecked_regs, State.setBounds_regs])
  · exact .inr ⟨xl, yl, xh, yh, hi⟩
  · exact .inl (State.emit_regs ..)
  · exact .inl (by rw [hframe])

/-! ### A step -/

/-- A step from a state without the mark `refused` runs the oldest entry (R468). -/
theorem step_of_inbox {s : State} {e : HostEntry} {rest : List HostEntry} (hr : s.refused = false)
    (hin : s.inbox = e :: rest) : step s = stepEntry e { s with inbox := rest } := by
  unfold step
  rw [if_neg (Bool.eq_false_iff.mp hr), hin]

/-- Settles O6: the three answers `exec` can give, each passed on by the step. -/
theorem stepRunsDecoded : Obligations.StepRunsDecoded := by
  intro s w0 w1 rest i hr hin hd
  rw [step_of_inbox hr hin]
  show stepExec w0 w1 { s with inbox := rest } = _
  unfold stepExec
  rw [hd]
  cases hexec : exec i { s with inbox := rest } with
  | next t => simp only [hexec, State.countCommand]
  | fault f => simp only [hexec]
  | refused r => simp only [hexec]

/-- Settles O50: the step looks at the mark before it looks at the inbox. -/
theorem refusedStops : Obligations.RefusedStops := by
  intro s
  exact if_pos s.afterRefusal_refused

/-- Settles O51, by the kind of the step's entry. -/
theorem crashedSticky : Obligations.CrashedSticky := by
  intro s t hstep hnotInit hc
  obtain ⟨_, ⟨_, rfl⟩ | ⟨w0, w1, rest, i, u, _, _, hexec, rfl⟩ | ⟨rest, hin, _⟩ | ⟨c, rest, _, _, rfl⟩ |
    ⟨p, rest, _, rfl⟩ | ⟨rest, _, rfl⟩⟩ := step_cases hstep
  · exact hc
  · rw [State.countCommand_crashed]
    exact exec_keeps_crashed hexec hc
  · exact absurd (by rw [hin]; rfl) hnotInit
  · exact hc
  · exact hc
  · exact hc

/-- Settles O55, by the kind of the step's entry; of the commands, by `exec_regs_or_fillRectangle`. -/
theorem onlyDrawsWriteColors : Obligations.OnlyDrawsWriteColors := by
  intro s t hstep hne
  obtain ⟨_, ⟨_, rfl⟩ | ⟨w0, w1, rest, i, u, hin, hd, hexec, rfl⟩ | ⟨rest, hin, _⟩ | ⟨c, rest, _, _, rfl⟩ |
    ⟨p, rest, hin, _⟩ | ⟨rest, _, rfl⟩⟩ := step_cases hstep
  · exact absurd rfl hne
  · obtain hregs | ⟨xl, yl, xh, yh, rfl⟩ := exec_regs_or_fillRectangle hexec
    · exact absurd hregs hne
    · exact .inr (.inr ⟨w0, w1, xl, yl, xh, yh, by rw [hin]; rfl, hd⟩)
  · exact .inl (by rw [hin]; rfl)
  · exact absurd rfl hne
  · exact .inr (.inl ⟨p, by rw [hin]; rfl⟩)
  · exact absurd rfl hne

/-- Settles O56, by the kind of the step's entry. -/
theorem indexCountsCommands : Obligations.IndexCountsCommands := by
  intro s t hstep
  obtain ⟨_, ⟨hin, rfl⟩ | ⟨w0, w1, rest, i, u, hin, _, hexec, rfl⟩ | ⟨rest, hin, rfl⟩ | ⟨c, rest, hin, _, rfl⟩ |
    ⟨p, rest, hin, rfl⟩ | ⟨rest, hin, rfl⟩⟩ := step_cases hstep
  · rw [hin]; rfl
  · rw [hin, State.countCommand_cmdIndex, exec_cmdIndex hexec]; rfl
  · rw [hin, hostInit_cmdIndex]; rfl
  · rw [hin, State.configure_cmdIndex]; rfl
  · rw [hin, State.drawPrim_cmdIndex]; rfl
  · rw [hin, hostReadCrashed_cmdIndex]; rfl

end Sys2Proof.Machine
end

section
/-! Which Color registers a pixel writes, by cycle type (10_state.md R62; 41_edge_walker.md R246 to R250). -/

namespace Sys2Proof.Machine

/-! ### A pixel by its cycle type (R32) -/

section CycleTypes

variable {g : Settings} (m : Memory) (prim : Prim) (ps : PixelState) (pin : PixelIn)

theorem drawPixel_one (h : cycleType g.cfg = .one) : drawPixel g m prim ps pin = drawOne g m prim pin ps := by
  rw [drawPixel, h]

theorem drawPixel_two (h : cycleType g.cfg = .two) : drawPixel g m prim ps pin = drawTwo g m prim pin ps := by
  rw [drawPixel, h]

theorem drawPixel_copy (h : cycleType g.cfg = .copy) : drawPixel g m prim ps pin = drawCopy g m prim pin ps := by
  rw [drawPixel, h]

theorem drawPixel_fill (h : cycleType g.cfg = .fill) : drawPixel g m prim ps pin = drawFill g pin ps := by
  rw [drawPixel, h]

end CycleTypes

/-! ### The registers up to `combined` -/

section Front

variable (g : Settings) (m : Memory) (prim : Prim) (pin : PixelIn) (noise : Int) (regs : ColorRegs)

@[simp] theorem frontOne_shade : (frontOne g m prim pin noise regs).shade = pin.shade := rfl

/-- The texel at the next pixel goes into both registers (R247, R368; log 21). -/
@[simp] theorem frontOne_texel1_eq_nexttexel :
    (frontOne g m prim pin noise regs).texel1 = (frontOne g m prim pin noise regs).nexttexel := rfl

@[simp] theorem frontOne_blendedPixel : (frontOne g m prim pin noise regs).blendedPixel = regs.blendedPixel := rfl

@[simp] theorem frontTwo_shade : (frontTwo g m prim pin noise regs).shade = pin.shade := rfl

@[simp] theorem frontTwo_nexttexel : (frontTwo g m prim pin noise regs).nexttexel = regs.nexttexel := rfl

end Front

/-! ### The registers the end of a pixel keeps -/

section Finish

variable (g : Settings) (two : Bool) (pin : PixelIn) (dith : DitherVals) (ps : PixelState)

@[simp] theorem finishPixel_shade : (finishPixel g two pin dith ps).regs.shade = ps.regs.shade := by
  obtain ⟨_, _, hregs, _⟩ := finishPixel_regs g two pin dith ps
  rw [hregs]

@[simp] theorem finishPixel_texel1 : (finishPixel g two pin dith ps).regs.texel1 = ps.regs.texel1 := by
  obtain ⟨_, _, hregs, _⟩ := finishPixel_regs g two pin dith ps
  rw [hregs]

@[simp] theorem finishPixel_nexttexel : (finishPixel g two pin dith ps).regs.nexttexel = ps.regs.nexttexel := by
  obtain ⟨_, _, hregs, _⟩ := finishPixel_regs g two pin dith ps
  rw [hregs]

/-- `blended_pixel` is written by the first blender cycle of the 2-cycle type only (R407). -/
@[simp] theorem finishPixel_blendedPixel :
    (finishPixel g false pin dith ps).regs.blendedPixel = ps.regs.blendedPixel := by
  obtain ⟨_, _, hregs, hkept⟩ := finishPixel_regs g false pin dith ps
  exact (congrArg ColorRegs.blendedPixel hregs).trans (hkept rfl)

end Finish

/-! ### The registers after the pixel -/

section AfterPixel

variable (g : Settings) (m : Memory) (prim : Prim) (pin : PixelIn) (ps : PixelState)

/-- What a 1-cycle pixel leaves in `shade`, `texel1` and `blended_pixel` (R247). -/
theorem drawOne_regs :
    (drawOne g m prim pin ps).regs.shade = pin.shade ∧
    (drawOne g m prim pin ps).regs.texel1 = (drawOne g m prim pin ps).regs.nexttexel ∧
    (drawOne g m prim pin ps).regs.blendedPixel = ps.regs.blendedPixel := by
  simp [drawOne]

/-- What a 2-cycle pixel leaves in `shade` and `nexttexel` (R248). -/
theorem drawTwo_regs :
    (drawTwo g m prim pin ps).regs.shade = pin.shade ∧
    (drawTwo g m prim pin ps).regs.nexttexel = ps.regs.nexttexel := by
  simp [drawTwo]

/-- A copy pixel writes `texel0` only (R250; log 33). -/
theorem drawCopy_regs :
    (drawCopy g m prim pin ps).regs = { ps.regs with texel0 := (drawCopy g m prim pin ps).regs.texel0 } := rfl

/-- A fill pixel writes no Color register (R249; log 33). -/
@[simp] theorem drawFill_regs : (drawFill g pin ps).regs = ps.regs := rfl

end AfterPixel

/-- Settles O33, one clause per cycle type. -/
theorem pixelColorFrame : Obligations.PixelColorFrame := by
  intro g m prim pin ps r hr
  subst hr
  refine ⟨fun h => ?one, fun h => ?two, fun h => ?copy, fun h => ?fill⟩
  case one => rw [drawPixel_one m prim ps pin h]; exact drawOne_regs g m prim pin ps
  case two => rw [drawPixel_two m prim ps pin h]; exact drawTwo_regs g m prim pin ps
  case copy => rw [drawPixel_copy m prim ps pin h]; exact drawCopy_regs g m prim pin ps
  case fill => rw [drawPixel_fill m prim ps pin h]; exact drawFill_regs g pin ps

end Sys2Proof.Machine
end

section
/-! TMEM through its views (20_memory.md R100 to R102) and the bytes of an accessor word (R111): a write of a double word
seen word by word and byte by byte, and the canonical form as a normal form. -/

namespace Sys2Proof.Machine

/-! ### The canonical form is a normal form -/

@[simp] theorem Memory.read_cons_self (a : Nat) (v : Byte) (m : Memory) : Memory.read ((a, v) :: m) a = v := if_pos rfl

theorem Memory.read_cons_of_ne {a b : Nat} (v : Byte) (m : Memory) (h : a ≠ b) :
    Memory.read ((a, v) :: m) b = m.read b := if_neg h

/-- The first cell of a canonical list is its lowest address that does not read as the default. -/
theorem Memory.head_le_of_read_eq {lo lo' a b : Nat} {v w : Byte} {m m' : Memory}
    (h : Memory.wfFrom lo ((a, v) :: m) = true) (h' : Memory.wfFrom lo' ((b, w) :: m') = true)
    (hread : ∀ x < 4096, Memory.read ((a, v) :: m) x = Memory.read ((b, w) :: m') x) : b ≤ a := by
  obtain ⟨_, ha, hv, _⟩ := Memory.wfFrom_cons h
  obtain ⟨_, hb, hw, hm'⟩ := Memory.wfFrom_cons h'
  by_contra hlt
  have hhead : Memory.wfFrom b ((b, w) :: m') = true := by simp [Memory.wfFrom, hb, hw, hm']
  refine hv ?_
  calc v = Memory.read ((a, v) :: m) a := (Memory.read_cons_self a v m).symm
    _ = Memory.read ((b, w) :: m') a := hread a ha
    _ = Memory.default := Memory.read_of_lt hhead (by omega)

/-- Canonical lists that read alike below 4096 are equal (R100). -/
theorem Memory.eq_of_read_eq {lo lo' : Nat} {m m' : Memory} (h : Memory.wfFrom lo m = true)
    (h' : Memory.wfFrom lo' m' = true) (hread : ∀ x < 4096, m.read x = m'.read x) : m = m' := by
  induction m generalizing lo lo' m' with
  | nil =>
    cases m' with
    | nil => rfl
    | cons c rest =>
      obtain ⟨_, hc, hne, _⟩ := Memory.wfFrom_cons h'
      exact absurd ((hread c.1 hc).trans (Memory.read_cons_self ..)).symm hne
  | cons c rest ih =>
    obtain ⟨a, v⟩ := c
    obtain ⟨_, ha, hne, hrest⟩ := Memory.wfFrom_cons h
    cases m' with
    | nil => exact absurd ((Memory.read_cons_self ..).symm.trans (hread a ha)) hne
    | cons c' rest' =>
      obtain ⟨b, w⟩ := c'
      obtain ⟨_, _, _, hrest'⟩ := Memory.wfFrom_cons h'
      obtain rfl : a = b := Nat.le_antisymm
        (Memory.head_le_of_read_eq h' h (fun x hx => (hread x hx).symm)) (Memory.head_le_of_read_eq h h' hread)
      obtain rfl : v = w := by simpa using hread a ha
      have htail : rest = rest' := ih hrest hrest' (fun x hx => by
        by_cases hxa : x = a
        · rw [Memory.read_of_lt hrest (by omega), Memory.read_of_lt hrest' (by omega)]
        · simpa only [Memory.read_cons_of_ne v _ (Ne.symm hxa)] using hread x hx)
      rw [htail]

/-- Settles O44: canonical lists are compared cell by cell, from the lowest address on. -/
theorem tmemCanonical : Obligations.TmemCanonical := by
  intro m m' h h' hread
  refine Memory.eq_of_read_eq h h' (fun x hx => ?_)
  simpa only [tmem8, Nat.mod_eq_of_lt hx] using hread x

/-! ### A double word through the 16-bit and byte views -/

/-- A byte of TMEM is the high or the low half of its 16-bit word, by the parity of its address (R101, R102). -/
theorem tmem8_eq_extract_tmem16 (m : Memory) {a : Nat} (ha : a < 4096) :
    tmem8 m a = (tmem16 m (a / 2)).extractLsb' (8 - 8 * (a % 2)) 8 := by
  have hw : a / 2 % 2048 = a / 2 := Nat.mod_eq_of_lt (by omega)
  unfold tmem16 halfOf
  rw [hw]
  obtain heven | hodd : a = 2 * (a / 2) ∨ a = 2 * (a / 2) + 1 := by omega
  · rw [show a % 2 = 0 by omega, ← heven]
    exact (BitVec.extractLsb'_append_eq_left ..).symm
  · rw [show a % 2 = 1 by omega, ← hodd]
    exact (BitVec.extractLsb'_append_eq_right ..).symm

/-- A field of a field. -/
theorem extract_extract {n : Nat} (v : BitVec n) {lo len lo' len' : Nat} (h : lo' + len' ≤ len) :
    (v.extractLsb' lo len).extractLsb' lo' len' = v.extractLsb' (lo + lo') len' := by
  refine BitVec.eq_of_getLsbD_eq (fun i hi => ?_)
  have hlt : lo' + i < len := by omega
  simp [hi, hlt, Nat.add_assoc]

/-- Word `i` of a double word that was written, the first the most significant (R101, R102). -/
theorem tmem16_writeTmem64_word {m : Memory} (h : m.wf = true) (q : Nat) (v : Dword) {i : Nat} (hi : i < 4) :
    tmem16 (writeTmem64 m q v) (4 * (q % 512) + i) = v.extractLsb' (48 - 16 * i) 16 := by
  rw [tmem16_writeTmem64 h, Nat.mod_eq_of_lt (show 4 * (q % 512) + i < 2048 by omega)]
  interval_cases i <;> simp

/-- Byte `i` of a double word that was written, the first the most significant (R101, R102). -/
theorem tmem8_writeTmem64_byte {m : Memory} (h : m.wf = true) (q : Nat) (v : Dword) {i : Nat} (hi : i < 8) :
    tmem8 (writeTmem64 m q v) (8 * (q % 512) + i) = v.extractLsb' (56 - 8 * i) 8 := by
  have hword : (8 * (q % 512) + i) / 2 = 4 * (q % 512) + i / 2 := by omega
  have hparity : (8 * (q % 512) + i) % 2 = i % 2 := by omega
  rw [tmem8_eq_extract_tmem16 _ (by omega), hword, hparity, tmem16_writeTmem64_word h q v (by omega),
    extract_extract v (by omega), show 48 - 16 * (i / 2) + (8 - 8 * (i % 2)) = 56 - 8 * i by omega]

/-- Byte `i` of an accessor word, the lowest address the most significant (R111). -/
theorem bytesOfWord_getElem? (w : Word) {i : Nat} (hi : i < 4) :
    (bytesOfWord w)[i]? = some (w.extractLsb' (24 - 8 * i) 8) := by
  interval_cases i <;> rfl

/-- Settles O43, one lemma for each view. -/
theorem tmemViews : Obligations.TmemViews := by
  refine ⟨fun m q v h => ⟨wf_writeTmem64 h q v, ?_, fun i => tmem16_writeTmem64_word h q v,
    fun i => tmem8_writeTmem64_byte h q v, fun a => tmem8_writeTmem64_of_out h q a v⟩,
    fun w => ⟨rfl, fun i => bytesOfWord_getElem? w⟩⟩
  rw [tmem64_writeTmem64 h, if_pos rfl]

end Sys2Proof.Machine
end

section
/-! What every entry keeps of TMEM (20_memory.md R106) and of the event history (R110, R115). -/

namespace Sys2Proof.Machine

/-! ### Who writes TMEM -/

/-- A command keeps TMEM, or it is a load (R106). -/
theorem exec_tmem_or_isLoad {i : Instr} {s t : State} (h : exec i s = .next t) :
    t.tmem = s.tmem ∨ isLoad i = true := by
  obtain ⟨hload, _⟩ | ⟨xl, yl, xh, yh, _, rfl⟩ | ⟨_, rfl⟩ | ⟨_, hframe, _⟩ := exec_cases h
  · exact .inr hload
  · exact .inl (State.drawPrim_tmem ..)
  · exact .inl (State.emit_tmem ..)
  · exact .inl (by rw [hframe])

/-- Settles O54, by the kind of the step's entry; of the commands, by `exec_tmem_or_isLoad`. -/
theorem onlyLoadsWriteTmem : Obligations.OnlyLoadsWriteTmem := by
  intro s t hstep hne
  obtain ⟨_, ⟨_, rfl⟩ | ⟨w0, w1, rest, i, u, hin, hd, hexec, rfl⟩ | ⟨rest, hin, _⟩ | ⟨c, rest, _, _, rfl⟩ |
    ⟨p, rest, _, rfl⟩ | ⟨rest, _, rfl⟩⟩ := step_cases hstep
  · exact absurd rfl hne
  · obtain htmem | hload := exec_tmem_or_isLoad hexec
    · exact absurd htmem hne
    · exact .inr ⟨w0, w1, i, by rw [hin]; rfl, hd, hload⟩
  · exact .inl (by rw [hin]; rfl)
  · exact absurd rfl hne
  · exact absurd rfl hne
  · exact absurd rfl hne

/-! ### The history grows by word-aligned reads -/

/-- `new` is `old` with events appended, the accessor requests among them word-aligned (R110, R115). -/
def AlignedGrowth (old new : List Event) : Prop :=
  ∃ added : List Event, new = old ++ added ∧ ∀ a : BitVec 24, Event.memRead a ∈ added → a.toNat % 4 = 0

theorem AlignedGrowth.refl (es : List Event) : AlignedGrowth es es :=
  ⟨[], (List.append_nil es).symm, fun _ ha => absurd ha List.not_mem_nil⟩

/-- Appending an event that is no accessor request. -/
theorem AlignedGrowth.snoc (es : List Event) (e : Event) (h : ∀ a : BitVec 24, e ≠ .memRead a) :
    AlignedGrowth es (es ++ [e]) :=
  ⟨[e], rfl, fun a ha => absurd (List.mem_singleton.mp ha).symm (h a)⟩

theorem State.loadChecked_alignedGrowth (s : State) {f : LoadState → LoadState} (hf : LoadOk f) :
    AlignedGrowth s.ports.events (s.loadChecked f).ports.events := by
  by_cases hsize : s.settings.texImage.size = 0
  · rw [s.loadChecked_fault f hsize, raiseConfigFault_ports, Ports.emit_events]
    exact .snoc _ _ (fun a h => nomatch h)
  · rw [s.loadChecked_load f hsize, State.load_ports]
    exact hf.grows ⟨s.tmem, s.ports⟩

/-- Drawing issues no accessor request at all. -/
theorem State.drawPrim_alignedGrowth (s : State) (p : Prim) :
    AlignedGrowth s.ports.events (s.drawPrim p).ports.events := by
  obtain ⟨added, hadded, hnone⟩ :=
    drawPixels_grows s.settings s.tmem p (primPixels s.settings p s.spans) ⟨s.regs, s.ports⟩
  exact ⟨added, hadded, fun a ha => absurd ha (hnone a)⟩

theorem exec_alignedGrowth {i : Instr} {s t : State} (h : exec i s = .next t) :
    AlignedGrowth s.ports.events t.ports.events := by
  obtain ⟨_, tile, b, f, hf, rfl⟩ | ⟨xl, yl, xh, yh, _, rfl⟩ | ⟨_, rfl⟩ | ⟨_, hframe, _⟩ := exec_cases h
  · exact (s.setBounds tile b).loadChecked_alignedGrowth hf
  · exact s.drawPrim_alignedGrowth _
  · exact .snoc _ _ (fun a h => nomatch h)
  · rw [hframe]
    exact .refl _

/-- Settles O57, by the kind of the step's entry: commands and primitives append, the other entries keep the history. -/
theorem historyGrows : Obligations.HistoryGrows := by
  intro s t hstep
  show AlignedGrowth s.ports.events t.ports.events
  obtain ⟨_, ⟨_, rfl⟩ | ⟨w0, w1, rest, i, u, _, _, hexec, rfl⟩ | ⟨rest, _, rfl⟩ | ⟨c, rest, _, _, rfl⟩ |
    ⟨p, rest, _, rfl⟩ | ⟨rest, _, rfl⟩⟩ := step_cases hstep
  · exact .refl _
  · have hgrowth := exec_alignedGrowth hexec
    exact hgrowth
  · exact .refl _
  · exact .refl _
  · exact State.drawPrim_alignedGrowth { s with inbox := rest } p
  · exact .refl _

end Sys2Proof.Machine
end

section
/-! The decoder gives well-formed commands only (10_state.md R47; 30_encoding.md R142, R157). -/

namespace Sys2Proof

/-- The answer is a refusal or a well-formed command. -/
def AnswersWellFormed (answer : Except DecodeError Instr) : Prop := ∀ i : Instr, answer = .ok i → i.wellFormed = true

theorem answersWellFormed_ok {i : Instr} (h : i.wellFormed = true) : AnswersWellFormed (.ok i) := fun _ he => by
  cases he
  exact h

theorem answersWellFormed_ite {p : Prop} [Decidable p] {a b : Except DecodeError Instr} (ha : AnswersWellFormed a)
    (hb : AnswersWellFormed b) : AnswersWellFormed (if p then a else b) := by
  split
  · exact ha
  · exact hb

/-- Along the opcodes in the decoder's order: only the last, SET_TEXTURE_IMAGE, has an operand to check (R47). -/
theorem answersWellFormed_decodeCmd (c : Dword) : AnswersWellFormed (decodeCmd c) := by
  unfold decodeCmd
  iterate 15 refine answersWellFormed_ite (answersWellFormed_ok rfl) ?_
  exact answersWellFormed_ite (answersWellFormed_ok (widthOk_widthOf c)) (fun _ he => nomatch he)

theorem wellFormed_of_decode {w0 w1 : Word} {i : Instr} (h : decode w0 w1 = .ok i) : i.wellFormed = true :=
  answersWellFormed_decodeCmd (w0 ++ w1) i h

end Sys2Proof
end

section
/-! The invariant of the machine (20_memory.md R100; 45_combiner.md R380; 10_state.md R47, R63, R66), kept by each operation
on the state, so by each command, so by each step. -/

namespace Sys2Proof.Machine

/-! ### Operations on the state -/

section Operations

variable {s : State}

theorem State.Inv.configure (h : s.Inv) {g : Settings} (written : List Register) (hcc : g.cc.wellFormed = true)
    (hwidth : widthOk g.texImage.width = true) : (s.configure written g).Inv :=
  ⟨h.tmem, hcc, hwidth, h.colors, h.spans⟩

theorem State.Inv.setBounds (h : s.Inv) (i : BitVec 3) (b : TileBounds) : (s.setBounds i b).Inv :=
  ⟨h.tmem, h.operands, h.width, h.colors, h.spans⟩

theorem State.Inv.emit (h : s.Inv) (e : Event) : (s.emit e).Inv :=
  ⟨h.tmem, h.operands, h.width, h.colors, h.spans⟩

theorem State.Inv.countCommand (h : s.Inv) : s.countCommand.Inv :=
  ⟨h.tmem, h.operands, h.width, h.colors, h.spans⟩

theorem State.Inv.withInbox (h : s.Inv) (rest : List HostEntry) : State.Inv { s with inbox := rest } :=
  ⟨h.tmem, h.operands, h.width, h.colors, h.spans⟩

theorem State.Inv.raiseConfigFault (h : s.Inv) (cause : FaultCause) : (raiseConfigFault s cause).Inv :=
  ⟨h.tmem, h.operands, h.width, h.colors, h.spans⟩

theorem State.Inv.load (h : s.Inv) {f : LoadState → LoadState} (hf : LoadOk f) : (s.load f).Inv :=
  ⟨hf.wf ⟨s.tmem, s.ports⟩ h.tmem, h.operands, h.width, h.colors, h.spans⟩

theorem State.Inv.loadChecked (h : s.Inv) {f : LoadState → LoadState} (hf : LoadOk f) : (s.loadChecked f).Inv := by
  by_cases hsize : s.settings.texImage.size = 0
  · rw [s.loadChecked_fault f hsize]
    exact h.raiseConfigFault _
  · rw [s.loadChecked_load f hsize]
    exact h.load hf

/-- Drawing keeps the register ranges because every pixel of a primitive comes with a clamped shade (R246). -/
theorem State.Inv.drawPrim (h : s.Inv) (p : Prim) : (s.drawPrim p).Inv := by
  have hshade : ∀ pin ∈ primPixels s.settings p s.spans, pin.shade.within 255 := fun pin hpin => by
    obtain ⟨y, body, xstart, x, next?, _, _, _, rfl⟩ := mem_primPixels hpin
    exact within_shade_pixelIn ..
  exact ⟨h.tmem, h.operands, h.width, inRange_drawPixels s.settings s.tmem p _ ⟨s.regs, s.ports⟩ hshade h.colors,
    entriesOk_edgeWalk s.settings p s.spans h.spans⟩

theorem ColorRegs.inRange_zero : ColorRegs.zero.InRange := by
  have h255 : Color.zero.within 255 := within_zero (by decide)
  exact ⟨within_zero (by decide), h255, h255, h255, h255, h255, h255⟩

/-- INIT empties TMEM and zeroes the Color registers (R481). -/
theorem State.Inv.hostInit (h : s.Inv) : (hostInit s).Inv :=
  ⟨rfl, h.operands, h.width, ColorRegs.inRange_zero, h.spans⟩

theorem State.Inv.hostReadCrashed (h : s.Inv) : (hostReadCrashed s).Inv :=
  ⟨h.tmem, h.operands, h.width, h.colors, h.spans⟩

end Operations

/-! ### Commands and steps -/

/-- A well-formed command keeps the invariant; only SET_TEXTURE_IMAGE needs that premise (R47). -/
theorem exec_keeps_inv {i : Instr} {s t : State} (hexec : exec i s = .next t) (hwf : i.wellFormed = true) (h : s.Inv) :
    t.Inv := by
  obtain ⟨_, tile, b, f, hf, rfl⟩ | ⟨xl, yl, xh, yh, _, rfl⟩ | ⟨_, rfl⟩ | ⟨_, hframe, hcc, hwidth⟩ := exec_cases hexec
  · exact (h.setBounds tile b).loadChecked hf
  · exact h.drawPrim _
  · exact h.emit _
  · rw [hframe]
    exact ⟨h.tmem, hcc ▸ h.operands, hwidth hwf h.width, h.colors, h.spans⟩

/-- Settles O58, by the kind of the step's entry: the decoder gives well-formed commands only, and an accepted
configuration write is well formed. -/
theorem stepKeepsInv : Obligations.StepKeepsInv := by
  intro s t h hstep
  obtain ⟨_, ⟨_, rfl⟩ | ⟨w0, w1, rest, i, u, _, hd, hexec, rfl⟩ | ⟨rest, _, rfl⟩ | ⟨c, rest, _, hgood, rfl⟩ |
    ⟨p, rest, _, rfl⟩ | ⟨rest, _, rfl⟩⟩ := step_cases hstep
  · exact h
  · exact (exec_keeps_inv hexec (wellFormed_of_decode hd) (h.withInbox rest)).countCommand
  · exact (h.withInbox rest).hostInit
  · have hcc := wellFormed_cfgSettings h.operands ((cfgBadOperand_eq_none_iff c).mp hgood)
    exact (h.withInbox rest).configure _ hcc (by rw [cfgSettings_texImage]; exact h.width)
  · exact (h.withInbox rest).drawPrim p
  · exact (h.withInbox rest).hostReadCrashed

end Sys2Proof.Machine
end

section
/-! Decoding said once: a word of a command's opcode decodes to that command with its operands read from the word
(30_encoding.md R140, R144), and only the opcodes of the table are some command's. -/

namespace Sys2Proof

open Sys2Proof.Machine

/-- The command of the given one's layout, its operands read from the word `c` and not from the command (R150 to
R160). -/
def Instr.readFrom (c : Dword) : Instr → Instr
  | .nop => .nop
  | .syncLoad => .syncLoad
  | .syncPipe => .syncPipe
  | .syncTile => .syncTile
  | .syncFull => .syncFull
  | .setConvert _ => .setConvert (convertOf c)
  | .setPrimDepth _ _ => .setPrimDepth (c.extractLsb' 16 15) (c.extractLsb' 0 16)
  | .setOtherModes _ => .setOtherModes (modesOf c)
  | .loadTlut _ _ => .loadTlut (tileOf c) (boundsOf c)
  | .setTileSize _ _ => .setTileSize (tileOf c) (boundsOf c)
  | .loadBlock _ _ _ _ _ =>
    .loadBlock (tileOf c) (boundsOf c).sl (boundsOf c).tl (boundsOf c).sh (boundsOf c).th
  | .loadTile _ _ => .loadTile (tileOf c) (boundsOf c)
  | .setTile _ _ => .setTile (tileOf c) (shapeOf c)
  | .fillRectangle _ _ _ _ => .fillRectangle (boundsOf c).sl (boundsOf c).tl (boundsOf c).sh (boundsOf c).th
  | .setFillColor _ => .setFillColor (c.extractLsb' 0 32)
  | .setTextureImage _ _ _ _ =>
    .setTextureImage (c.extractLsb' 53 3) (c.extractLsb' 51 2) (widthOf c) (c.extractLsb' 0 24)

@[simp] theorem Instr.opcode_readFrom (c : Dword) (i : Instr) : (i.readFrom c).opcode = i.opcode := by
  cases i <;> rfl

/-- The decoder on the opcode of a command reads that command's layout. -/
theorem decodeCmd_of_opcode {c : Dword} {i : Instr} (h : opcodeOf c = i.opcode) :
    decodeCmd c = .ok (i.readFrom c) := by
  unfold decodeCmd
  rw [h]
  cases i <;> rfl

/-- One command of each row of the table, in the table's order (R144). -/
def oneOfEachOpcode : List Instr :=
  [.nop, .syncLoad, .syncPipe, .syncTile, .syncFull, .setConvert (convertOf 0), .setPrimDepth 0 0,
    .setOtherModes (modesOf 0), .loadTlut 0 (boundsOf 0), .setTileSize 0 (boundsOf 0), .loadBlock 0 0 0 0 0,
    .loadTile 0 (boundsOf 0), .setTile 0 (shapeOf 0), .fillRectangle 0 0 0 0, .setFillColor 0, .setTextureImage 0 0 1 0]

theorem map_opcode_oneOfEachOpcode : oneOfEachOpcode.map Instr.opcode = commandOpcodes := rfl

theorem exists_opcode_eq {op : BitVec 6} (h : op ∈ commandOpcodes) : ∃ i : Instr, i.opcode = op := by
  rw [← map_opcode_oneOfEachOpcode] at h
  obtain ⟨i, _, hi⟩ := List.mem_map.mp h
  exact ⟨i, hi⟩

/-- What the decoder answers has the opcode of the word (R144). -/
theorem opcode_of_decodeCmd {c : Dword} {i : Instr} (h : decodeCmd c = .ok i) : opcodeOf c = i.opcode := by
  by_cases hop : opcodeOf c ∈ commandOpcodes
  · obtain ⟨j, hj⟩ := exists_opcode_eq hop
    rw [decodeCmd_of_opcode hj.symm] at h
    cases h
    rw [Instr.opcode_readFrom, hj]
  · rw [decodeCmd_of_unknown c hop] at h
    cases h

/-- Settles O3, by whether the opcode is some command's. -/
theorem decodeSound : Obligations.DecodeSound := by
  intro w0 w1
  refine ⟨fun i hi => ⟨wellFormed_of_decode hi, opcode_of_decodeCmd hi⟩, decodeCmd_of_unknown _, fun hop => ?_⟩
  obtain ⟨i, hi⟩ := exists_opcode_eq hop
  exact ⟨i.readFrom (w0 ++ w1), decodeCmd_of_opcode hi.symm⟩

/-- Settles O5: the step decodes before it runs anything, and the decoder refuses the opcode. -/
theorem unknownOpcodeRefused : Obligations.UnknownOpcodeRefused := by
  intro s w0 w1 rest hr hin hop
  have hd : decode w0 w1 = .error (.unknownOpcode (opcodeOf (w0 ++ w1))) := decodeCmd_of_unknown _ hop
  rw [step_of_inbox hr hin]
  show stepExec w0 w1 { s with inbox := rest } = _
  unfold stepExec
  rw [hd]

end Sys2Proof
end

section
/-! The operands of an encoded command read back from its word (30_encoding.md R142, R150 to R160): each from its own
place whole, and nothing from the places of the others. -/

namespace Sys2Proof

open Sys2Proof.Machine

theorem convertOf_encodeCmd (k : ConvertConsts) : convertOf (encodeCmd (.setConvert k)) = k := by
  simp (disch := decide) [convertOf, encodeCmd, Instr.body, extract_or, extract_put_same, extract_put_of_disjoint]

theorem tileOf_tileBody (op : BitVec 6) (tile : BitVec 3) (sl tl sh lo : BitVec 12) :
    tileOf (put 56 op ||| tileBody tile sl tl sh lo) = tile := by
  simp (disch := decide) [tileOf, tileBody, extract_or, extract_put_same, extract_put_of_disjoint]

theorem boundsOf_tileBody (op : BitVec 6) (tile : BitVec 3) (sl tl sh lo : BitVec 12) :
    boundsOf (put 56 op ||| tileBody tile sl tl sh lo) = ⟨sl, tl, sh, lo⟩ := by
  simp (disch := decide) [boundsOf, tileBody, extract_or, extract_put_same, extract_put_of_disjoint]

theorem boundsOf_encodeCmd_fillRectangle (xl yl xh yh : BitVec 12) :
    boundsOf (encodeCmd (.fillRectangle xl yl xh yh)) = ⟨xl, yl, xh, yh⟩ := by
  simp (disch := decide) [boundsOf, encodeCmd, Instr.body, extract_or, extract_put_same, extract_put_of_disjoint]

theorem tileOf_encodeCmd_setTile (tile : BitVec 3) (d : TileShape) : tileOf (encodeCmd (.setTile tile d)) = tile := by
  simp (disch := decide) [tileOf, encodeCmd, Instr.body, shapeBody, extract_or, extract_put_same,
    extract_put_of_disjoint, extract_putFlag_of_out]

theorem shapeOf_encodeCmd (tile : BitVec 3) (d : TileShape) : shapeOf (encodeCmd (.setTile tile d)) = d := by
  simp (disch := decide) only [shapeOf, encodeCmd, Instr.body, shapeBody, extract_or, extract_put_same,
    extract_put_of_disjoint, extract_putFlag_of_out, BitVec.zero_or, BitVec.or_zero, getLsbD_or_cmd,
    getLsbD_putFlag_same, getLsbD_put_of_out, getLsbD_putFlag_of_out, Bool.false_or, Bool.or_false]

theorem modesOf_encodeCmd (m : OtherModes) : modesOf (encodeCmd (.setOtherModes m)) = m := by
  simp (disch := decide) only [modesOf, encodeCmd, Instr.body, modesHigh, modesLow, extract_or, extract_put_same,
    extract_put_of_disjoint, extract_putFlag_of_out, BitVec.zero_or, BitVec.or_zero, getLsbD_or_cmd,
    getLsbD_putFlag_same, getLsbD_put_of_out, getLsbD_putFlag_of_out, Bool.false_or, Bool.or_false]

/-- The field of a width in range, plus one, is the width (R142, R47). -/
theorem width_of_field {w : BitVec 11} (h : widthOk w = true) : ((w - 1).setWidth 10).zeroExtend 11 + 1 = w := by
  have hrange : 1 ≤ w.toNat ∧ w.toNat ≤ 1024 := by simpa [widthOk] using h
  bv_omega

theorem widthOf_encodeCmd (f : BitVec 3) (z : BitVec 2) {w : BitVec 11} (a : BitVec 24) (h : widthOk w = true) :
    widthOf (encodeCmd (.setTextureImage f z w a)) = w := by
  have hfield : (encodeCmd (.setTextureImage f z w a)).extractLsb' 32 10 = (w - 1).setWidth 10 := by
    simp (disch := decide) [encodeCmd, Instr.body, extract_or, extract_put_same, extract_put_of_disjoint]
  rw [widthOf, hfield, width_of_field h]

/-- The operands of a well-formed command are read back from its own word. -/
theorem readFrom_encodeCmd {i : Instr} (h : i.wellFormed = true) : i.readFrom (encodeCmd i) = i := by
  cases i with
  | nop | syncLoad | syncPipe | syncTile | syncFull => rfl
  | setConvert k => exact congrArg Instr.setConvert (convertOf_encodeCmd k)
  | setOtherModes m => exact congrArg Instr.setOtherModes (modesOf_encodeCmd m)
  | setPrimDepth | setFillColor =>
    simp (disch := decide) [Instr.readFrom, encodeCmd, Instr.body, extract_or, extract_put_same,
      extract_put_of_disjoint]
  | loadTlut | setTileSize | loadBlock | loadTile =>
    simp [Instr.readFrom, encodeCmd, Instr.body, tileOf_tileBody, boundsOf_tileBody]
  | setTile => rw [Instr.readFrom, tileOf_encodeCmd_setTile, shapeOf_encodeCmd]
  | fillRectangle => rw [Instr.readFrom, boundsOf_encodeCmd_fillRectangle]
  | setTextureImage f z w a =>
    rw [Instr.readFrom, widthOf_encodeCmd f z a h]
    simp (disch := decide) [encodeCmd, Instr.body, extract_or, extract_put_same, extract_put_of_disjoint]

/-- The word of a command has the command's opcode (R140, R144). -/
theorem opcodeOf_encodeCmd (i : Instr) : opcodeOf (encodeCmd i) = i.opcode := by
  cases i with
  | nop => exact Laws.OpcodeField.nop
  | syncLoad => exact Laws.OpcodeField.syncLoad
  | syncPipe => exact Laws.OpcodeField.syncPipe
  | syncTile => exact Laws.OpcodeField.syncTile
  | syncFull => exact Laws.OpcodeField.syncFull
  | setConvert k => exact Laws.OpcodeField.setConvert k
  | setPrimDepth z dz => exact Laws.OpcodeField.setPrimDepth z dz
  | setOtherModes m => exact Laws.OpcodeField.setOtherModes m
  | loadTlut t b => exact Laws.OpcodeField.loadTlut t b
  | setTileSize t b => exact Laws.OpcodeField.setTileSize t b
  | loadBlock t sl tl sh dxt => exact Laws.OpcodeField.loadBlock t sl tl sh dxt
  | loadTile t b => exact Laws.OpcodeField.loadTile t b
  | setTile t d => exact Laws.OpcodeField.setTile t d
  | fillRectangle xl yl xh yh => exact Laws.OpcodeField.fillRectangle xl yl xh yh
  | setFillColor v => exact Laws.OpcodeField.setFillColor v
  | setTextureImage f z w a => exact Laws.OpcodeField.setTextureImage f z w a

/-- Settles O1: the word carries the command's opcode, and its operands at their places. -/
theorem decodeEncode : Obligations.DecodeEncode := by
  intro i hwf
  rw [decode_encode_cmd, decodeCmd_of_opcode (opcodeOf_encodeCmd i), readFrom_encodeCmd hwf]

end Sys2Proof
end

section
/-! The decoder reads the bits of the opcode and of the fields of its layout, and no other (30_encoding.md R143). -/

namespace Sys2Proof

open Sys2Proof.Machine

theorem opcodeOf_eq_of_masked {c c' m : Dword} (h : c &&& (opcodeMask ||| m) = c' &&& (opcodeMask ||| m)) :
    opcodeOf c = opcodeOf c' := by
  have hwhole : opcodeMask.extractLsb' 56 6 = BitVec.allOnes 6 := rfl
  exact extract_of_masked h 56 6 (by rw [extract_or, hwhole, BitVec.allOnes_or])

/-- Words that agree on the fields of a command's layout give it the same operands (R150 to R160). -/
theorem readFrom_eq_of_masked {c c' : Dword} (i : Instr)
    (h : c &&& (opcodeMask ||| fieldMask i.opcode) = c' &&& (opcodeMask ||| fieldMask i.opcode)) :
    i.readFrom c = i.readFrom c' := by
  cases i with
  | nop | syncLoad | syncPipe | syncTile | syncFull => rfl
  | setConvert | setPrimDepth | setFillColor | setTextureImage =>
    simp only [Instr.opcode] at h
    simp (disch := decide) only [Instr.readFrom, convertOf, widthOf, extract_of_masked h]
  | loadTlut | setTileSize | loadBlock | loadTile | fillRectangle =>
    simp only [Instr.opcode] at h
    simp (disch := decide) only [Instr.readFrom, tileOf, boundsOf, extract_of_masked h]
  | setOtherModes | setTile =>
    simp only [Instr.opcode] at h
    simp (disch := decide) only [Instr.readFrom, modesOf, tileOf, shapeOf, extract_of_masked h, getLsbD_of_masked h]

/-- Settles O2: the words have one opcode; where it is some command's they give it the same operands, and where it is
not both are refused under its name. -/
theorem ignoredBits : Obligations.IgnoredBits := by
  intro c c' h
  have hop : opcodeOf c = opcodeOf c' := opcodeOf_eq_of_masked h
  by_cases hmem : opcodeOf c ∈ commandOpcodes
  · obtain ⟨i, hi⟩ := exists_opcode_eq hmem
    rw [← hi] at h
    rw [decodeCmd_of_opcode hi.symm, decodeCmd_of_opcode (hop.symm.trans hi.symm), readFrom_eq_of_masked i h]
  · rw [decodeCmd_of_unknown c hmem, decodeCmd_of_unknown c' (hop ▸ hmem), hop]

/-- Words that carry the fields of a command's encoding decode to it, whatever their ignored bits (R143). -/
theorem decode_of_fields {w0 w1 : Word} {i : Instr} (hwf : i.wellFormed = true)
    (h : (w0 ++ w1) &&& (opcodeMask ||| fieldMask i.opcode) = encodeCmd i &&& (opcodeMask ||| fieldMask i.opcode)) :
    decode w0 w1 = .ok i := by
  have hop : opcodeOf (w0 ++ w1) = i.opcode := (opcodeOf_eq_of_masked h).trans (opcodeOf_encodeCmd i)
  calc decode w0 w1
    _ = decodeCmd (encodeCmd i) := ignoredBits _ _ (by rwa [hop])
    _ = .ok i := by rw [← decode_encode_cmd, decodeEncode i hwf]

end Sys2Proof

namespace Sys2Proof.Laws

/-- Settles O4: each word carries the fields of the command beside it. (In `Sys2Proof` itself the model's decoder of a
list of words has this name.) -/
theorem decodeWords : Obligations.DecodeWords :=
  ⟨decode_of_fields rfl rfl, decode_of_fields rfl rfl, decode_of_fields rfl rfl, decode_of_fields rfl rfl,
    decode_of_fields rfl rfl, decode_of_fields rfl rfl, decode_of_fields rfl rfl, decode_of_fields rfl rfl⟩

end Sys2Proof.Laws
end

section
/-! The configuration, register and sync commands, each with its whole frame (40_commands.md R180 to R182, R189 to
R197), and their operands read from the two words of the command. -/

namespace Sys2Proof

open Sys2Proof.Machine

/-! ### Operands by the word they stand in (R140) -/

/-- SET_FILL_COLOR takes the second word whole (R156). -/
theorem decode_setFillColor {w0 w1 : Word} (h : opcodeOf (w0 ++ w1) = 0x37) :
    decode w0 w1 = .ok (.setFillColor w1) := by
  have hlow : (w0 ++ w1).extractLsb' 0 32 = w1 := BitVec.extractLsb'_append_eq_right
  rw [decode, decodeCmd_of_opcode (i := .setFillColor 0) h, Instr.readFrom, hlow]

/-- Both operands of SET_PRIM_DEPTH stand in the second word (R158). -/
theorem decode_setPrimDepth {w0 w1 : Word} (h : opcodeOf (w0 ++ w1) = 0x2E) :
    decode w0 w1 = .ok (.setPrimDepth (w1.extractLsb' 16 15) (w1.extractLsb' 0 16)) := by
  rw [decode, decodeCmd_of_opcode (i := .setPrimDepth 0 0) h, Instr.readFrom,
    BitVec.extractLsb'_append_eq_of_add_le (by decide), BitVec.extractLsb'_append_eq_of_add_le (by decide)]

/-- SET_TEXTURE_IMAGE has its address in the second word and the other operands in the first (R157). -/
theorem decode_setTextureImage {w0 w1 : Word} (h : opcodeOf (w0 ++ w1) = 0x3D) :
    decode w0 w1 = .ok (.setTextureImage (w0.extractLsb' 21 3) (w0.extractLsb' 19 2) (widthOf (w0 ++ w1))
      (w1.extractLsb' 0 24)) := by
  have hformat : (w0 ++ w1).extractLsb' 53 3 = w0.extractLsb' 21 3 := BitVec.extractLsb'_append_eq_of_le (by decide)
  have hsize : (w0 ++ w1).extractLsb' 51 2 = w0.extractLsb' 19 2 := BitVec.extractLsb'_append_eq_of_le (by decide)
  have haddress : (w0 ++ w1).extractLsb' 0 24 = w1.extractLsb' 0 24 :=
    BitVec.extractLsb'_append_eq_of_add_le (by decide)
  rw [decode, decodeCmd_of_opcode (i := .setTextureImage 0 0 1 0) h, Instr.readFrom, hformat, hsize, haddress]

/-- A width is its ten-bit field plus one, which eleven bits hold (R142, R157). -/
theorem toNat_widthOf (w0 w1 : Word) : (widthOf (w0 ++ w1)).toNat = (w0.extractLsb' 0 10).toNat + 1 := by
  have hfield : (w0 ++ w1).extractLsb' 32 10 = w0.extractLsb' 0 10 :=
    BitVec.extractLsb'_append_eq_of_le (by decide)
  rw [widthOf, hfield]
  bv_omega

end Sys2Proof

namespace Sys2Proof.Machine

/-! ### The derived convert factors (R46) -/

/-- The factor of a convert constant, the nine bits read as two's complement. -/
theorem convertFactor_eq (k : BitVec 9) :
    convertFactor k = (if k.toNat < 256 then (k.toNat : Int) else k.toNat - 512) * 2 + 1 := by
  rw [convertFactor, BitVec.toInt_eq_toNat_cond]
  split <;> split <;> omega

/-- The factors are the odd numbers of -511..511. -/
theorem convertFactor_range (k : BitVec 9) :
    -511 ≤ convertFactor k ∧ convertFactor k ≤ 511 ∧ convertFactor k % 2 = 1 := by
  have hk := k.isLt
  rw [convertFactor_eq]
  split <;> omega

/-! ### One tile replaced -/

/-- What replacing a tile keeps: the other tiles, and everything but the tiles. -/
theorem State.setTile_frame (s : State) (i : BitVec 3) (t : Tile) :
    (∀ j : BitVec 3, j ≠ i → (s.setTile i t).settings.tile j = s.settings.tile j) ∧
    s.setTile i t = { s with settings := { s.settings with tiles := (s.setTile i t).settings.tiles } } :=
  ⟨fun j hj => Settings.tile_setTile_of_ne s.settings i j t hj, rfl⟩

/-! ### The commands -/

/-- Settles O7: `cfg` is the one register SET_OTHER_MODES configures. -/
theorem setOtherModesWrites : Obligations.SetOtherModesWrites := by
  intro m s
  show Host.Outcome.next (s.configure [.cfg] { s.settings with cfg := m }) = _
  rw [State.configure]

/-- Settles O8: the tile is replaced by itself with the new shape. -/
theorem setTileWrites : Obligations.SetTileWrites := by
  intro i d s
  refine ⟨s.setShape i d, rfl, ?_, State.setTile_frame s i _⟩
  rw [State.setShape_settings, Settings.tile_setTile_same]

/-- Settles O9: the tile is replaced by itself with the new bounds. -/
theorem setTileSizeWrites : Obligations.SetTileSizeWrites := by
  intro i b s
  refine ⟨s.setBounds i b, rfl, ?_, State.setTile_frame s i _⟩
  rw [State.setBounds_settings, Settings.tile_setTile_same]

/-- Settles O10: the operand is the second word, and `fill_color` the one register configured. -/
theorem setFillColorWrites : Obligations.SetFillColorWrites := by
  refine ⟨fun _ _ => decode_setFillColor, fun v s => ?_⟩
  exact ⟨s.configure [.fillColor] { s.settings with fillColor := v }, rfl, rfl⟩

/-- Settles O11: both operands from the second word, and one register configured. -/
theorem setPrimDepthWrites : Obligations.SetPrimDepthWrites := by
  refine ⟨fun _ _ => decode_setPrimDepth, fun z dz s => ?_⟩
  show Host.Outcome.next (s.configure [.primDepth] { s.settings with primZ := z, primDz := dz }) = _
  rw [State.configure]

/-- Settles O12: the constants are one register, and the factors follow from `convertFactor_eq`. -/
theorem setConvertWrites : Obligations.SetConvertWrites := by
  intro k s
  obtain ⟨hleast, hgreatest, hodd⟩ := convertFactor_range k.k0
  refine ⟨?_, hleast, hgreatest, hodd, convertFactor_eq k.k0, by decide, by decide⟩
  show Host.Outcome.next (s.configure [.convert] { s.settings with convert := k }) = _
  rw [State.configure]

/-- Settles O13: the operands from their words, the width by `toNat_widthOf`, and one register configured. -/
theorem setTextureImageWrites : Obligations.SetTextureImageWrites := by
  refine ⟨fun w0 w1 h => ⟨_, decode_setTextureImage h, toNat_widthOf w0 w1⟩, fun f z w a s => ?_⟩
  show Host.Outcome.next (s.configure [.texImage] { s.settings with texImage := ⟨f, z, w, a⟩ }) = _
  rw [State.configure]

/-- Settles O14: each of the four answers the state it was given. -/
theorem syncsChangeNothing : Obligations.SyncsChangeNothing := by
  intro s
  exact ⟨rfl, rfl, rfl, rfl⟩

/-- Settles O15: SYNC_FULL is one `emit`. -/
theorem syncFullNotifies : Obligations.SyncFullNotifies := by
  intro s
  show Host.Outcome.next (s.emit (.fullSync s.cmdIndex)) = _
  rw [State.emit, Ports.emit]

end Sys2Proof.Machine
end

section
/-! The loads (40_commands.md R184 to R186): each writes the bounds of its tile and then runs one load on TMEM and the
ports, or faults; what it reads and stores is said by Laws/Loads for each kind. -/

namespace Sys2Proof.Machine

/-! ### The bounds, then the checked load -/

@[simp] theorem State.tile_setBounds_same (s : State) (i : BitVec 3) (b : TileBounds) :
    (s.setBounds i b).settings.tile i = ⟨(s.settings.tile i).shape, b⟩ :=
  Settings.tile_setTile_same s.settings i _

/-- LOAD_TILE, the tile of its load written out (R184). -/
theorem exec_loadTile (s : State) (i : BitVec 3) (b : TileBounds) :
    exec (.loadTile i b) s = .next ((s.setBounds i b).loadChecked
      (loadTileOrdered s.settings.texImage ⟨(s.settings.tile i).shape, b⟩)) := by
  rw [← State.tile_setBounds_same]
  rfl

/-- LOAD_BLOCK, the tile of its load written out (R185). -/
theorem exec_loadBlock (s : State) (i : BitVec 3) (sl tl sh dxt : BitVec 12) :
    exec (.loadBlock i sl tl sh dxt) s = .next ((s.setBounds i ⟨sl, tl, sh, dxt⟩).loadChecked
      (loadBlockLinear s.settings.texImage ⟨(s.settings.tile i).shape, ⟨sl, tl, sh, dxt⟩⟩ sl tl sh dxt)) := by
  rw [← State.tile_setBounds_same]
  rfl

/-- LOAD_TLUT, the tile of its load written out (R186). -/
theorem exec_loadTlut (s : State) (i : BitVec 3) (b : TileBounds) :
    exec (.loadTlut i b) s = .next ((s.setBounds i b).loadChecked
      (if s.settings.texImage.size = 2 then loadTlutEntries s.settings.texImage ⟨(s.settings.tile i).shape, b⟩
        else loadBankSort s.settings.texImage ⟨(s.settings.tile i).shape, b⟩)) := by
  rw [← State.tile_setBounds_same]
  rfl

/-- `t` is `s` after the bounds of tile `i` are written and the load `f` has run on TMEM and the ports: the tile has its
shape and the new bounds, and nothing else changes (R184 to R186). -/
structure Loaded (s : State) (i : BitVec 3) (b : TileBounds) (f : LoadState → LoadState) (t : State) : Prop where
  tile : t.settings.tile i = ⟨(s.settings.tile i).shape, b⟩
  others : ∀ j : BitVec 3, j ≠ i → t.settings.tile j = s.settings.tile j
  tmem : t.tmem = (f ⟨s.tmem, s.ports⟩).tmem
  ports : t.ports = (f ⟨s.tmem, s.ports⟩).ports
  frame : t = { s with settings := { s.settings with tiles := t.settings.tiles }, tmem := t.tmem, ports := t.ports }

section Loads

variable (s : State) (i : BitVec 3) (b : TileBounds) (f : LoadState → LoadState)

theorem State.setBounds_load_loaded : Loaded s i b f ((s.setBounds i b).load f) where
  tile := State.tile_setBounds_same s i b
  others := fun j hj => Settings.tile_setTile_of_ne s.settings i j _ hj
  tmem := rfl
  ports := rfl
  frame := rfl

/-- A checked load after the bounds, of an image that is not 4-bit, is the load. -/
theorem State.setBounds_loadChecked (h : s.settings.texImage.size ≠ 0) :
    (s.setBounds i b).loadChecked f = (s.setBounds i b).load f :=
  (s.setBounds i b).loadChecked_load f h

/-- A load that changes neither TMEM nor the ports changes nothing. -/
theorem State.load_of_unchanged (h : f ⟨s.tmem, s.ports⟩ = ⟨s.tmem, s.ports⟩) : s.load f = s := by
  rw [State.load, h]

end Loads

/-! ### A load of a 4-bit image -/

/-- Settles O16: the three loads write the same bounds and then raise the same fault. -/
theorem loadsFault : Obligations.LoadsFault := by
  intro s i b hsize
  have hfault (f : LoadState → LoadState) :
      (s.setBounds i b).loadChecked f = raiseConfigFault (s.setBounds i b) .load4Bit :=
    (s.setBounds i b).loadChecked_fault f hsize
  obtain ⟨hothers, _⟩ := State.setTile_frame s i { s.settings.tile i with bounds := b }
  refine ⟨raiseConfigFault (s.setBounds i b) .load4Bit, ?_, ?_, ?_, State.tile_setBounds_same s i b, hothers, rfl, rfl,
    rfl, rfl⟩
  · rw [exec_loadTile, hfault]
  · rw [exec_loadTlut, hfault]
  · rw [exec_loadBlock, hfault]

/-! ### Loads that complete -/

/-- Crossed bounds, as the statements write them (R184). -/
theorem crossedBounds_iff (b : TileBounds) :
    crossedBounds b = true ↔ b.sh.toNat < b.sl.toNat ∨ b.th.toNat < b.tl.toNat := by
  simp [crossedBounds]

/-- LOAD_TILE of crossed bounds loads no texel (R184, log 37). -/
theorem loadTileOrdered_of_crossed (image : TexImage) (tile : Tile) (ls : LoadState)
    (h : crossedBounds tile.bounds = true) : loadTileOrdered image tile ls = ls := if_pos h

/-- What LOAD_TILE leaves of TMEM: every byte where its bounds are crossed, else those outside the texels it stores. -/
theorem tmem8_loadTileOrdered_of_out (image : TexImage) (tile : Tile) (ls : LoadState) (hwf : ls.tmem.wf = true)
    (a : Nat) (h : crossedBounds tile.bounds = true ∨ a % 4096 ∉ tileRectBytes image tile) :
    tmem8 (loadTileOrdered image tile ls).tmem a = tmem8 ls.tmem a := by
  cases hcrossed : crossedBounds tile.bounds with
  | true => rw [loadTileOrdered_of_crossed image tile ls hcrossed]
  | false =>
    rw [loadTileOrdered_of_uncrossed image tile hcrossed]
    exact tmem8_loadTileRect_of_out image tile ls hwf a (h.resolve_left (by simp [hcrossed]))

/-- Settles O17: the load is `loadTileOrdered`, whose runs and bytes are known. -/
theorem loadTileCompletes : Obligations.LoadTileCompletes := by
  intro s i b hsize
  have hload := s.setBounds_load_loaded i b (loadTileOrdered s.settings.texImage ⟨(s.settings.tile i).shape, b⟩)
  refine ⟨_, (exec_loadTile s i b).trans (congrArg _ (s.setBounds_loadChecked i b _ hsize)), hload.tile, hload.others,
    ?ports, fun hwf a ha => ?tmem, hload.frame⟩
  case ports =>
    rw [hload.tile, hload.ports, loadTileOrdered_ports]
    simp only [crossedBounds_iff]
  case tmem =>
    rw [hload.tile, ← crossedBounds_iff] at ha
    rw [hload.tmem]
    exact tmem8_loadTileOrdered_of_out _ ⟨_, b⟩ ⟨s.tmem, s.ports⟩ hwf a ha

/-- Settles O19: the load is `loadBlockLinear`, of one run. -/
theorem loadBlockCompletes : Obligations.LoadBlockCompletes := by
  intro s i sl tl sh dxt hsize
  have hload := s.setBounds_load_loaded i ⟨sl, tl, sh, dxt⟩
    (loadBlockLinear s.settings.texImage ⟨(s.settings.tile i).shape, ⟨sl, tl, sh, dxt⟩⟩ sl tl sh dxt)
  refine ⟨_, (exec_loadBlock s i sl tl sh dxt).trans (congrArg _ (s.setBounds_loadChecked i _ _ hsize)), hload.tile,
    hload.others, hload.ports, fun hwf a ha => ?tmem, hload.frame⟩
  case tmem =>
    rw [hload.tile] at ha
    rw [hload.tmem]
    exact tmem8_loadBlockLinear_of_out _ _ sl tl sh dxt ⟨s.tmem, s.ports⟩ hwf a ha

/-- Settles O21: the load is `loadTlutEntries`, of one run. -/
theorem loadTlutCompletes : Obligations.LoadTlutCompletes := by
  intro s i b hsize
  have hnot4Bit : s.settings.texImage.size ≠ 0 := by rw [hsize]; decide
  have hload := s.setBounds_load_loaded i b (loadTlutEntries s.settings.texImage ⟨(s.settings.tile i).shape, b⟩)
  refine ⟨_, ?runs, hload.tile, hload.others, fun addr n haddr hn => ?events, fun hwf a ha => ?tmem, hload.frame⟩
  case runs => rw [exec_loadTlut, if_pos hsize, s.setBounds_loadChecked i b _ hnot4Bit]
  case events =>
    rw [hload.ports, haddr, hn]
    exact s.ports.readRun_events _ _
  case tmem =>
    rw [hload.tile] at ha
    rw [hload.tmem]
    exact tmem8_loadTlutEntries_of_out _ _ ⟨s.tmem, s.ports⟩ hwf a ha

/-- Settles O23: the load is `loadBankSort`. -/
theorem loadTlutOtherSizes : Obligations.LoadTlutOtherSizes := by
  intro s i b hsize
  have hnot4Bit : s.settings.texImage.size ≠ 0 := by rcases hsize with h | h <;> rw [h] <;> decide
  have hnot16Bit : s.settings.texImage.size ≠ 2 := by rcases hsize with h | h <;> rw [h] <;> decide
  have hload := s.setBounds_load_loaded i b (loadBankSort s.settings.texImage ⟨(s.settings.tile i).shape, b⟩)
  refine ⟨_, ?runs, hload.tile, hload.others, ?tmem, ?ports, hload.frame⟩
  case runs => rw [exec_loadTlut, if_neg hnot16Bit, s.setBounds_loadChecked i b _ hnot4Bit]
  case tmem =>
    rw [hload.tile, hload.tmem]
    rfl
  case ports =>
    rw [hload.tile, hload.ports]
    rfl

/-! ### Loads of no texel -/

/-- An interval of texels in crossed order holds none (R341 to R343). -/
theorem texelCount_of_crossed {lo hi : Nat} (h : hi < lo) : texelCount lo hi = 0 := Nat.sub_eq_zero_of_le h

/-- A palette load of no entry does nothing (R343, R345). -/
theorem loadTlutEntries_of_crossed (image : TexImage) (tile : Tile) (ls : LoadState)
    (h : tile.bounds.sh.toNat / 4 < tile.bounds.sl.toNat / 4) : loadTlutEntries image tile ls = ls := by
  rw [loadTlutEntries, texelCount_of_crossed h]
  rfl

/-- A block load of no texel does nothing (R342, R345). -/
theorem loadBlockLinear_of_crossed (image : TexImage) (tile : Tile) (sl tl sh dxt : BitVec 12) (ls : LoadState)
    (h : sh.toNat < sl.toNat) : loadBlockLinear image tile sl tl sh dxt ls = ls := by
  have hwords : blockWords image sl sh = 0 := by simp [blockWords, texelCount_of_crossed h]
  rw [loadBlockLinear, hwords]
  rfl

/-- Settles O24: after the bounds each load changes neither TMEM nor the ports. -/
theorem emptyLoads : Obligations.EmptyLoads := by
  intro s i b hsize
  refine ⟨fun h => ?tile, fun h h16Bit => ?tlut, fun h => ?block⟩
  case tile =>
    rw [exec_loadTile, s.setBounds_loadChecked i b _ hsize,
      State.load_of_unchanged _ _ (loadTileOrdered_of_crossed _ ⟨_, b⟩ _ ((crossedBounds_iff b).mpr h))]
  case tlut =>
    rw [exec_loadTlut, if_pos h16Bit, s.setBounds_loadChecked i b _ hsize,
      State.load_of_unchanged _ _ (loadTlutEntries_of_crossed _ ⟨_, b⟩ _ h)]
  case block =>
    rw [exec_loadBlock, s.setBounds_loadChecked i _ _ hsize,
      State.load_of_unchanged _ _ (loadBlockLinear_of_crossed _ _ _ _ _ _ _ h)]

end Sys2Proof.Machine
end

section
/-! Drawing commands and primitives (40_commands.md R187, R188): what a valid span entry holds, so that every primitive
completes as `Drawn` says, and the pixels of a fill-mode rectangle. -/

namespace Sys2Proof.Machine

/-! ### The span entries a primitive writes (R232, R234, R235) -/

section Spans

variable (g : Settings) (p : Prim) (y : Nat)

/-- A scanline is valid where the primitive is not empty and a sub-scanline is in range (R232, R242). -/
theorem scanlineValid_iff : scanlineValid g p y = true ↔ rectEmpty p = false ∧ ∃ k, subLineInRange g p y k := by
  simp only [scanlineValid, subLineInRange_iff, Bool.and_eq_true, Bool.not_eq_true',
    List.isEmpty_eq_false_iff_exists_mem]

theorem subScanlines_ne_nil {g : Settings} {p : Prim} {y : Nat} (h : scanlineValid g p y = true) :
    subScanlines g p y ≠ [] := by
  obtain ⟨_, k, hk⟩ := (scanlineValid_iff g p y).mp h
  exact List.ne_nil_of_mem ((subLineInRange_iff g p y k).mp hk)

@[simp] theorem spanEntry_valid (old : SpanBuffer) : (spanEntry g p old y).valid = scanlineValid g p y := by
  cases h : scanlineValid g p y <;> simp [spanEntry, h]

theorem spanEntry_body_of_valid (old : SpanBuffer) (h : scanlineValid g p y = true) :
    (spanEntry g p old y).body = spanBody g p y := by
  simp [spanEntry, h]

theorem spanEntry_body_of_invalid (old : SpanBuffer) (h : scanlineValid g p y = false) :
    (spanEntry g p old y).body = (old.entry y).body := by
  simp [spanEntry, h]

/-- The left bounds stand in `majorx` or `minorx` by the side of the major edge (R234, log 10). -/
theorem spanBody_left (k : Fin 4) :
    (if p.lft then (spanBody g p y).majorx else (spanBody g p y).minorx)[k.val] = (subBounds g p y k).1 := by
  cases h : p.lft <;> simp [spanBody, h]

/-- The right bounds stand on the other side. -/
theorem spanBody_right (k : Fin 4) :
    (if p.lft then (spanBody g p y).minorx else (spanBody g p y).majorx)[k.val] = (subBounds g p y k).2 := by
  cases h : p.lft <;> simp [spanBody, h]

/-- The bounds of a rectangle with whole-pixel corners (R241, log 11). -/
theorem subBounds_of_wholeCorners {p : Prim} {c : Corners} (hc : wholeCorners p = some c) (k : Fin 4) :
    subBounds g p y k = (c.left, if fillOrCopy g.cfg then c.right else c.right - 1) := by
  simp [subBounds, hc]

/-- `lx` is the largest left bound of the sub-scanlines in range, and one of them (R234). -/
theorem spanBody_lx {g : Settings} {p : Prim} {y : Nat} (h : scanlineValid g p y = true) :
    (∃ k, subLineInRange g p y k ∧ (spanBody g p y).lx = (subBounds g p y k).1) ∧
    ∀ k, subLineInRange g p y k → (subBounds g p y k).1 ≤ (spanBody g p y).lx := by
  simp only [subLineInRange_iff]
  obtain ⟨hmem, hle⟩ := maxOf_spec ((subScanlines g p y).map (fun k => (subBounds g p y k).1))
    (by simpa using subScanlines_ne_nil h)
  obtain ⟨k, hk, hlx⟩ := List.mem_map.mp hmem
  exact ⟨⟨k, hk, hlx.symm⟩, fun j hj => hle _ (List.mem_map_of_mem hj)⟩

/-- `rx` is the least right bound of the sub-scanlines in range, and one of them (R234). -/
theorem spanBody_rx {g : Settings} {p : Prim} {y : Nat} (h : scanlineValid g p y = true) :
    (∃ k, subLineInRange g p y k ∧ (spanBody g p y).rx = (subBounds g p y k).2) ∧
    ∀ k, subLineInRange g p y k → (spanBody g p y).rx ≤ (subBounds g p y k).2 := by
  simp only [subLineInRange_iff]
  obtain ⟨hmem, hle⟩ := minOf_spec ((subScanlines g p y).map (fun k => (subBounds g p y k).2))
    (by simpa using subScanlines_ne_nil h)
  obtain ⟨k, hk, hrx⟩ := List.mem_map.mp hmem
  exact ⟨⟨k, hk, hrx.symm⟩, fun j hj => hle _ (List.mem_map_of_mem hj)⟩

/-- The contents of a valid scanline's entry are those of R234, R235 and R241. -/
theorem spanContents_spanBody (h : scanlineValid g p y = true) : SpanContents g p y (spanBody g p y) where
  lx := by simpa only [spanBody_left] using (spanBody_lx h).1
  left := by simpa only [spanBody_left] using (spanBody_lx h).2
  rx := by simpa only [spanBody_right] using (spanBody_rx h).1
  right := by simpa only [spanBody_right] using (spanBody_rx h).2
  shade := fun hoff => by simp [spanBody, gateAttrs, hoff]
  texture := fun hoff => by simp [spanBody, gateAttrs, hoff]
  depth := fun hoff => by simp [spanBody, gateAttrs, hoff]
  rectangle := fun c hc => by
    obtain ⟨⟨j, _, hlx⟩, _⟩ := spanBody_lx h
    obtain ⟨⟨k, _, hrx⟩, _⟩ := spanBody_rx h
    rw [hlx, hrx, subBounds_of_wholeCorners g y hc, subBounds_of_wholeCorners g y hc]
    exact ⟨rfl, rfl⟩

end Spans

/-- The entry of a scanline the walk writes. -/
theorem entry_edgeWalk_of_writes {g : Settings} {p : Prim} {y : Nat} (old : SpanBuffer) (h : writesScanline g p y) :
    (edgeWalk g p old).entry y = spanEntry g p old y := by
  rw [entry_edgeWalk, if_pos ((writesScanline_iff g p y).mp h)]

/-- The edge walk writes the spans of its primitive and no other. -/
theorem spansWritten_edgeWalk (g : Settings) (p : Prim) (old : SpanBuffer) :
    SpansWritten g p old (edgeWalk g p old) where
  kept := fun y hy => by rw [entry_edgeWalk, if_neg (fun hmem => hy ((writesScanline_iff g p y).mpr hmem))]
  valid := fun y hy => by rw [entry_edgeWalk_of_writes old hy, spanEntry_valid, scanlineValid_iff]
  invalid := fun y hy hv => by
    rw [entry_edgeWalk_of_writes old hy] at hv ⊢
    exact spanEntry_body_of_invalid g p y old (by simpa using hv)
  contents := fun y hy hv => by
    rw [entry_edgeWalk_of_writes old hy] at hv ⊢
    rw [spanEntry_valid] at hv
    rw [spanEntry_body_of_valid g p y old hv]
    exact spanContents_spanBody g p y hv
  delta := rfl

theorem State.drawPrim_drawn (s : State) (p : Prim) : Drawn s p (s.drawPrim p) :=
  ⟨rfl, spansWritten_edgeWalk s.settings p s.spans, rfl⟩

/-- Settles O25: the command and the host's entry are both `drawPrim`. -/
theorem drawsComplete : Obligations.DrawsComplete := by
  refine ⟨fun xl yl xh yh s => ⟨_, rfl, s.drawPrim_drawn _⟩, fun s p rest hr hin => ?_⟩
  exact ⟨_, step_of_inbox hr hin, State.drawPrim_drawn { s with inbox := rest } p⟩

/-! ### The pixels of a fill-mode rectangle (R241, R243, R245) -/

/-- A map over rows that is empty on some runs over the others. -/
theorem flatMap_ite_nil {α β : Type} (q : α → Prop) [DecidablePred q] (f : α → List β) (l : List α) :
    l.flatMap (fun a => if q a then f a else []) = (l.filter (fun a => decide (q a))).flatMap f := by
  induction l with
  | nil => rfl
  | cons a rest ih =>
    rw [List.flatMap_cons, List.filter_cons, ih]
    by_cases ha : q a <;> simp [ha]

section FillRectangle

variable {xl yl xh yh : BitVec 12} {g : Settings}

theorem fillOrCopy_of_fill (h : cycleType g.cfg = .fill) : fillOrCopy g.cfg = true := by
  rw [fillOrCopy_eq, h]
  rfl

/-- The columns a fill-mode rectangle fills (R241, R243). -/
def fillColumns (xl xh : BitVec 12) (c : Clip) : List Nat :=
  (List.range 1024).filter (fun x =>
    decide (xh.toNat / 4 ≤ x ∧ x ≤ xl.toNat / 4 ∧ c.xh.toNat / 4 ≤ x ∧ x < c.xl.toNat / 4))

/-- The rows a fill-mode rectangle fills (R241, R243). -/
def fillRows (yl yh : BitVec 12) (c : Clip) : List Nat :=
  (List.range 1024).filter (fun y =>
    decide (yh.toNat / 4 ≤ y ∧ y ≤ yl.toNat / 4 ∧ c.yh.toNat / 4 ≤ y ∧ y < c.yl.toNat / 4))

/-- The lower edge of a fill-mode rectangle (R187). -/
theorem lowerEdge_fillRectangle (hfill : cycleType g.cfg = .fill) (hyl : yl.toNat % 4 = 0) :
    (lowerEdge g.cfg (rectanglePrimitive xh yh xl yl)).yl.toInt = yl.toNat + 3 := by
  rw [lowerEdge, fillOrCopy_of_fill hfill, if_pos rfl]
  exact lowerEdge_toInt yl hyl

/-- The scanlines of a fill-mode rectangle: from its first row to its last, both included (R187, R232). -/
theorem scanlines_fillRectangle (hfill : cycleType g.cfg = .fill) (hyl : yl.toNat % 4 = 0) :
    scanlines g (rectanglePrimitive xh yh xl yl) =
      (List.range 1024).filter (fun y => decide (yh.toNat / 4 ≤ y ∧ y < yl.toNat / 4 + 1)) := by
  have hylt := yl.isLt
  rw [filter_range_interval _ _ _ (by omega)]
  have htop : (rectanglePrimitive xh yh xl yl).yh.toInt = yh.toNat := edge_toInt yh
  have hfirst : (max (asr yh.toNat 2) 0).toNat = yh.toNat / 4 := by
    rw [asr]
    omega
  have hstop : (min (asr (yl.toNat + 3) 2 + 1) (Config.spanCount : Int)).toNat = yl.toNat / 4 + 1 := by
    rw [asr, Config.spanCount]
    omega
  simp only [scanlines, lowerEdge_fillRectangle hfill hyl, htop, hfirst, hstop]

variable (hfill : cycleType g.cfg = .fill) (hxh : xh.toNat % 4 = 0) (hyh : yh.toNat % 4 = 0) (hxl : xl.toNat % 4 = 0)
  (hyl : yl.toNat % 4 = 0)

include hfill hxh hyh hxl hyl

/-- A sub-scanline of a fill-mode rectangle is in range up to the last of the last row (R232, log 12). -/
theorem subLineInRange_fillRectangle (y : Nat) (k : Fin 4) :
    subLineInRange g (rectanglePrimitive xh yh xl yl) y k ↔
      max yh.toNat g.clip.yh.toNat ≤ 4 * y + k.val ∧ 4 * y + k.val < min (yl.toNat + 4) g.clip.yl.toNat := by
  have hend : lowerEnd g (rectanglePrimitive xh yh xl yl) = yl.toNat + 4 := by
    rw [lowerEnd, lowerEdge_fillRectangle hfill hyl, fillOrCopy_of_fill hfill,
      wholeCorners_rectangle xl yl xh yh hxh hyh hxl hyl]
    simp [add_assoc]
  rw [subLineInRange, hend]
  simp only [rectanglePrimitive, edge_toInt]
  omega

/-- A row of a fill-mode rectangle that lies inside the clip rectangle is valid, unless the rectangle is empty. -/
theorem scanlineValid_fillRectangle {y : Nat} (hx : xh.toNat ≤ xl.toNat)
    (hrow : yh.toNat / 4 ≤ y ∧ y < yl.toNat / 4 + 1) (hclip : g.clip.yh.toNat / 4 ≤ y ∧ y < g.clip.yl.toNat / 4) :
    scanlineValid g (rectanglePrimitive xh yh xl yl) y = true := by
  rw [scanlineValid_iff, rectEmpty_rectangle]
  refine ⟨decide_eq_false (by omega), 3, ?_⟩
  rw [subLineInRange_fillRectangle hfill hxh hyh hxl hyl]
  show _ ≤ 4 * y + 3 ∧ 4 * y + 3 < _
  omega

/-- The pixels of one row of a fill-mode rectangle: its columns in increasing x where the row lies inside the clip
rectangle, and none elsewhere. -/
theorem spanPixels_fillRectangle (b : SpanBuffer) {y : Nat} (hrow : yh.toNat / 4 ≤ y ∧ y < yl.toNat / 4 + 1) :
    (spanPixels g (rectanglePrimitive xh yh xl yl) y (spanEntry g (rectanglePrimitive xh yh xl yl) b y)).map
        (fun q => (q.x, q.y, q.mask)) =
      if g.clip.yh.toNat / 4 ≤ y ∧ y < g.clip.yl.toNat / 4 then
        (fillColumns xl xh g.clip).map (fun x => (BitVec.ofNat 10 x, BitVec.ofNat 10 y, 0xFF))
      else [] := by
  cases hv : scanlineValid g (rectanglePrimitive xh yh xl yl) y with
  | true =>
    have hxlt := xl.isLt
    have hlast : (if fillOrCopy g.cfg then ((xl.toNat / 4 : Nat) : Int) else ((xl.toNat / 4 : Nat) : Int) - 1) =
        ((xl.toNat / 4 + 1 : Nat) : Int) - 1 := by
      rw [fillOrCopy_of_fill hfill, if_pos rfl]
      omega
    obtain ⟨xs, _, hxs, hpixels⟩ := spanPixels_wholeCorners g _ y b _
      (wholeCorners_rectangle xl yl xh yh hxh hyh hxl hyl) (xh.toNat / 4) (xl.toNat / 4 + 1) rfl hlast (by omega) hv
    have hrising : risingOrder g (rectanglePrimitive xh yh xl yl) = true := by
      rw [risingOrder, hfill]
      rfl
    rw [hpixels, hxs hrising]
    split
    · next hclip =>
      refine congrArg _ (List.filter_congr (fun x _ => ?_))
      simp only [insideClip, Bool.and_eq_true, decide_eq_true_eq, decide_eq_decide]
      omega
    · next hclip =>
      refine List.map_eq_nil_iff.mpr (List.filter_eq_nil_iff.mpr (fun x _ => ?_))
      simp only [insideClip, Bool.and_eq_true, decide_eq_true_eq]
      omega
  | false =>
    rw [spanPixels_invalid _ _ _ _ hv, List.map_nil]
    split
    · next hclip =>
      have hempty : xl.toNat < xh.toNat := by
        by_contra hx
        rw [scanlineValid_fillRectangle hfill hxh hyh hxl hyl (by omega) hrow hclip] at hv
        cases hv
      refine (List.map_eq_nil_iff.mpr (List.filter_eq_nil_iff.mpr (fun x _ => ?_))).symm
      simp only [decide_eq_true_eq]
      omega
    · rfl

/-- The pixels of a fill-mode rectangle: row by row, each in increasing x (R241, R243, R245). -/
theorem primPixels_fillRectangle (b : SpanBuffer) :
    (primPixels g (rectanglePrimitive xh yh xl yl) b).map (fun q => (q.x, q.y, q.mask)) =
      (fillRows yl yh g.clip).flatMap (fun y =>
        (fillColumns xl xh g.clip).map (fun x => (BitVec.ofNat 10 x, BitVec.ofNat 10 y, 0xFF))) := by
  rw [primPixels, List.map_flatMap, scanlines_fillRectangle hfill hyl,
    List.flatMap_congr (fun y hy => spanPixels_fillRectangle hfill hxh hyh hxl hyl b
    (of_decide_eq_true (List.mem_filter.mp hy).2)), flatMap_ite_nil, List.filter_filter]
  refine congrArg (List.flatMap _) (List.filter_congr (fun y _ => ?_))
  simp only [← Bool.decide_and, decide_eq_decide]
  omega

end FillRectangle

/-- Settles O26: in fill mode the events are one `FbFill` per pixel (`drawPixels_fill`), and the pixels are those of
`primPixels_fillRectangle`. -/
theorem fillModeRectangle : Obligations.FillModeRectangle := by
  intro xl yl xh yh s hfill hxh hyh hxl hyl
  have hdraw := drawPixels_fill s.settings s.tmem (rectanglePrimitive xh yh xl yl)
    (primPixels s.settings (rectanglePrimitive xh yh xl yl) s.spans) ⟨s.regs, s.ports⟩ hfill
  have hevents := congrArg (List.map (fun q => Event.fbFill q.1 q.2.1 s.settings.fillColor))
    (primPixels_fillRectangle hfill hxh hyh hxl hyl s.spans)
  rw [List.map_map, List.map_flatMap] at hevents
  simp only [List.map_map] at hevents
  refine ⟨s.drawPrim (rectanglePrimitive xh yh xl yl), rfl, ?ports, ?frame⟩
  case ports =>
    rw [State.drawPrim_ports, hdraw]
    exact congrArg (fun new => { s.ports with events := s.ports.events ++ new }) hevents
  case frame =>
    have hregs : (s.drawPrim (rectanglePrimitive xh yh xl yl)).regs = s.regs := by rw [State.drawPrim_regs, hdraw]
    rw [(s.drawPrim_drawn _).frame, hregs]

end Sys2Proof.Machine
end

section
/-! The pixels of a primitive (41_edge_walker.md R242, R243, R249) and of a rectangle in the 1-cycle and 2-cycle types
(R241, R245). -/

namespace Sys2Proof.Machine

/-! ### Pixels lie inside the clip rectangle (R243) -/

/-- A pixel inside the clip rectangle keeps its coordinates in the ten bits the stages get. -/
theorem pixelIn_insideClip {g : Settings} {x : Int} {y : Nat} (h : insideClip g.clip x y = true) (p : Prim)
    (body : SpanBody) (xstart : Int) (next? : Option Int) :
    ((pixelIn g p y body xstart x next?).x.toNat : Int) = x ∧ (pixelIn g p y body xstart x next?).y.toNat = y := by
  have hxl := g.clip.xl.isLt
  have hyl := g.clip.yl.isLt
  simp only [insideClip, Bool.and_eq_true, decide_eq_true_eq] at h
  simp only [pixelIn, BitVec.toNat_ofInt, BitVec.toNat_ofNat]
  omega

/-- A span entry of the walk has pixels only where its scanline is valid and meets the clip rectangle (R232, R243). -/
theorem mem_spanPixels {g : Settings} {p : Prim} {y : Nat} {b : SpanBuffer} {pin : PixelIn}
    (h : pin ∈ spanPixels g p y (spanEntry g p b y)) :
    scanlineValid g p y = true ∧ ∃ x : Int, insideClip g.clip x y = true := by
  rw [spanPixels, spanEntry_valid] at h
  split at h
  · next hv =>
    obtain ⟨x, _, hclip, _⟩ := mem_orderedPixels h
    exact ⟨hv, x, hclip⟩
  · exact absurd h List.not_mem_nil

/-- Settles O29: `orderedPixels` hands on the pixels inside the clip rectangle only, and these keep their coordinates. -/
theorem pixelsInsideClip : Obligations.PixelsInsideClip := by
  intro g p b pin hpin
  obtain ⟨y, body, xstart, x, next?, _, _, hclip, rfl⟩ := mem_primPixels hpin
  obtain ⟨hx, hy⟩ := pixelIn_insideClip hclip p body xstart next?
  simp only [insideClip, Bool.and_eq_true, decide_eq_true_eq] at hclip
  omega

/-! ### Fill mode (R249) -/

/-- Settles O30: `drawPixels_fill`, for the pixels of any primitive. -/
theorem fillModePrimitive : Obligations.FillModePrimitive := by
  intro s p hfill
  rw [State.drawPrim_regs, State.drawPrim_ports, drawPixels_fill _ _ _ _ _ hfill]
  exact ⟨rfl, rfl⟩

/-! ### Empty rectangles (R242) -/

theorem scanlineValid_of_rectEmpty {p : Prim} (h : rectEmpty p = true) (g : Settings) (y : Nat) :
    scanlineValid g p y = false := by
  simp [scanlineValid, h]

theorem primPixels_of_rectEmpty {p : Prim} (h : rectEmpty p = true) (g : Settings) (old : SpanBuffer) :
    primPixels g p old = [] :=
  List.flatMap_eq_nil_iff.mpr (fun y _ => spanPixels_invalid g p y old (scanlineValid_of_rectEmpty h g y))

/-- Drawing an empty rectangle changes the span buffer only. -/
theorem State.drawPrim_of_rectEmpty {p : Prim} (h : rectEmpty p = true) (s : State) :
    s.drawPrim p = { s with spans := edgeWalk s.settings p s.spans } := by
  rw [State.drawPrim, primPixels_of_rectEmpty h]
  rfl

/-- Settles O28: no scanline of the rectangle is valid, so it has no pixels and its entries keep their contents. -/
theorem emptyRectangle : Obligations.EmptyRectangle := by
  intro xl yl xh yh s hcrossed
  have hempty : rectEmpty (rectanglePrimitive xh yh xl yl) = true := by
    rw [rectEmpty_rectangle]
    exact decide_eq_true hcrossed
  refine ⟨s.drawPrim (rectanglePrimitive xh yh xl yl), rfl, fun y hy => ?written, fun y hy => ?others, ?frame⟩
  case written =>
    have hinvalid := scanlineValid_of_rectEmpty hempty s.settings y
    rw [State.drawPrim_spans, entry_edgeWalk, if_pos hy]
    exact ⟨(spanEntry_valid _ _ _ _).trans hinvalid, spanEntry_body_of_invalid _ _ _ _ hinvalid⟩
  case others => rw [State.drawPrim_spans, entry_edgeWalk, if_neg hy]
  case frame => rw [State.drawPrim_of_rectEmpty hempty]

/-! ### Rectangles in the 1-cycle and 2-cycle types (R241, R245) -/

section CycleRectangle

variable {xl yl xh yh : BitVec 12} {g : Settings}

/-- The columns a rectangle draws in the 1-cycle and 2-cycle types (R241, R243). -/
def cycleColumns (xl xh : BitVec 12) (c : Clip) : List Nat :=
  (List.range 1024).filter (fun x =>
    decide (xh.toNat / 4 ≤ x ∧ x < xl.toNat / 4 ∧ c.xh.toNat / 4 ≤ x ∧ x < c.xl.toNat / 4))

/-- `y` is a row a rectangle draws in the 1-cycle and 2-cycle types (R241, R243). -/
abbrev IsCycleRow (yl yh : BitVec 12) (c : Clip) (y : Nat) : Prop :=
  yh.toNat / 4 ≤ y ∧ y < yl.toNat / 4 ∧ c.yh.toNat / 4 ≤ y ∧ y < c.yl.toNat / 4

/-- On a row a rectangle draws, its columns inside the clip rectangle are those it draws. -/
theorem filter_insideClip_of_isCycleRow {c : Clip} {y : Nat} (hrow : IsCycleRow yl yh c y) :
    (List.range 1024).filter (fun x : Nat =>
      decide ((xh.toNat / 4 ≤ x ∧ x < xl.toNat / 4) ∧ insideClip c x y = true)) = cycleColumns xl xh c := by
  refine List.filter_congr (fun x _ => ?_)
  simp only [insideClip, Bool.and_eq_true, decide_eq_true_eq, decide_eq_decide]
  omega

theorem cycleColumns_eq_nil (c : Clip) (hcrossed : xl.toNat < xh.toNat) : cycleColumns xl xh c = [] := by
  refine List.filter_eq_nil_iff.mpr (fun x _ => ?_)
  simp only [decide_eq_true_eq]
  omega

theorem fillOrCopy_of_one_or_two (h : cycleType g.cfg = .one ∨ cycleType g.cfg = .two) : fillOrCopy g.cfg = false := by
  rw [fillOrCopy_eq]
  rcases h with h | h <;> rw [h] <;> rfl

/-- The rows a rectangle draws are among the scanlines it writes (R232). -/
theorem filter_scanlines_cycleRectangle (hcyc : fillOrCopy g.cfg = false) :
    (scanlines g (rectanglePrimitive xh yh xl yl)).filter (fun y => decide (IsCycleRow yl yh g.clip y)) =
      (List.range 1024).filter (fun y => decide (IsCycleRow yl yh g.clip y)) := by
  have hyllt := yl.isLt
  have hscan : scanlines g (rectanglePrimitive xh yh xl yl) =
      (List.range 1024).filter (fun y => decide (yh.toNat / 4 ≤ y ∧ y < yl.toNat / 4 + 1)) := by
    have hfirst : (max (asr yh.toNat 2) 0).toNat = yh.toNat / 4 := by
      rw [asr]
      omega
    have hstop : (min (asr yl.toNat 2 + 1) (Config.spanCount : Int)).toNat = yl.toNat / 4 + 1 := by
      rw [asr, Config.spanCount]
      omega
    rw [filter_range_interval _ _ _ (by omega)]
    simp only [scanlines, lowerEdge, hcyc, Bool.false_eq_true, if_false, rectanglePrimitive, edge_toInt, hfirst, hstop]
  rw [hscan, List.filter_filter]
  refine List.filter_congr (fun y _ => ?_)
  simp only [← Bool.decide_and, decide_eq_decide]
  omega

/-- A sub-scanline of a rectangle is in range above the rectangle's lower edge (R232). -/
theorem subLineInRange_cycleRectangle (hcyc : fillOrCopy g.cfg = false) (y : Nat) (k : Fin 4) :
    subLineInRange g (rectanglePrimitive xh yh xl yl) y k ↔
      max yh.toNat g.clip.yh.toNat ≤ 4 * y + k.val ∧ 4 * y + k.val < min yl.toNat g.clip.yl.toNat := by
  simp only [subLineInRange, lowerEnd, lowerEdge, hcyc, Bool.false_eq_true, if_false, Bool.false_and, rectanglePrimitive,
    edge_toInt]
  omega

/-- A row a rectangle draws is valid, unless the rectangle has no column (R232, R242). -/
theorem scanlineValid_of_isCycleRow (hcyc : fillOrCopy g.cfg = false) {y : Nat} (hx : xh.toNat ≤ xl.toNat)
    (hrow : IsCycleRow yl yh g.clip y) : scanlineValid g (rectanglePrimitive xh yh xl yl) y = true := by
  rw [scanlineValid_iff, rectEmpty_rectangle]
  refine ⟨decide_eq_false (by omega), 3, ?_⟩
  rw [subLineInRange_cycleRectangle hcyc]
  show _ ≤ 4 * y + 3 ∧ 4 * y + 3 < _
  omega

/-- A valid row is one the rectangle draws, where it lies inside the clip rectangle (R232, R241). -/
theorem isCycleRow_of_scanlineValid (hcyc : fillOrCopy g.cfg = false) (hyl : yl.toNat % 4 = 0) {y : Nat} {x : Int}
    (hv : scanlineValid g (rectanglePrimitive xh yh xl yl) y = true) (hclip : insideClip g.clip x y = true) :
    IsCycleRow yl yh g.clip y := by
  obtain ⟨_, k, hk⟩ := (scanlineValid_iff _ _ _).mp hv
  rw [subLineInRange_cycleRectangle hcyc] at hk
  simp only [insideClip, Bool.and_eq_true, decide_eq_true_eq] at hclip
  have hklt := k.isLt
  omega

variable (hcyc : fillOrCopy g.cfg = false) (hxh : xh.toNat % 4 = 0) (hyh : yh.toNat % 4 = 0) (hxl : xl.toNat % 4 = 0)
  (hyl : yl.toNat % 4 = 0)

include hcyc hxh hyh hxl hyl

/-- The pixels of one scanline of a rectangle: its columns, each once, where the rectangle draws the row, and none
elsewhere; in increasing x in the 1-cycle type (log 11). -/
theorem spanPixels_cycleRectangle (b : SpanBuffer) (y : Nat) :
    ∃ xs : List Nat, xs.Perm (cycleColumns xl xh g.clip) ∧
      (cycleType g.cfg = .one → xs = cycleColumns xl xh g.clip) ∧
      (spanPixels g (rectanglePrimitive xh yh xl yl) y (spanEntry g (rectanglePrimitive xh yh xl yl) b y)).map
          (fun q => (q.x, q.y, q.mask)) =
        if IsCycleRow yl yh g.clip y then xs.map (fun x => (BitVec.ofNat 10 x, BitVec.ofNat 10 y, 0xFF)) else [] := by
  have hcorners := wholeCorners_rectangle xl yl xh yh hxh hyh hxl hyl
  by_cases hdrawn : scanlineValid g (rectanglePrimitive xh yh xl yl) y = true ∧ IsCycleRow yl yh g.clip y
  case pos =>
    obtain ⟨hv, hrow⟩ := hdrawn
    have hxllt := xl.isLt
    obtain ⟨xs, hperm, hrising, hpixels⟩ := spanPixels_wholeCorners g _ y b _ hcorners (xh.toNat / 4) (xl.toNat / 4) rfl
      (by rw [hcyc]; rfl) (by omega) hv
    rw [filter_insideClip_of_isCycleRow hrow] at hperm hrising
    refine ⟨xs, hperm, fun hone => hrising ?_, by rw [if_pos hrow, hpixels]⟩
    rw [risingOrder, hone, hcorners]
    rfl
  case neg =>
    have hnone : spanPixels g (rectanglePrimitive xh yh xl yl) y
        (spanEntry g (rectanglePrimitive xh yh xl yl) b y) = [] := by
      refine List.eq_nil_iff_forall_not_mem.mpr (fun pin hpin => hdrawn ?_)
      obtain ⟨hv, x, hclip⟩ := mem_spanPixels hpin
      exact ⟨hv, isCycleRow_of_scanlineValid hcyc hyl hv hclip⟩
    refine ⟨cycleColumns xl xh g.clip, .refl _, fun _ => rfl, ?_⟩
    rw [hnone, List.map_nil]
    split
    · next hrow =>
      have hcrossed : xl.toNat < xh.toNat := by
        by_contra hx
        exact hdrawn ⟨scanlineValid_of_isCycleRow hcyc (by omega) hrow, hrow⟩
      rw [cycleColumns_eq_nil g.clip hcrossed, List.map_nil]
    · rfl

end CycleRectangle

/-- Settles O27: the orders of `spanPixels_cycleRectangle`, row by row. -/
theorem cycleRectanglePixels : Obligations.CycleRectanglePixels := by
  intro xl yl xh yh g b htype hxh hyh hxl hyl columns hcolumns
  rw [show columns = cycleColumns xl xh g.clip from hcolumns]
  have hcyc := fillOrCopy_of_one_or_two htype
  choose order hperm hrising hpixels using spanPixels_cycleRectangle hcyc hxh hyh hxl hyl b
  refine ⟨order, hperm, fun hone y => hrising y hone, ?_⟩
  rw [primPixels, List.map_flatMap, List.flatMap_congr (fun y _ => hpixels y), flatMap_ite_nil,
    filter_scanlines_cycleRectangle hcyc]

end Sys2Proof.Machine
end

section
/-! The perspective divide as the stages call it (42_texcoord.md R260 to R267): which axis function `texDivide` runs for each
setting and each sign of W, and what each answers. -/

namespace Sys2Proof.Machine

/-! ### Without perspective (R266, R267) -/

theorem texDivide_of_noPersp {m : OtherModes} (h : m.perspTexEn = false) (p : TexPoint) :
    texDivide m p = (tcNoDivAxis p.ss, tcNoDivAxis p.st) := by
  rw [texDivide, h]
  rfl

/-- Code 0 stands above the sign-extended coordinate (R266). -/
theorem tcNoDivAxis_eq_append (c : Half) : tcNoDivAxis c = 0#2 ++ c.signExtend 17 := by
  rw [tcNoDivAxis, BitVec.setWidth_eq_append (by decide)]
  rfl

theorem satCode_tcNoDivAxis (c : Half) : satCode (tcNoDivAxis c) = 0 := by
  rw [tcNoDivAxis_eq_append, satCode_append]
  rfl

theorem getLsbD_tcNoDivAxis (c : Half) (i : Nat) :
    (tcNoDivAxis c).getLsbD i = (decide (i < 17) && if i < 16 then c.getLsbD i else c.msb) := by
  rw [tcNoDivAxis_eq_append, BitVec.getLsbD_append, BitVec.getLsbD_signExtend, BitVec.getLsbD_zero]
  by_cases hi : i < 17 <;> simp [hi]

/-- The two bits R267 compares are copies of the coordinate's sign, so they never ask for a saturation. -/
theorem signBits_tcNoDivAxis (c : Half) : (tcNoDivAxis c).extractLsb' 15 2 = if c.msb then 3 else 0 := by
  have hbit : ∀ i < 2, ((tcNoDivAxis c).extractLsb' 15 2).getLsbD i = c.msb := by
    intro i hi
    rw [BitVec.getLsbD_extractLsb', getLsbD_tcNoDivAxis]
    obtain rfl | rfl : i = 0 ∨ i = 1 := by omega
    · simp [BitVec.msb_eq_getLsbD_last]
    · simp
  refine BitVec.eq_of_getLsbD_eq (fun i hi => ?_)
  rw [hbit i hi]
  obtain rfl | rfl : i = 0 ∨ i = 1 := by omega
  all_goals cases c.msb <;> rfl

theorem sat16_tcNoDivAxis (c : Half) : sat16 (tcNoDivAxis c) = c := by
  have hover : (tcNoDivAxis c).getLsbD 18 = false := by rw [getLsbD_tcNoDivAxis]; rfl
  have hunder : (tcNoDivAxis c).getLsbD 17 = false := by rw [getLsbD_tcNoDivAxis]; rfl
  have hlow : (tcNoDivAxis c).extractLsb' 0 16 = c := by
    refine BitVec.eq_of_getLsbD_eq (fun i hi => ?_)
    rw [BitVec.getLsbD_extractLsb', getLsbD_tcNoDivAxis]
    simp [hi, show i < 17 by omega]
  rw [sat16, hover, hunder, signBits_tcNoDivAxis, hlow]
  cases c.msb <;> rfl

/-- Settles O34, axis by axis. -/
theorem noPerspectivePassThrough : Obligations.NoPerspectivePassThrough := by
  intro m p h
  rw [texDivide_of_noPersp h p]
  exact ⟨sat16_tcNoDivAxis _, sat16_tcNoDivAxis _, satCode_tcNoDivAxis _, satCode_tcNoDivAxis _,
    fun w => texDivide_of_noPersp h ⟨p.ss, p.st, w⟩⟩

/-! ### With perspective (R264, R265) -/

/-- A W that is not positive carries the overflow bit into both axes (R264). -/
theorem texDivide_of_nonpos {m : OtherModes} (h : m.perspTexEn = true) {p : TexPoint} (hw : p.sw.toInt ≤ 0) :
    texDivide m p = (tcDivAxis (tcdivEntry (p.sw.toNat % 0x8000)) true p.ss,
      tcDivAxis (tcdivEntry (p.sw.toNat % 0x8000)) true p.st) := by
  rw [texDivide, h, if_pos rfl, tcDivPersp, decide_eq_true hw]

/-- A positive W indexes the table itself, and nothing is carried (R264). -/
theorem texDivide_of_pos {m : OtherModes} (h : m.perspTexEn = true) {p : TexPoint} (hw : 0 < p.sw.toInt) :
    texDivide m p = (tcDivAxis (tcdivEntry p.sw.toNat) false p.ss, tcDivAxis (tcdivEntry p.sw.toNat) false p.st) := by
  have hindex : p.sw.toNat % 0x8000 = p.sw.toNat := by
    rw [BitVec.toInt_eq_toNat_cond] at hw
    omega
  rw [texDivide, h, if_pos rfl, tcDivPersp, decide_eq_false (not_le.mpr hw), hindex]

/-- The carried bit is bit 1 of the code, whatever the product (R264, R265). -/
theorem satCode_tcDivAxis_carry (entry : Int) (c : Half) : (satCode (tcDivAxis entry true c)).getLsbD 1 = true := by
  rw [tcDivAxis, satCode_append, if_pos rfl, BitVec.getLsbD_ofNat, Nat.testBit_or, show Nat.testBit 2 1 = true from rfl,
    Bool.or_true]
  rfl

/-- Settles O35: the carried bit for a W that is not positive, and `tcDivAxis_spec` on the axis in question otherwise. -/
theorem perspectiveOverflowCode : Obligations.PerspectiveOverflowCode := by
  intro m p h
  refine ⟨fun hw => ?nonpos, fun coord out prod bound shift hw haxis hprod hshift hbound hlow hhigh => ?pos⟩
  case nonpos =>
    rw [texDivide_of_nonpos h hw]
    exact ⟨satCode_tcDivAxis_carry _ _, satCode_tcDivAxis_carry _ _⟩
  case pos =>
    have hle : shift ≤ 14 := by
      rw [hshift, tcdivEntry_shift]
      exact tcdivShift_le _
    have hout : out = tcDivAxis (tcdivEntry p.sw.toNat) false coord := by
      rw [texDivide_of_pos h hw] at haxis
      obtain haxis | haxis := haxis <;> (obtain ⟨rfl, rfl⟩ := Prod.mk.inj haxis; rfl)
    rw [hout, hbound]
    exact ⟨hle, tcDivAxis_spec _ _ shift hshift.symm hle prod hprod hlow hhigh⟩

end Sys2Proof.Machine
end

section
/-! The tile coordinate mapper on one axis (42_texcoord.md R272 to R279): the clamp on the range of a shifted coordinate, and
the bound of the mask. -/

namespace Sys2Proof.Machine

/-! ### Mask (R275, R276) -/

/-- The mask table keeps the low `m` bits, and at most ten (R275). -/
theorem maskBits_lt {m : Nat} (h0 : 0 < m) (h15 : m ≤ 15) : maskBits m < 2 ^ m ∧ maskBits m < 1024 := by
  have hshift : 0xffff >>> (16 - m) < 2 ^ m := by
    rw [Nat.shiftRight_eq_div_pow, Nat.div_lt_iff_lt_mul (by positivity), ← pow_add, Nat.add_sub_cancel' (by omega)]
    decide
  rw [maskBits, if_neg (by omega)]
  exact ⟨Nat.and_le_left.trans_lt hshift, Nat.lt_succ_of_le Nat.and_le_right⟩

/-- A masked coordinate is at most the mask, mirrored or not (R276). -/
theorem wrapCoord_le_maskBits {ax : TileAxis} (h : ax.mask ≠ 0) (s : Int) : wrapCoord ax s ≤ maskBits ax.mask := by
  rw [wrapCoord, if_pos h]
  exact Int.ofNat_le.mpr Nat.and_le_right

theorem wrapCoord_of_unmasked {ax : TileAxis} (h : ax.mask = 0) (s : Int) : wrapCoord ax s = s :=
  if_neg (not_not.mpr h)

theorem mapShifted_fst (ax : TileAxis) (c : Int) :
    (mapShifted ax c).1 = (wrapCoord ax (clampCoord ax c).1).toNat := rfl

/-- Settles O37: the texel coordinate is at most the mask of `maskBits_lt`. -/
theorem wrapBound : Obligations.WrapBound := by
  intro ax c h0 h15
  obtain ⟨hpow, hten⟩ := maskBits_lt h0 h15
  have hle : (mapShifted ax c).1 ≤ maskBits ax.mask := by
    rw [mapShifted_fst, Int.toNat_le]
    exact wrapCoord_le_maskBits (by omega) _
  exact ⟨hle.trans_lt hpow, hle.trans_lt hten⟩

/-! ### Clamp (R272 to R274) -/

/-- Bit `n` of a value between `-2^n` and `2^n` is its sign (R11). -/
theorem bit_iff_neg {n : Nat} {v : Int} (hlow : -((2 ^ n : Nat) : Int) ≤ v) (hhigh : v < ((2 ^ n : Nat) : Int)) :
    bit n v = true ↔ v < 0 := by
  have hpos : (0 : Int) < ((2 ^ n : Nat) : Int) := by positivity
  rw [bit, asr, decide_eq_true_iff]
  by_cases hv : v < 0
  · have hquot : v / ((2 ^ n : Nat) : Int) = -1 := by
      rw [Int.ediv_eq_iff_of_pos hpos]
      omega
    exact iff_of_true (by rw [hquot]; rfl) hv
  · rw [Int.ediv_eq_zero_of_lt (by omega) hhigh]
    exact iff_of_false (by decide) hv

/-- Where clamping is on, bit 16 of the relative coordinate tells a coordinate below the low bound, and the low bound is
tested first (R272 to R274). -/
theorem clampCoord_of_clampEn {ax : TileAxis} (hen : ax.clampEn = true) {c : Int} (hlow : -32768 ≤ c) (hhigh : c ≤ 32767)
    (hlo : ax.lo < 4096) :
    (clampCoord ax c).1 =
      if c / 8 < ax.lo then 0 else if (ax.hi : Int) ≤ c / 8 then (ax.clampDiff : Int) else (c - 8 * ax.lo) / 32 := by
  have hsign : bit 16 (c - ax.lo * 8) = true ↔ c / 8 < ax.lo := by
    rw [bit_iff_neg (by norm_num; omega) (by norm_num; omega)]
    omega
  simp only [clampCoord, hen, if_true, hsign, show asr c 3 = c / 8 from rfl]
  by_cases hbelow : c / 8 < ax.lo
  · rw [if_pos hbelow, if_pos hbelow]
  rw [if_neg hbelow, if_neg hbelow]
  by_cases hbeyond : (ax.hi : Int) ≤ c / 8
  · rw [if_pos (decide_eq_true hbeyond), if_pos hbeyond]
  · rw [if_neg (by rwa [decide_eq_true_iff]), if_neg hbeyond, mul_comm 8]
    rfl

/-- Settles O36: with no mask the texel coordinate is the clamped one. -/
theorem clampProperty : Obligations.ClampProperty := by
  intro ax c hmask hen hlow hhigh hlo
  rw [mapShifted_fst, wrapCoord_of_unmasked hmask, clampCoord_of_clampEn hen hlow hhigh hlo]
  refine ⟨fun hin hbelow => ?inside, fun hin hbeyond => ?beyond, fun hout => ?left⟩
  case inside =>
    rw [if_neg (not_lt.mpr hin), if_neg (not_le.mpr hbelow)]
    omega
  case beyond => rw [if_neg (not_lt.mpr hin), if_pos hbeyond, Int.toNat_natCast]
  case left => rw [if_pos hout, Int.toNat_zero]

end Sys2Proof.Machine
end

section
/-! What the loads leave in TMEM (43_tmem_fetch.md R341 to R344): each stores its texels, words or entries one after the
other, so a place reads what was stored there last. -/

namespace Sys2Proof.Machine

/-! ### Stores in order -/

/-- Where the steps of a fold after step `k` keep a view, the view of the whole fold is the view right after step `k`. -/
theorem view_foldl_range {α β : Type} {P : α → Prop} {f : α → Nat → α} (hf : ∀ a i, P a → P (f a i)) (view : α → β)
    {n k : Nat} (hk : k < n) (hlater : ∀ a i, P a → k < i → i < n → view (f a i) = view a) {a : α} (ha : P a) :
    view ((List.range n).foldl f a) = view (f ((List.range k).foldl f a) k) := by
  induction n, Nat.succ_le_of_lt hk using Nat.le_induction with
  | base => rw [List.range_succ, List.foldl_append]; rfl
  | succ n hkn ih =>
    rw [List.range_succ, List.foldl_append, List.foldl_cons, List.foldl_nil,
      hlater _ n (foldl_keeps P f hf a _ ha) hkn (Nat.lt_succ_self n)]
    exact ih hkn (fun b i hb hki hin => hlater b i hb hki (Nat.lt_succ_of_lt hin))

/-- `store n k bs m` runs `n` steps from step `k` on, each on the next `c` bytes of `bs`: the shape of `storeRow`,
`storeBlock` and `storeEntries`. The steps keep the canonical form of TMEM. -/
structure StoresInOrder (c : Nat) (step : Nat → List Byte → Memory → Memory)
    (store : Nat → Nat → List Byte → Memory → Memory) : Prop where
  zero : ∀ k bs m, store 0 k bs m = m
  succ : ∀ n k bs m, store (n + 1) k bs m = store n (k + 1) (bs.drop c) (step k (bs.take c) m)
  wf : ∀ k bs m, m.wf = true → (step k bs m).wf = true

section InOrder

variable {c : Nat} {step : Nat → List Byte → Memory → Memory} {store : Nat → Nat → List Byte → Memory → Memory}

theorem StoresInOrder.eq_foldl (h : StoresInOrder c step store) (n k : Nat) (bs : List Byte) (m : Memory) :
    store n k bs m = (List.range n).foldl (fun m i => step (k + i) ((bs.drop (i * c)).take c) m) m := by
  induction n generalizing k bs m with
  | zero => exact h.zero k bs m
  | succ n ih =>
    rw [h.succ, ih, List.range_succ_eq_map, List.foldl_cons, List.foldl_map, Nat.zero_mul, List.drop_zero]
    simp only [List.drop_drop, Nat.succ_eq_add_one, Nat.add_mul, Nat.one_mul, Nat.add_comm c, Nat.add_assoc k,
      Nat.add_comm 1, Nat.add_zero]

/-- What step `k` leaves of a view stays, where the later steps keep the view. -/
theorem StoresInOrder.view_eq (h : StoresInOrder c step store) {β : Type} (view : Memory → β) {n k : Nat} (hk : k < n)
    {bs : List Byte} {m : Memory} (hm : m.wf = true) {x : β}
    (hstored : ∀ m, m.wf = true → view (step k ((bs.drop (k * c)).take c) m) = x)
    (hlater : ∀ m i bs, m.wf = true → k < i → i < n → view (step i bs m) = view m) :
    view (store n 0 bs m) = x := by
  have hwf : ∀ (m : Memory) (i : Nat), m.wf = true → (step (0 + i) ((bs.drop (i * c)).take c) m).wf = true :=
    fun m i => h.wf _ _ m
  rw [h.eq_foldl, view_foldl_range hwf view hk
    (fun m i hm hki hin => by rw [Nat.zero_add]; exact hlater m i _ hm hki hin) hm, Nat.zero_add]
  exact hstored _ (foldl_keeps (fun m : Memory => m.wf = true) _ hwf m _ hm)

end InOrder

theorem storeEntries_inOrder (tile : Tile) : StoresInOrder 2
    (fun k bs m => storeEntry m (4 * tile.shape.tmem.toNat + 4 * k) (BitVec.ofNat 16 (beValue bs)))
    (storeEntries tile) where
  zero _ _ _ := rfl
  succ _ _ _ _ := rfl
  wf _ _ _ hm := wf_storeEntry hm _ _

theorem storeBlock_inOrder (size : BitVec 2) (tile : Tile) (dxt : Nat) : StoresInOrder 8
    (fun j bs m => storeBlockWord size tile dxt j (BitVec.ofNat 64 (beValue bs)) m) (storeBlock size tile dxt) where
  zero _ _ _ := rfl
  succ _ _ _ _ := rfl
  wf _ _ _ hm := wf_storeBlockWord hm _ _ _ _ _

theorem storeRow_inOrder (size : BitVec 2) (tile : Tile) (t : Nat) : StoresInOrder (bytesPerTexel size)
    (fun s bs m => storeTexel size tile m s t (beValue bs)) (storeRow size tile t) where
  zero _ _ _ := rfl
  succ _ _ _ _ := rfl
  wf _ _ _ hm := wf_storeTexel hm _ _ _ _ _

/-! ### Palettes (R343) -/

/-- Copy `c` of entry `k` of a palette of at most 512 entries. -/
theorem tmem16_storeEntries {m : Memory} (hm : m.wf = true) (tile : Tile) {n k c : Nat} (hn : n ≤ 512) (hk : k < n)
    (hc : c < 4) (bs : List Byte) :
    tmem16 (storeEntries tile n 0 bs m) (4 * tile.shape.tmem.toNat + 4 * k + c) =
      BitVec.ofNat 16 (beValue ((bs.drop (2 * k)).take 2)) := by
  refine (storeEntries_inOrder tile).view_eq (fun m => tmem16 m _) hk hm (fun m hm => ?stored)
    (fun m i bs hm hki hin => ?later)
  case stored => rw [tmem16_storeEntry hm, if_pos (by omega), Nat.mul_comm]
  case later => exact (tmem16_storeEntry hm _ _ _).trans (if_neg (by omega))

/-- Settles O22: the load is `loadTlutEntries`, whose copies stand at different words. -/
theorem loadTlutStores : Obligations.LoadTlutStores := by
  intro s t i b hsize hwf hn hexec k c hk hc
  have hnot4Bit : s.settings.texImage.size ≠ 0 := by rw [hsize]; decide
  rw [exec_loadTlut, if_pos hsize, s.setBounds_loadChecked i b _ hnot4Bit] at hexec
  obtain rfl := Host.Outcome.next.inj hexec
  exact tmem16_storeEntries hwf ⟨_, b⟩ hn hk hc _

/-! ### Blocks of 8-bit and 16-bit texels (R342) -/

/-- Double word `j` of a block of at most 512 words, its halves swapped in the odd rows of dxt. -/
theorem tmem64_storeBlock {m : Memory} (hm : m.wf = true) {size : BitVec 2} (hsize : size ≠ 3) (tile : Tile) (dxt : Nat)
    {n j : Nat} (hn : n ≤ 512) (hj : j < n) (bs : List Byte) {v : Dword}
    (hv : v = BitVec.ofNat 64 (beValue ((bs.drop (8 * j)).take 8))) :
    tmem64 (storeBlock size tile dxt n 0 bs m) (tile.shape.tmem.toNat + j) =
      if dxtOdd dxt j then v.extractLsb' 0 32 ++ v.extractLsb' 32 32 else v := by
  have hword (m : Memory) (hm : m.wf = true) (i : Nat) (w : Dword) :
      tmem64 (storeBlockWord size tile dxt i w m) (tile.shape.tmem.toNat + j) =
        if (tile.shape.tmem.toNat + j) % 512 = (tile.shape.tmem.toNat + i) % 512 then
          (if dxtOdd dxt i then w.extractLsb' 0 32 ++ w.extractLsb' 32 32 else w)
        else tmem64 m (tile.shape.tmem.toNat + j) := by
    rw [storeBlockWord, if_neg hsize, tmem64_writeTmem64 hm]
  refine (storeBlock_inOrder size tile dxt).view_eq (fun m => tmem64 m _) hj hm (fun m hm => ?stored)
    (fun m i bs hm hji hin => ?later)
  case stored => rw [hword m hm, if_pos rfl, hv, Nat.mul_comm]
  case later => exact (hword m hm i _).trans (if_neg (by omega))

/-! ### Blocks of 32-bit texels (R342, R344) -/

/-- The 32-bit texel whose upper half stands at word `w`, its lower half 1024 words above (R313). -/
def splitTexel (m : Memory) (w : Nat) : Word := tmem16 m w ++ tmem16 m (w + 0x400)

theorem tmem16_of_splitTexel {m : Memory} {w : Nat} {x : Word} (h : splitTexel m w = x) :
    tmem16 m w = x.extractLsb' 16 16 ∧ tmem16 m (w + 0x400) = x.extractLsb' 0 16 := by
  subst h
  exact ⟨(BitVec.extractLsb'_append_eq_left ..).symm, (BitVec.extractLsb'_append_eq_right ..).symm⟩

/-- A split texel is read back at its own word and no other is changed (R344). -/
theorem splitTexel_storeSplit {m : Memory} (hm : m.wf = true) {w x : Nat} (hw : w < 1024) (hx : x < 1024) (v : Word) :
    splitTexel (storeSplit m w v.toNat) x = if x = w then v else splitTexel m x := by
  rw [splitTexel, tmem16_storeSplit hm, tmem16_storeSplit hm, if_neg (by omega)]
  by_cases hxw : x = w
  · have hhigh : BitVec.ofNat 16 (v.toNat / 65536) = v.extractLsb' 16 16 := by
      rw [BitVec.extractLsb', Nat.shiftRight_eq_div_pow]
    have hlow : BitVec.ofNat 16 v.toNat = v.extractLsb' 0 16 := rfl
    rw [if_pos (by omega), if_pos (by omega), if_pos hxw, hhigh, hlow]
    exact BitVec.extractLsb'_append_extractLsb'
  · rw [if_neg (by omega), if_neg (by omega), if_neg (by omega), if_neg hxw]
    rfl

/-- The two texels of source word `j`, texel `c` of it the upper half where `c = 0` (R342). -/
theorem splitTexel_storeBlockWord {m : Memory} (hm : m.wf = true) (tile : Tile) (dxt i : Nat) (v : Dword) {x : Nat}
    (hx : x < 1024) :
    splitTexel (storeBlockWord 3 tile dxt i v m) x =
      if x = blockWord32 tile dxt (2 * i + 1) then v.extractLsb' 0 32
      else if x = blockWord32 tile dxt (2 * i) then v.extractLsb' 32 32 else splitTexel m x := by
  rw [storeBlockWord, if_pos rfl, splitTexel_storeSplit (wf_storeSplit hm _ _) (blockWord32_lt tile dxt _) hx,
    splitTexel_storeSplit hm (blockWord32_lt tile dxt _) hx]

/-- Texel `2 * j + c` of a block of at most 512 words. -/
theorem splitTexel_storeBlock {m : Memory} (hm : m.wf = true) (tile : Tile) (dxt : Nat) {n j c : Nat} (hn : n ≤ 512)
    (hj : j < n) (hc : c < 2) (bs : List Byte) {v : Dword}
    (hv : v = BitVec.ofNat 64 (beValue ((bs.drop (8 * j)).take 8))) :
    splitTexel (storeBlock 3 tile dxt n 0 bs m) (blockWord32 tile dxt (2 * j + c)) =
      if c = 0 then v.extractLsb' 32 32 else v.extractLsb' 0 32 := by
  have hlt := blockWord32_lt tile dxt (2 * j + c)
  have hne (k : Nat) (hk : k < 1024) (hkj : 2 * j + c ≠ k) : blockWord32 tile dxt (2 * j + c) ≠ blockWord32 tile dxt k :=
    fun h => hkj (blockWord32_inj tile dxt _ _ (by omega) hk h)
  refine (storeBlock_inOrder 3 tile dxt).view_eq (fun m => splitTexel m _) hj hm (fun m hm => ?stored)
    (fun m i bs hm hji hin => ?later)
  case stored =>
    rw [splitTexel_storeBlockWord hm tile dxt j _ hlt, Nat.mul_comm j, ← hv]
    obtain rfl | rfl : c = 0 ∨ c = 1 := by omega
    · rw [if_neg (hne _ (by omega) (by omega)), Nat.add_zero, if_pos rfl, if_pos rfl]
    · rw [if_pos rfl, if_neg one_ne_zero]
  case later =>
    exact (splitTexel_storeBlockWord hm tile dxt i _ hlt).trans
      ((if_neg (hne _ (by omega) (by omega))).trans (if_neg (hne _ (by omega) (by omega))))

/-- Settles O20: the load is `loadBlockLinear`, whose words, and the texels of whose words, stand at different places. -/
theorem loadBlockStores : Obligations.LoadBlockStores := by
  intro s t i sl tl sh dxt hsize hwf hn hexec j hj v hv
  rw [exec_loadBlock, s.setBounds_loadChecked i _ _ hsize] at hexec
  obtain rfl := Host.Outcome.next.inj hexec
  refine ⟨fun hnot32Bit => ?words, fun h32Bit c k w x hc hk hw hx => ?texels⟩
  case words =>
    refine (tmem64_storeBlock hwf hnot32Bit ⟨_, ⟨sl, tl, sh, dxt⟩⟩ dxt.toNat hn hj _ hv).trans ?_
    simp only [dxtOdd, decide_eq_true_eq]
  case texels =>
    have hword : w = blockWord32 ⟨(s.settings.tile i).shape, ⟨sl, tl, sh, dxt⟩⟩ dxt.toNat (2 * j + c) := by
      simp only [hw, hk, blockWord32, dxtOdd, decide_eq_true_eq]
    have htexel := splitTexel_storeBlock hwf ⟨(s.settings.tile i).shape, ⟨sl, tl, sh, dxt⟩⟩ dxt.toNat hn hj hc _ hv
    rw [← hword, ← hx, ← h32Bit] at htexel
    exact tmem16_of_splitTexel htexel

/-! ### Rectangles (R341) -/

/-- Members of a flat list without repetition, from different indices, are different. -/
theorem disjoint_of_nodup_flatMap_range {α : Type} {f : Nat → List α} {n k i : Nat}
    (h : ((List.range n).flatMap f).Nodup) (hki : k < i) (hin : i < n) : (f k).Disjoint (f i) := by
  obtain ⟨_, hpair⟩ := List.nodup_flatMap.mp h
  have hget := List.pairwise_iff_getElem.mp hpair k i (by rw [List.length_range]; omega) (by rwa [List.length_range]) hki
  simpa using hget

/-- A raw texel survives a store of another texel whose bytes are not its own. -/
theorem rawTexel_storeTexel_of_disjoint {m : Memory} (hm : m.wf = true) {tile : Tile} (hsize : tile.shape.size ≠ 0)
    {s t s' t' : Nat} (hdisjoint : (texelBytes tile.shape.size tile s t).Disjoint (texelBytes tile.shape.size tile s' t'))
    (v : Nat) : rawTexel false (storeTexel tile.shape.size tile m s' t' v) tile s t = rawTexel false m tile s t :=
  rawTexel_congr tile s t hsize (fun a ha => tmem8_storeTexel_of_out hm _ tile s' t' v a (hdisjoint ha))

/-- Texel `k` of a row whose texels do not overlap. -/
theorem rawTexel_storeRow {m : Memory} (hm : m.wf = true) {tile : Tile} (hsize : tile.shape.size ≠ 0) {n t k : Nat}
    (hnodup : ((List.range n).flatMap (fun s => texelBytes tile.shape.size tile s t)).Nodup) (hk : k < n)
    (bs : List Byte) :
    rawTexel false (storeRow tile.shape.size tile t n 0 bs m) tile k t =
      beValue ((bs.drop (k * bytesPerTexel tile.shape.size)).take (bytesPerTexel tile.shape.size)) := by
  have hlt (l : List Byte) : beValue (l.take (bytesPerTexel tile.shape.size)) < 256 ^ bytesPerTexel tile.shape.size :=
    (beValue_lt _).trans_le (Nat.pow_le_pow_right (by decide) (List.length_take_le ..))
  refine (storeRow_inOrder tile.shape.size tile t).view_eq (fun m => rawTexel false m tile k t) hk hm
    (fun m hm => ?stored) (fun m i bs hm hki hin => ?later)
  case stored => exact rawTexel_storeTexel hm tile k t _ hsize (hlt _)
  case later =>
    have hdisjoint := disjoint_of_nodup_flatMap_range hnodup hki hin
    exact rawTexel_storeTexel_of_disjoint hm hsize hdisjoint _

/-- The bytes of run `j` are those read after the runs before it. -/
theorem readRuns_getD (runs : List (BitVec 24 × Nat)) (p : Ports) {j : Nat} (hj : j < runs.length) :
    (readRuns runs p).1.getD j [] = ((readRuns (runs.take j) p).2.readRun runs[j].1 runs[j].2).1 := by
  induction runs generalizing p j with
  | nil => exact absurd hj (Nat.not_lt_zero j)
  | cons r rest ih =>
    cases j with
    | zero => rfl
    | succ j => exact ih (p.readRun r.1 r.2).2 (Nat.lt_of_succ_lt_succ hj)

/-- Row `j` of a rectangle load is stored from the bytes of run `j`. -/
theorem loadRow_tmem (image : TexImage) (tile : Tile) (ls : LoadState) {j : Nat}
    (hj : j < texelCount (tile.bounds.tl.toNat / 4) (tile.bounds.th.toNat / 4)) :
    (loadRow image tile ((List.range j).foldl (loadRow image tile) ls) j).tmem =
      storeRow image.size tile j (texelCount (tile.bounds.sl.toNat / 4) (tile.bounds.sh.toNat / 4)) 0
        ((readRuns (tileRuns image tile) ls.ports).1.getD j [])
        ((List.range j).foldl (loadRow image tile) ls).tmem := by
  rw [readRuns_getD _ _ (by rwa [tileRuns, List.length_map, List.length_range])]
  simp only [tileRuns, ← List.map_take, List.take_range, Nat.min_eq_left hj.le, ← foldl_loadRow_ports, List.getElem_map,
    List.getElem_range]
  rfl

/-- Texel `k` of row `j` of a rectangle whose texels do not overlap. -/
theorem rawTexel_loadTileRect {image : TexImage} {tile : Tile} {ls : LoadState} (hm : ls.tmem.wf = true)
    (hsize : tile.shape.size ≠ 0) (hsame : tile.shape.size = image.size) (hnodup : (tileRectBytes image tile).Nodup)
    {j k : Nat} (hj : j < texelCount (tile.bounds.tl.toNat / 4) (tile.bounds.th.toNat / 4))
    (hk : k < texelCount (tile.bounds.sl.toNat / 4) (tile.bounds.sh.toNat / 4)) :
    rawTexel false (loadTileRect image tile ls).tmem tile k j =
      beValue ((((readRuns (tileRuns image tile) ls.ports).1.getD j []).drop (k * bytesPerTexel image.size)).take
        (bytesPerTexel image.size)) := by
  have hwf (l : LoadState) (j : Nat) (hl : l.tmem.wf = true) : (loadRow image tile l j).tmem.wf = true :=
    wf_storeRow hl _ _ _ _ _ _
  rw [loadTileRect, view_foldl_range hwf (fun l => rawTexel false l.tmem tile k j) hj (fun l i hl hji hin => ?later) hm]
  case later =>
    refine rawTexel_congr tile k j hsize (fun a ha => tmem8_storeRow_of_out hl _ _ _ _ _ _ _ (fun s hs hmem => ?_))
    rw [hsame] at ha
    rw [Nat.zero_add] at hmem
    exact disjoint_of_nodup_flatMap_range hnodup hji hin (List.mem_flatMap.mpr ⟨k, List.mem_range.mpr hk, ha⟩)
      (List.mem_flatMap.mpr ⟨s, List.mem_range.mpr hs, hmem⟩)
  have hrow := (List.nodup_flatMap.mp hnodup).1 j (List.mem_range.mpr hj)
  rw [loadRow_tmem image tile ls hj, ← hsame]
  rw [← hsame] at hrow
  exact rawTexel_storeRow (foldl_keeps _ _ hwf ls _ hm) hsize hrow hk _

/-- Settles O18: with its bounds in order the load is `loadTileRect`. -/
theorem loadTileReadBack : Obligations.LoadTileReadBack := by
  intro s t i b hsize hwf hs ht hsame hnodup hexec j k hj hk
  have huncrossed : crossedBounds b = false := by
    rw [Bool.eq_false_iff, ne_eq, crossedBounds_iff]
    omega
  rw [exec_loadTile, s.setBounds_loadChecked i b _ hsize,
    loadTileOrdered_of_uncrossed _ ⟨(s.settings.tile i).shape, b⟩ huncrossed] at hexec
  obtain rfl := Host.Outcome.next.inj hexec
  rw [State.load_settings, State.tile_setBounds_same]
  exact rawTexel_loadTileRect (tile := ⟨_, b⟩) (ls := ⟨s.tmem, s.ports⟩) hwf (fun h => hsize (hsame ▸ h)) hsame hnodup
    hj hk

end Sys2Proof.Machine
end

section
/-! The quad fetch (43_tmem_fetch.md R328, R332): the palette bank is all that tells its four fetches from single ones. -/

namespace Sys2Proof.Machine

/-- A 4-bit raw texel (R314). -/
theorem rawTexel_lt_of_4bit (e : Bool) (m : Memory) {tile : Tile} (h : tile.shape.size = 0) (s t : Nat) :
    rawTexel e m tile s t < 16 := by
  have hbyte (a : Nat) : (tmem8 m a).toNat < 256 := (tmem8 m a).isLt
  simp only [rawTexel, h, if_true]
  split
  · exact Nat.mod_lt _ (by decide)
  · exact Nat.div_lt_of_lt_mul (hbyte _)

/-- An 8-bit raw texel (R314). -/
theorem rawTexel_lt_of_8bit (e : Bool) (m : Memory) {tile : Tile} (h : tile.shape.size = 1) (s t : Nat) :
    rawTexel e m tile s t < 256 := by
  rw [rawTexel, if_neg (by rw [h]; decide), if_pos h]
  exact BitVec.isLt _

/-- The palette has 256 entries: an index is a whole 8-bit texel or a 4-bit one under the tile's palette (R327). -/
theorem paletteIndex_lt {e : Bool} {m : Memory} {tile : Tile} {s t idx : Nat}
    (h : paletteIndex tile (rawTexel e m tile s t) = some idx) : idx < 256 := by
  unfold paletteIndex at h
  split at h
  · cases h
  split at h
  next h4Bit =>
    obtain rfl := Option.some.inj h
    have hpalette : tile.shape.palette.toNat <<< 4 < 2 ^ 8 := by
      rw [Nat.shiftLeft_eq]
      omega
    exact Nat.or_lt_two_pow hpalette ((rawTexel_lt_of_4bit e m h4Bit s t).trans (by decide))
  split at h
  next h8Bit =>
    obtain rfl := Option.some.inj h
    exact rawTexel_lt_of_8bit e m h8Bit s t
  next => cases h

/-- With the palette off no bank is read (R328). -/
theorem fetchBank_of_noTlut {cfg : OtherModes} (h : cfg.enTlut = false) (m : Memory) (tile : Tile) (bank s t : Nat) :
    fetchBank cfg m tile bank s t = fetch1 cfg m tile s t := by
  simp only [fetch1, fetchBank, h]
  rfl

/-- Where the copies in bank `bank` are those of bank 0, so are the texels fetched through it (R328). -/
theorem fetchBank_of_sameCopies {m : Memory} {bank : Nat} (h : ∀ e < 256, tlutEntry m e bank = tlutEntry m e 0)
    (cfg : OtherModes) (tile : Tile) (s t : Nat) : fetchBank cfg m tile bank s t = fetch1 cfg m tile s t := by
  simp only [fetch1, fetchBank]
  cases hidx : paletteIndex tile (rawTexel cfg.enTlut m tile s t) with
  | none => rfl
  | some idx => simp only [h idx (paletteIndex_lt hidx)]

/-- Settles O38, texel by texel. -/
theorem quadInvariant : Obligations.QuadInvariant := by
  intro cfg m tile s0 s1 t0 t1 h
  have hbank (k : Nat) (hk : k < 4) (s t : Nat) : fetchBank cfg m tile k s t = fetch1 cfg m tile s t := by
    obtain hoff | hcopies := h
    · exact fetchBank_of_noTlut hoff m tile k s t
    · exact fetchBank_of_sameCopies (fun e he => hcopies e k he hk) cfg tile s t
  rw [fetch4, hbank 0 (by decide), hbank 1 (by decide), hbank 2 (by decide), hbank 3 (by decide)]

end Sys2Proof.Machine
end

section
/-! The color combiner (45_combiner.md R380, R383, R384): a lane with A, B and C zero, and the refused writes of `cc`. -/

namespace Sys2Proof.Machine

/-- `zext_n` in arithmetic (R11). -/
theorem zext_eq_emod (n : Nat) (v : Int) : zext n v = v % 2 ^ n := by
  simp [zext]

/-- `ext9` reads nine bits again, some of them as negative numbers: it keeps the value modulo 512 (R384). -/
theorem ext9_emod (v : Int) : ext9 v % 512 = v % 512 := by
  simp only [ext9, zext_eq_emod]
  split <;> omega

/-- With A, B and C zero the product is zero, and the rounding constant 0x80 does not reach the lane's bits (R383). -/
theorem combineLane_zero (d : Int) : combineLane 0 0 0 d = d % 512 := by
  calc combineLane 0 0 0 d
      = (ext9 d * 256 + 0x80) % 2 ^ 17 / 2 ^ 8 := by simp [combineLane, asr, zext_eq_emod]
    _ = ext9 d % 512 := by omega
    _ = d % 512 := ext9_emod d

/-- Settles O39: the two ranges are `combineLane_bounds` and `clamp9_bounds`, and D passes through by
`combineLane_zero`. -/
theorem combinerRange : Obligations.CombinerRange := by
  intro a b c d
  obtain ⟨hlane, hlane'⟩ := combineLane_bounds a b c d
  obtain ⟨hclamp, hclamp'⟩ := clamp9_bounds (combineLane a b c d)
  exact ⟨hlane, hlane', hclamp, hclamp', combineLane_zero d⟩

/-- Settles O49: a write that is not well formed has a bad operand, and the refusal names it. -/
theorem badOperandRefused : Obligations.BadOperandRefused := by
  intro s c hc
  have hbad : cfgBadOperand c ≠ none := by simp [cfgBadOperand_eq_none_iff, hc]
  obtain ⟨⟨slot, op⟩, hsome⟩ := Option.ne_none_iff_exists'.mp hbad
  refine ⟨slot, op, cfgBadOperand_some hsome, ?_⟩
  rw [hostCfg, hsome]

end Sys2Proof.Machine
end

section
/-! The memory color of a pixel (46_blender.md R402): what its FbRead answers, and the ports it is read through. -/

namespace Sys2Proof.Machine

/-! ### The color of an answer -/

/-- A lane made of a small bit vector's value is its zero extension. -/
theorem ofInt_toNat_eq_setWidth {n : Nat} (v : BitVec n) : BitVec.ofInt 32 v.toNat = v.setWidth 32 := by
  rw [BitVec.ofInt_natCast, BitVec.ofNat_toNat]

/-- The coverage times 32 is the coverage shifted left by five. -/
theorem ofInt_coverage_eq_shiftLeft (v : BitVec 3) : BitVec.ofInt 32 (32 * v.toNat) = v.setWidth 32 <<< 5 := by
  rw [BitVec.shiftLeft_eq_mul_twoPow, mul_comm, BitVec.ofInt_mul, ofInt_toNat_eq_setWidth]
  rfl

theorem memoryColor_of_imageRead {m : OtherModes} (h : m.imageReadEn = true) (x y : BitVec 10) {p : Ports} {v : FbPixel}
    (hv : v = (p.fbRead x y).1) :
    (memoryColor m x y p).1 =
      ⟨v.mr.setWidth 32, v.mg.setWidth 32, v.mb.setWidth 32, v.memcvg.setWidth 32 <<< 5⟩ := by
  rw [memoryColor, if_pos h, ← hv]
  simp only [Color.ofInts, ofInt_toNat_eq_setWidth, ofInt_coverage_eq_shiftLeft]

theorem memoryColor_of_noImageRead {m : OtherModes} (h : m.imageReadEn = false) (x y : BitVec 10) (p : Ports) :
    (memoryColor m x y p).1 = ⟨0, 0, 0, 0xE0⟩ := by
  rw [memoryColor, h]
  rfl

/-! ### The memory color of a pixel -/

/-- The depth test consumes one ZRead answer, or leaves the ports alone (R441). -/
theorem depthStage_ports (m : OtherModes) (x y : BitVec 10) (z : BitVec 18) (dz : BitVec 16) (p : Ports) :
    (depthStage m x y z dz p).2 = if m.zCompareEn then (p.zRead x y).2 else p := by
  rw [depthStage]
  split <;> rfl

/-- The memory color is read after the threshold's draw and the ZRead (R428, R441, R442). -/
theorem backEnd_mem (g : Settings) (pin : PixelIn) (adith : Int) (ps : PixelState) :
    (backEnd g pin adith ps).mem = (memoryColor g.cfg pin.x pin.y
      (if g.cfg.zCompareEn then ((drawIf (thresholdDraws g.cfg) ps.ports).2.zRead pin.x pin.y).2
        else (drawIf (thresholdDraws g.cfg) ps.ports).2)).1 := by
  rw [← depthStage_ports g.cfg pin.x pin.y (depthSource g pin.z pin.dz).1 (depthSource g pin.z pin.dz).2]
  rfl

section Finish

variable (g : Settings) (two : Bool) (pin : PixelIn) (dith : DitherVals) (ps : PixelState)

@[simp] theorem finishPixel_memory :
    (finishPixel g two pin dith ps).regs.memory = (backEnd g pin dith.adith ps).mem := by
  obtain ⟨_, _, hregs, _⟩ := finishPixel_regs g two pin dith ps
  rw [hregs]

@[simp] theorem finishPixel_preMemory :
    (finishPixel g two pin dith ps).regs.preMemory = (backEnd g pin dith.adith ps).mem := by
  obtain ⟨_, _, hregs, _⟩ := finishPixel_regs g two pin dith ps
  rw [hregs]

end Finish

/-- The 1-cycle and the 2-cycle pixel end alike, on the ports after the dither and noise draws (R247, R248). -/
theorem drawPixel_eq_finishPixel {g : Settings} (h : cycleType g.cfg = .one ∨ cycleType g.cfg = .two) (m : Memory)
    (prim : Prim) (ps : PixelState) (pin : PixelIn) :
    ∃ (two : Bool) (dith : DitherVals) (regs : ColorRegs), drawPixel g m prim ps pin =
      finishPixel g two pin dith ⟨regs, (noiseDraw g (ditherDraw g.cfg pin.x pin.y ps.ports).2).2⟩ := by
  obtain hone | htwo := h
  · exact ⟨false, _, _, drawPixel_one m prim ps pin hone⟩
  · exact ⟨true, _, _, drawPixel_two m prim ps pin htwo⟩

end Sys2Proof.Machine

namespace Sys2Proof.Laws

open Sys2Proof.Machine

/-- Settles O32: both registers take the memory color of the pixel's back end. (In `Sys2Proof.Machine` the model's
function has this name.) -/
theorem memoryColor : Obligations.MemoryColor := by
  intro g m prim pin ps ps' hcycle hdraw
  obtain ⟨two, dith, regs, hfinish⟩ := drawPixel_eq_finishPixel hcycle m prim ps pin
  obtain rfl := hfinish.symm.trans hdraw
  rw [finishPixel_memory, finishPixel_preMemory, backEnd_mem]
  refine ⟨rfl, fun hoff => ?off, fun before v hbefore hv hon => ?on⟩
  case off => exact memoryColor_of_noImageRead hoff ..
  case on =>
    subst hbefore
    exact memoryColor_of_imageRead hon _ _ hv

end Sys2Proof.Laws
end

section
/-! The blend equation (46_blender.md R405, R411): a weighted sum of the two colors, and a weighted mean where it is
normalised. -/

namespace Sys2Proof.Machine

/-- The blend equation with its shifts as quotients (R405). -/
theorem blendLane_eq (shift : Bool) (p a m b : Int) :
    blendLane shift p a m b =
      min ((p * (a / 8) + m * (b / 8 + 1)) / (if shift then 32 else a / 8 + b / 8 + 1)) 255 := by
  cases shift <;> rfl

/-- A weighted mean, rounded down, lies between its two values. -/
theorem weightedMean_bounds (p m : Int) {u w : Int} (hu : 0 ≤ u) (hw : 0 < w) :
    min p m ≤ (p * u + m * w) / (u + w) ∧ (p * u + m * w) / (u + w) ≤ max p m := by
  have hsum : 0 < u + w := by omega
  constructor
  · rw [Int.le_ediv_iff_mul_le hsum, mul_add]
    exact add_le_add (mul_le_mul_of_nonneg_right (min_le_left p m) hu)
      (mul_le_mul_of_nonneg_right (min_le_right p m) hw.le)
  · refine Int.ediv_le_of_le_mul hsum ?_
    rw [mul_add]
    exact add_le_add (mul_le_mul_of_nonneg_right (le_max_left p m) hu)
      (mul_le_mul_of_nonneg_right (le_max_right p m) hw.le)

/-- The normalised blend lies between its two colors: the bound of 255 cuts off nothing below the smaller one (R405). -/
theorem blendLane_between {p a m b : Int} (hp : p ≤ 255) (ha : 0 ≤ a) (hb : 0 ≤ b) :
    min p m ≤ blendLane false p a m b ∧ blendLane false p a m b ≤ max p m := by
  obtain ⟨hlow, hhigh⟩ := weightedMean_bounds p m (u := a / 8) (w := b / 8 + 1) (by omega) (by omega)
  rw [← add_assoc] at hlow hhigh
  rw [blendLane_eq, if_neg Bool.false_ne_true]
  exact ⟨le_min hlow ((min_le_left p m).trans hp), (min_le_left _ _).trans hhigh⟩

/-- Settles O40: the equation is `blendLane_eq`, the range `blendLane_bounds`, the mean `blendLane_between`. -/
theorem blendRange : Obligations.BlendRange := by
  intro shift p a m b hp hp' ha _ hm _ hb _
  obtain ⟨hlow, hhigh⟩ := blendLane_bounds shift hp ha hm hb
  refine ⟨blendLane_eq shift p a m b, hlow, hhigh, fun hshift => ?normalised⟩
  case normalised =>
    subst hshift
    exact blendLane_between hp' ha hb

end Sys2Proof.Machine
end

section
/-! Coverage destination and the dither of a channel (47_coverage_dither_z.md R424, R435, R436): their equations, with the
bit operations as arithmetic. -/

namespace Sys2Proof.Machine

/-! ### Coverage destination (R424) -/

/-- Over the accumulated coverages, and the -1 an empty count becomes, bit 3 is the overflow. -/
theorem bit_three_iff {f : Int} (hlow : -8 ≤ f) (hhigh : f < 16) : bit 3 f = true ↔ f < 0 ∨ 8 ≤ f := by
  rw [bit, decide_eq_true_iff]
  change f / 8 % 2 = 1 ↔ _
  omega

/-- The clamp of R424: what overflows three bits, or lies below 0, saturates at 7. -/
theorem saturate_toNat {f : Int} (hlow : -8 ≤ f) (hhigh : f < 16) :
    (if bit 3 f then (7 : BitVec 3) else BitVec.ofInt 3 f).toNat = if f < 0 ∨ 8 ≤ f then 7 else f.toNat := by
  simp only [bit_three_iff hlow hhigh]
  split
  case isTrue => rfl
  case isFalse =>
    rw [BitVec.toNat_ofInt]
    omega

section CoverageOut

variable {m : OtherModes} (blendEn : Bool) {cvg memcvg : Nat}

/-- Without blending the memory's coverage does not count, and the pixel's is stored less one. -/
theorem coverageOut_clamp (h : m.cvgDest = 0) (hc : cvg ≤ 8) (hm : memcvg ≤ 7) :
    (coverageOut m blendEn cvg memcvg).toNat =
      if blendEn then (if 8 ≤ cvg + memcvg then 7 else cvg + memcvg) else (if cvg = 0 then 7 else cvg - 1) := by
  rw [coverageOut, if_pos h]
  cases blendEn
  case true =>
    rw [if_pos rfl, if_pos rfl, saturate_toNat (by omega) (by omega)]
    split <;> split <;> omega
  case false =>
    rw [if_neg Bool.false_ne_true, if_neg Bool.false_ne_true, saturate_toNat (by omega) (by omega)]
    split <;> split <;> omega

theorem coverageOut_wrap (h : m.cvgDest = 1) : (coverageOut m blendEn cvg memcvg).toNat = (cvg + memcvg) % 8 := by
  simp [coverageOut, h]

theorem coverageOut_zap (h : m.cvgDest = 2) : (coverageOut m blendEn cvg memcvg).toNat = 7 := by
  simp [coverageOut, h]

theorem coverageOut_save (h0 : m.cvgDest ≠ 0) (h1 : m.cvgDest ≠ 1) (h2 : m.cvgDest ≠ 2) (hm : memcvg ≤ 7) :
    (coverageOut m blendEn cvg memcvg).toNat = memcvg := by
  simp only [coverageOut, h0, h1, h2, if_false, BitVec.toNat_ofNat]
  omega

end CoverageOut

/-- Settles O41, one `coverageOut` equation for each `cvg_dest`. -/
theorem coverageDestination : Obligations.CoverageDestination := by
  intro m blendEn cvg memcvg hc hm
  by_cases hclamp : m.cvgDest = 0
  · rw [if_pos hclamp]
    exact coverageOut_clamp blendEn hclamp hc hm
  rw [if_neg hclamp]
  by_cases hwrap : m.cvgDest = 1
  · rw [if_pos hwrap]
    exact coverageOut_wrap blendEn hwrap
  rw [if_neg hwrap]
  by_cases hzap : m.cvgDest = 2
  · rw [if_pos hzap]
    exact coverageOut_zap blendEn hzap
  rw [if_neg hzap]
  exact coverageOut_save blendEn hclamp hwrap hzap hm

/-! ### Dither of a channel (R435, R436) -/

/-- The default gate opens where the low three bits do not exceed the dither value (R435; log 24). -/
theorem ditherGate_iff (d v : Int) : ditherGate d v = true ↔ v % 8 ≤ d := by
  simp [ditherGate, zext_eq_emod]

/-- In a channel's range `up` gives the next multiple of 8, saturated (R436). -/
theorem roundUp_eq {v : Int} (h0 : 0 ≤ v) : roundUp v = if 247 < v then 255 else v - v % 8 + 8 := by
  simp only [roundUp, zext_eq_emod]
  split <;> omega

theorem ditherChannel_eq (d : Int) {v : Int} (h0 : 0 ≤ v) :
    ditherChannel d v = if v % 8 ≤ d then (if 247 < v then 255 else v - v % 8 + 8) else v := by
  simp only [ditherChannel, ditherGate_iff, roundUp_eq h0]

end Sys2Proof.Machine

namespace Sys2Proof.Laws

open Sys2Proof.Machine

/-- Settles O42: the bounds are read off the equation. (In `Sys2Proof.Machine` the model's function has this name.) -/
theorem ditherChannel : Obligations.DitherChannel := by
  intro d v _ _ hlow hhigh
  have heq := ditherChannel_eq d hlow
  refine ⟨heq, ?_⟩
  rw [heq]
  split_ifs <;> omega

end Sys2Proof.Laws
end

section
/-! The requests of a 1-cycle or 2-cycle pixel (47_coverage_dither_z.md R422, R423, R428, R433, R441 to R446): the tests of
a pixel that is written, each as a condition on what the pixel reads, and its random draws counted. -/

namespace Sys2Proof.Machine

/-! ### The random draws (R433) -/

theorem randIf_eq_replicate (needed : Bool) : randIf needed = List.replicate (if needed then 1 else 0) .rand := by
  cases needed <;> rfl

/-! ### The tests of R422 -/

theorem eligible_iff (g : Settings) (mask : BitVec 8) (b : BackEnd) :
    eligible g mask b = true ↔
      coverageOk g.cfg b.color.cvg mask = true ∧ b.alphaOk = true ∧ b.zOk = true ∧ b.color.keyOk = true := by
  simp only [eligible, Bool.and_eq_true, and_assoc]

theorem coverageOk_iff (m : OtherModes) (cvg : Nat) (mask : BitVec 8) :
    coverageOk m cvg mask = true ↔ if m.antialiasEn then cvg ≠ 0 else mask.getLsbD 7 = true := by
  rw [coverageOk]
  split
  · exact bne_iff_ne
  · rfl

theorem alphaCompare_iff (g : Settings) (alpha rand : Int) :
    alphaCompare g alpha rand = true ↔ (g.cfg.alphaCompareEn = true →
      (if g.cfg.ditherAlphaEn then rand % 256 else g.blendColor.a.toNat) ≤ alpha) := by
  rw [alphaCompare]
  split
  case isTrue h => simp [h, zext_eq_emod]
  case isFalse h => simp [h]

theorem depthTest_iff (m : OtherModes) (z : BitVec 18) (dz : BitVec 16) (mem : ZPixel) :
    (depthTest m z dz mem).1 = true ↔
      if m.zMode = 3 then ((z.toNat : Int) - mem.mz.toNat).natAbs ≤ max dz.toNat mem.mdz.toNat
      else z.toNat ≤ mem.mz.toNat := by
  rw [depthTest]
  split <;> simp

/-- Without `z_compare_en` the depth test passes and nothing is read (R443). -/
theorem depthStage_iff (m : OtherModes) (x y : BitVec 10) (z : BitVec 18) (dz : BitVec 16) (p : Ports) :
    (depthStage m x y z dz p).1.1 = true ↔
      (m.zCompareEn = true → (depthTest m z dz (p.zRead x y).1).1 = true) := by
  rw [depthStage]
  split
  case isTrue h => simp [h]
  case isFalse h => simp [h]

/-- The coverage count after R423: bits 8 to 5 of the rounded product with `cvg_times_alpha`, else unchanged. -/
theorem coverageAlpha_count (m : OtherModes) (alpha : Int) (cvg : Nat) (adith : Int) :
    (coverageAlpha m alpha cvg adith).2 =
      if m.cvgTimesAlpha then ((alpha * cvg + 4) / 8 / 32 % 16).toNat else cvg := rfl

/-! ### The back end of a pixel -/

section BackEnd

variable (g : Settings) (pin : PixelIn) (adith : Int) (ps : PixelState)

theorem backEnd_cvg :
    (backEnd g pin adith ps).color.cvg =
      (coverageAlpha g.cfg (chromaKey g ps.regs.combined (clampPixel ps.regs.combined)).1.alpha (cvgCount pin.mask)
        adith).2 := rfl

theorem backEnd_keyOk :
    (backEnd g pin adith ps).color.keyOk = (chromaKey g ps.regs.combined (clampPixel ps.regs.combined)).2 := rfl

/-- The alpha compare tests the alpha the pixel is blended with (log 20). -/
theorem backEnd_alphaOk :
    (backEnd g pin adith ps).alphaOk =
      alphaCompare g (backEnd g pin adith ps).color.pixel.alpha (drawIf (thresholdDraws g.cfg) ps.ports).1 := rfl

theorem backEnd_zOk :
    (backEnd g pin adith ps).zOk =
      (depthStage g.cfg pin.x pin.y (depthSource g pin.z pin.dz).1 (depthSource g pin.z pin.dz).2
        (drawIf (thresholdDraws g.cfg) ps.ports).2).1.1 := rfl

end BackEnd

/-! ### The registers the tests are stated on -/

section Finish

variable (g : Settings) (two : Bool) (pin : PixelIn) (dith : DitherVals) (ps : PixelState)

@[simp] theorem finishPixel_combined : (finishPixel g two pin dith ps).regs.combined = ps.regs.combined := by
  obtain ⟨_, _, hregs, _⟩ := finishPixel_regs g two pin dith ps
  rw [hregs]

@[simp] theorem finishPixel_pixel :
    (finishPixel g two pin dith ps).regs.pixel = (backEnd g pin dith.adith ps).color.pixel := by
  obtain ⟨_, _, hregs, _⟩ := finishPixel_regs g two pin dith ps
  rw [hregs]

end Finish

/-- Settles O31: the requests are those of `finishPixel_requests` after the dither and noise draws, and each test of
`eligible_iff` is read off the registers the pixel leaves. -/
theorem pixelRequests : Obligations.PixelRequests := by
  intro g m prim pin ps ps' hcycle hdraw noise threshold mem key cvg z dz hnoise hthreshold hmem hkey hcvg hsource
  obtain ⟨two, dith, regs, hfinish⟩ := drawPixel_eq_finishPixel hcycle m prim ps pin
  obtain rfl := hfinish.symm.trans hdraw
  rw [finishPixel_combined] at hkey
  obtain ⟨hz, hdz⟩ : z = (depthSource g pin.z pin.dz).1 ∧ dz = (depthSource g pin.z pin.dz).2 :=
    Prod.ext_iff.mp hsource
  subst hnoise hthreshold hmem hkey hcvg hz hdz
  obtain ⟨r, gr, bl, c, hevents⟩ := finishPixel_requests g two pin dith
    ⟨regs, (noiseDraw g (ditherDraw g.cfg pin.x pin.y ps.ports).2).2⟩
  refine ⟨_, _, r, gr, bl, c, rfl, rfl, hevents.trans (congrArg₂ (· ++ ·) ?reads (if_congr ?written rfl rfl))⟩
  case reads =>
    simp only [noiseDraw_events, ditherDraw_events, randIf_eq_replicate, List.replicate_add, List.append_assoc]
  case written =>
    rw [eligible_iff, backEnd_cvg, backEnd_keyOk, backEnd_alphaOk, backEnd_zOk, coverageAlpha_count, coverageOk_iff,
      alphaCompare_iff, depthStage_iff, depthTest_iff, finishPixel_pixel]

end Sys2Proof.Machine
end

section
/-! The exception and the host's entries about it (10_state.md R48, R60; 60_exceptions.md R460 to R470): what a
configuration write and `ReadCrashed` answer, which command sets `crashed`, and that no command reads it. -/

namespace Sys2Proof.Machine

/-! ### The host's entries -/

/-- Settles O47: the step runs `hostReadCrashed`, which sets the reply from the state's own flag. -/
theorem readCrashedReplies : Obligations.ReadCrashedReplies := by
  intro s rest hr hin
  rw [step_of_inbox hr hin]
  rfl

/-- A well-formed configuration write is stored (R470). -/
theorem hostCfg_of_wellFormed {c : CfgWrite} (hwf : c.wellFormed = true) (s : State) :
    hostCfg c s = .next (s.configure (cfgRegisters c) (cfgSettings s.settings c)) := by
  rw [hostCfg, (cfgBadOperand_eq_none_iff c).mpr hwf]

/-- A step on a well-formed configuration write stores it and takes the entry off the inbox (R470, R471). -/
theorem step_cfg {s : State} {c : CfgWrite} {rest : List HostEntry} (hr : s.refused = false)
    (hin : s.inbox = .cfg c :: rest) (hwf : c.wellFormed = true) :
    step s = .next (State.configure { s with inbox := rest } (cfgRegisters c) (cfgSettings s.settings c)) := by
  rw [step_of_inbox hr hin]
  exact hostCfg_of_wellFormed hwf _

/-- Settles O48: each answer is `step_cfg` with the registers and settings of its write, and a slot of `cc` is read back
by `slotOf_setCcSlot`. -/
theorem cfgWrites : Obligations.CfgWrites := by
  intro s c rest hr hin answer hanswer
  have stored (c' : CfgWrite) (hc : c = c') (hwf : c'.wellFormed = true) :
      answer (cfgSettings s.settings c') (cfgRegisters c') := by
    subst hc hanswer
    exact step_cfg hr hin hwf
  refine ⟨fun v hc => stored (.primColor v) hc rfl, fun v hc => stored (.envColor v) hc rfl,
    fun v hc => stored (.fogColor v) hc rfl, fun v hc => stored (.blendColor v) hc rfl,
    fun v hc => stored (.primLodFrac v) hc rfl, fun v hc => stored (.minLevel v) hc rfl,
    fun v hc => stored (.keyCenter v) hc rfl, fun v hc => stored (.keyScale v) hc rfl,
    fun v hc => stored (.keyWidth v) hc rfl, fun v hc => stored (.clip v) hc rfl,
    fun v hc hwf => stored (.ccAll v) hc hwf, fun cyc slot op hc haccepts => ?slot⟩
  have readBack (cyc' : Bool) (slot' : Slot) := slotOf_setCcSlot s.settings.cc cyc cyc' slot slot' op
  exact ⟨setCcSlot s.settings.cc cyc slot op, stored (.ccSlot cyc slot op) hc haccepts,
    (readBack cyc slot).trans (if_pos ⟨rfl, rfl⟩),
    fun cyc' slot' hne => (readBack cyc' slot').trans (if_neg (mt Prod.ext_iff.mpr hne))⟩

/-! ### Who sets `crashed` -/

/-- A command keeps `crashed`, or it is a load of a 4-bit image (R460, R464). -/
theorem exec_crashed_or_isLoad {i : Instr} {s t : State} (h : exec i s = .next t) :
    t.crashed = s.crashed ∨ s.settings.texImage.size = 0 ∧ isLoad i = true := by
  obtain ⟨hload, tile, b, f, _, rfl⟩ | ⟨xl, yl, xh, yh, _, rfl⟩ | ⟨_, rfl⟩ | ⟨_, hframe, _⟩ := exec_cases h
  · by_cases hsize : s.settings.texImage.size = 0
    · exact .inr ⟨hsize, hload⟩
    · exact .inl (by rw [s.setBounds_loadChecked tile b f hsize, State.load_crashed, State.setBounds_crashed])
  · exact .inl (State.drawPrim_crashed ..)
  · exact .inl (State.emit_crashed ..)
  · exact .inl (by rw [hframe])

/-- Settles O52, by the kind of the step's entry; of the commands, by `exec_crashed_or_isLoad`. -/
theorem onlyLoadsFault : Obligations.OnlyLoadsFault := by
  intro s t hstep hclear hset
  have hne : t.crashed ≠ s.crashed := by simp [hclear, hset]
  obtain ⟨_, ⟨_, rfl⟩ | ⟨w0, w1, rest, i, u, hin, hd, hexec, rfl⟩ | ⟨rest, _, rfl⟩ | ⟨c, rest, _, _, rfl⟩ |
    ⟨p, rest, _, rfl⟩ | ⟨rest, _, rfl⟩⟩ := step_cases hstep
  · exact absurd rfl hne
  · obtain hkept | ⟨hsize, hload⟩ := exec_crashed_or_isLoad hexec
    · exact absurd hkept hne
    · exact ⟨hsize, w0, w1, i, by rw [hin]; rfl, hd, hload⟩
  · exact absurd hset (by rw [hostInit_crashed]; decide)
  · exact absurd rfl hne
  · exact absurd rfl hne
  · exact absurd rfl hne

/-! ### Who reads `crashed` -/

/-- The state with another `crashed`. -/
def State.withCrashed (s : State) (c : Bool) : State := { s with crashed := c }

/-- A checked load answers the same whatever `crashed` was, but for `crashed` itself (R461). -/
theorem State.loadChecked_withCrashed (s : State) (c : Bool) (f : LoadState → LoadState) :
    ((s.withCrashed c).loadChecked f).withCrashed (s.loadChecked f).crashed = s.loadChecked f := by
  by_cases hsize : s.settings.texImage.size = 0
  · rw [s.loadChecked_fault f hsize, (s.withCrashed c).loadChecked_fault f hsize]
    rfl
  · rw [s.loadChecked_load f hsize, (s.withCrashed c).loadChecked_load f hsize]
    rfl

/-- Settles O53, command by command: a load is `loadChecked_withCrashed` after its bounds, and every other command
updates the state by a function of the other fields that leaves `crashed` as it was. -/
theorem crashedGatesNothing : Obligations.CrashedGatesNothing := by
  intro i s t c h
  cases i with
  | loadTlut tile b => cases h; exact ⟨_, rfl, (s.setBounds tile b).loadChecked_withCrashed c _⟩
  | loadBlock tile sl tl sh dxt =>
    cases h; exact ⟨_, rfl, (s.setBounds tile ⟨sl, tl, sh, dxt⟩).loadChecked_withCrashed c _⟩
  | loadTile tile b => cases h; exact ⟨_, rfl, (s.setBounds tile b).loadChecked_withCrashed c _⟩
  | _ => cases h; exact ⟨_, rfl, rfl⟩

end Sys2Proof.Machine
end

section
/-! INIT and the reset state (70_reset_and_hazards.md R480 to R485): INIT writes constants only, and the reset state is a
state INIT leaves as it is, so the values after INIT are the values of reset. -/

namespace Sys2Proof.Machine

/-! ### What reads as 0 after INIT -/

@[simp] theorem hostInit_tile (s : State) (i : BitVec 3) : (hostInit s).settings.tile i = .zero :=
  Vector.getElem_replicate ..

@[simp] theorem tmem8_hostInit (s : State) (a : Nat) : tmem8 (hostInit s).tmem a = 0 := rfl

/-- The reset state is one right after INIT (R483). -/
theorem hostInit_reset : hostInit State.reset = State.reset := rfl

/-- Settles O45: the step is `hostInit` with the entry taken off the inbox. -/
theorem initResets : Obligations.InitResets := by
  intro s rest hr hin
  exact ⟨hostInit { s with inbox := rest }, step_of_inbox hr hin, hostInit_tile _, hostInit_regs _, tmem8_hostInit _,
    hostInit_crashed _, hostInit_cmdIndex _, rfl⟩

/-- Settles O46: each field INIT writes is given a constant, so the second INIT writes what the first one wrote. -/
theorem initIdempotent : Obligations.InitIdempotent := fun _ => rfl

/-- Settles O60: the reset state is what INIT makes of it, and has the values of INIT. -/
theorem resetValues : Obligations.ResetValues := by
  unfold Obligations.ResetValues
  rw [← hostInit_reset]
  exact ⟨hostInit_tile _, hostInit_regs _, tmem8_hostInit _, hostInit_crashed _, hostInit_cmdIndex _⟩

/-! ### The invariant at reset -/

/-- Every slot lists the operand `zero` (R380). -/
theorem Slot.accepts_zero (sl : Slot) : sl.accepts .zero = true := by cases sl <;> decide

theorem slotOf_cycleSelZero (sl : Slot) : slotOf cycleSelZero sl = .zero := by cases sl <;> rfl

theorem wellFormed_cycleSelZero : cycleSelZero.wellFormed = true :=
  (CycleSel.wellFormed_iff _).mpr fun sl => by rw [slotOf_cycleSelZero, Slot.accepts_zero]

/-- Settles O59: TMEM and the span buffer list nothing, the Color registers are 0, `cc` holds `zero` in every slot, and
the texture width is 1 (log 1). -/
theorem resetInv : Obligations.ResetInv where
  tmem := rfl
  operands := Bool.and_eq_true_iff.mpr ⟨wellFormed_cycleSelZero, wellFormed_cycleSelZero⟩
  width := rfl
  colors := ColorRegs.inRange_zero
  spans := trivial

end Sys2Proof.Machine
end
